-- ==== Sys2Proof/Word.lean ====
section
/-! DEFINITION. The widths the spec gives its values (00_scope R15: u4, u7, u8, u32; all unsigned). -/

namespace Sys2Proof

/-- A register value, a mask, a character code as sent: `u8` (R15). -/
abbrev Byte := BitVec 8

/-- A 4-bit value, one half of a byte (R15, R22). -/
abbrev Nibble := BitVec 4

/-- A bus address: `u7` (R15, R22 BusAddress). -/
abbrev BusAddr := BitVec 7

/-- A DDRAM address, and the address counter's value: `u7` (R15, R116). -/
abbrev DdAddr := BitVec 7

/-- A position of a pin in an expander register (R200: 3 bits, 8 positions; R205: bit i is pin i). -/
abbrev Pin := Fin 8

end Sys2Proof
end

