-- ==== Sys2Proof/Syntax.lean ====
section
/-! DEFINITION. The instructions of the block: one constructor of `Instr` per row of spec/opcode_table.json, in the
table's order, with the operands of 30_encoding R307 and R314. -/

namespace Sys2Proof

/-- The direction operand of `shift_cursor` (R314, R711). -/
inductive Direction where
  | left | right
  deriving DecidableEq, Repr, Inhabited

/-- The three columns of the keypad (R4, R801). -/
inductive Column where
  | c1 | c2 | c3
  deriving DecidableEq, Repr, Inhabited

/-- The four rows of the keypad (R4, R801). -/
inductive Row where
  | r1 | r2 | r3 | r4
  deriving DecidableEq, Repr, Inhabited

/-- The twelve keys, in the document's order (R310, R800). -/
inductive Key where
  | k1 | k2 | k3 | k4 | k5 | k6 | k7 | k8 | k9 | star | k0 | pound
  deriving DecidableEq, Repr, Inhabited

/-- The unit of a delay: `delay_us(d)` or `delay_ms(d)` (R19, R314). -/
inductive TimeUnit where
  | us | ms
  deriving DecidableEq, Repr, Inhabited

/-- The instructions the HD44780 controller executes: the twelve F-CMD rows of R307.
Bits the controller ignores are kept as operands, so that no bit of a word is dropped. -/
inductive Cmd where
  | nopInvalid
  | clearDisplay
  | returnHome (x : Bool)
  | entryModeSet (i s : Bool)
  | displayControl (d c b : Bool)
  | cursorDisplayShift (p r : Bool) (x : BitVec 2)
  | functionSet (l n f : Bool) (x : BitVec 2)
  | setCgramAddr (a : BitVec 6)
  | setDdramAddr (a : DdAddr)
  | readBusyAddr (x : Byte)
  | writeData (d : Byte)
  | readData (x : Byte)
  deriving DecidableEq, Repr

/-- One constructor per row of spec/opcode_table.json. -/
inductive Instr where
  -- F-BUS: the two transport calls and the five register operations (40_gpio_expander)
  | busWrite (a : BusAddr) (reg v : Byte)
  | busWriteRead (a : BusAddr) (reg : Byte)
  | read (a : BusAddr)
  | write (a : BusAddr) (v : Byte)
  | setBits (a : BusAddr) (m : Byte)
  | clearBits (a : BusAddr) (m : Byte)
  | configureDirection (a : BusAddr) (m : Byte)
  -- F-CMD: the controller's words (41_hd44780_controller)
  | nopInvalid
  | clearDisplay
  | returnHome (x : Bool)
  | entryModeSet (i s : Bool)
  | displayControl (d c b : Bool)
  | cursorDisplayShift (p r : Bool) (x : BitVec 2)
  | functionSet (l n f : Bool) (x : BitVec 2)
  | setCgramAddr (a : BitVec 6)
  | setDdramAddr (a : DdAddr)
  | readBusyAddr (x : Byte)
  | writeData (d : Byte)
  | readData (x : Byte)
  -- F-NIB: the driver's timed primitives (42_lcd_primitives)
  | writeNibble (rs : Bool) (n : Nibble)
  | sendByte (rs : Bool) (b : Byte)
  | sendCommand (b : Byte)
  | sendData (b : Byte)
  | initNibble8bit
  -- F-OP: the LCD driver's operations (43_lcd_operations)
  | lcdInit
  | lcdPowerOn
  | lcdPowerOff
  | lcdDisplayGreeting
  | lcdWriteString (text : List Char)
  | lcdWriteU32 (v : BitVec 32)
  | lcdWriteU8 (v : Byte)
  | lcdBackspace (count : Nat)
  | lcdClearDisplay
  | lcdShiftCursor (dir : Direction) (count : Nat)
  | lcdNewline
  | lcdWriteChar (c : Char)
  -- F-OP: the keypad scanner (44_keypad)
  | keypadInit
  | keypadDriveColumn (c : Column)
  | keypadReadRows
  | keypadRawScan
  | keypadScan
  | keypadScanSet
  -- F-OP: the Timer interface (R19)
  | delay (unit : TimeUnit) (d : Nat)
  deriving DecidableEq, Repr

/-- The table's row of a controller instruction. -/
def Cmd.toInstr : Cmd → Instr
  | .nopInvalid => .nopInvalid
  | .clearDisplay => .clearDisplay
  | .returnHome x => .returnHome x
  | .entryModeSet i s => .entryModeSet i s
  | .displayControl d c b => .displayControl d c b
  | .cursorDisplayShift p r x => .cursorDisplayShift p r x
  | .functionSet l n f x => .functionSet l n f x
  | .setCgramAddr a => .setCgramAddr a
  | .setDdramAddr a => .setDdramAddr a
  | .readBusyAddr x => .readBusyAddr x
  | .writeData d => .writeData d
  | .readData x => .readData x

/-! ## The forms in which an instruction reaches the machine (R300, R316) -/

/-- The names of the calls of R314 and R315 that have no bit encoding of their own. -/
inductive CallName where
  | read | write | setBits | clearBits | configureDirection
  | writeNibble | sendByte | sendCommand | sendData
  | lcdInit | lcdPowerOn | lcdPowerOff | lcdDisplayGreeting | lcdWriteString | lcdWriteU32 | lcdWriteU8
  | lcdBackspace | lcdClearDisplay | lcdShiftCursor | lcdNewline | lcdWriteChar
  | keypadInit | keypadDriveColumn | keypadReadRows | keypadRawScan | keypadScan | keypadScanSet
  | delayUs | delayMs
  deriving DecidableEq, Repr

/-- A typed argument of a call (R314: "calls with typed arguments, with no bit encoding", R300). -/
inductive Arg where
  | bit (b : Bool)
  | u4 (v : Nibble)
  | u7 (v : BusAddr)
  | u8 (v : Byte)
  | u32 (v : BitVec 32)
  | nat (v : Nat)
  | char (c : Char)
  | text (t : List Char)
  | dir (d : Direction)
  | col (c : Column)
  deriving DecidableEq, Repr

/-- What is delivered to the machine, in one of the formats of R300 and R316: a 10-bit controller word (F-CMD), a
5-bit nibble transfer (F-NIB), a transport frame (F-BUS), or a call (F-OP and the operations above the frames). -/
inductive Request where
  | cmd (word : Nat)
  | nib (word : Nat)
  | frameW (a : BusAddr) (bytes : List Byte)
  | frameWR (a : BusAddr) (bytes : List Byte) (nRead : Nat)
  | call (name : CallName) (args : List Arg)
  deriving DecidableEq, Repr

end Sys2Proof
end

