-- ==== Sys2Proof/Config.lean ====
section
/-! DEFINITION. What is fixed for one machine: the implementation parameters of 00_scope R12 with the constraint R13,
the constants of R12 and R1020, the inputs the environment gives, and the free values the spec leaves open. -/

namespace Sys2Proof

/-! ## Parameters (R12) -/

/-- How a column is driven: `COLUMN_DRIVE` (R803, D25). -/
inductive ColumnDrive where
  | exclusive | latched
  deriving DecidableEq, Repr, Inhabited

/-- What a fatal condition does to the platform: `PANIC` (R901, D33). -/
inductive Panic where
  | halt | reset
  deriving DecidableEq, Repr, Inhabited

/-- The OPEN parameters of R12. A mask with exactly one bit set (R13) is held as the position of that bit. -/
structure Params where
  lcdAddr : BusAddr
  kpAddr : BusAddr
  regGpio : Byte
  regDir : Byte
  expResetDir : Byte
  expResetOut : Byte
  pinRS : Pin
  pinEN : Pin
  pinD4 : Pin
  pinD5 : Pin
  pinD6 : Pin
  pinD7 : Pin
  pinC1 : Pin
  pinC2 : Pin
  pinC3 : Pin
  pinR1 : Pin
  pinR2 : Pin
  pinR3 : Pin
  pinR4 : Pin
  cursorOn : Bool
  blinkOn : Bool
  columnDrive : ColumnDrive
  greeting : List Char
  panic : Panic
  deriving DecidableEq, Repr, Inhabited

/-- The six LCD pins, in the order of R302. -/
def Params.lcdPins (p : Params) : List Pin := [p.pinRS, p.pinEN, p.pinD4, p.pinD5, p.pinD6, p.pinD7]

/-- The seven keypad pins, in the order of R303. -/
def Params.kpPins (p : Params) : List Pin := [p.pinC1, p.pinC2, p.pinC3, p.pinR1, p.pinR2, p.pinR3, p.pinR4]

/-- The constraints R12 and R13 put on addresses, registers and pins: distinct addresses, distinct register indices, and
pairwise disjoint masks on each chip. `Params.wf` adds the one on GREETING. -/
abbrev Params.distinct (p : Params) : Prop :=
  p.lcdAddr ≠ p.kpAddr ∧ p.regGpio ≠ p.regDir ∧ p.lcdPins.Nodup ∧ p.kpPins.Nodup

/-- The reference values of R12's "ref" column and its spec defaults. DESIGN CHOICE (log entry 5): "A ref value is not
a claim about the device". GREETING has no reference value in R12; "HELLO" is vector V102's. -/
def Params.ref : Params where
  lcdAddr := 0x20
  kpAddr := 0x21
  regGpio := 0x09
  regDir := 0x00
  expResetDir := 0xFF
  expResetOut := 0x00
  pinRS := 0
  pinEN := 2
  pinD4 := 4
  pinD5 := 5
  pinD6 := 6
  pinD7 := 7
  pinC1 := 0
  pinC2 := 1
  pinC3 := 2
  pinR1 := 4
  pinR2 := 5
  pinR3 := 6
  pinR4 := 7
  cursorOn := true
  blinkOn := false
  columnDrive := .exclusive
  greeting := ['H', 'E', 'L', 'L', 'O']
  panic := .halt

namespace Config

/-! ## Constants (R12, R1020); times in microseconds -/

/-- Display columns (R3, R12). -/
def COLS : Nat := 16
/-- Display lines (R3, R12). -/
def LINES : Nat := 2
/-- Newlines allowed in one `write_string` (R12, R720). -/
def MAX_NEWLINES : Nat := 1
/-- Power-rise settle, in milliseconds (R12: 10 ms). -/
def T_POWER_MS : Nat := 10
/-- The same settle in microseconds: the controller's ready time (R119, D40). -/
def T_POWER : Nat := 1000 * T_POWER_MS
/-- Setup before Enable rises (R12). -/
def T_AS : Nat := 40
/-- Enable high width (R12). -/
def T_PW : Nat := 230
/-- Full Enable cycle (R12). -/
def T_CYC : Nat := 500
/-- Recovery after Enable falls: "cycle time − pulse width" (R601). -/
def T_REC : Nat := T_CYC - T_PW
/-- Delay between debounce re-scans (R12, R808). -/
def T_DEBOUNCE : Nat := 250
/-- Extra wait after a clear-display command (R12, D16). -/
def T_CLEAR_WAIT : Nat := 2000
/-- Controller execution time of a non-clear command or data write (R12, R520). -/
def T_EXEC : Nat := 37
/-- Controller execution time of clear display and return home (R12, R520). -/
def T_EXEC_CLEAR : Nat := 1520

/-- A FREE VALUE (no body: nothing can be proved about it). `free e i` is the value number `i` of draw number `e`.
It stands for what R123, R509, R1000 and D15 leave unconstrained: the power-on values the spec calls "unspecified"
(draw 0), the controller's fields after LCD_UNDEFINED, an address counter stepped from outside the map, and the code of
a DDRAM cell nothing has written. DESIGN CHOICE (log entries 2, 3, 4, 15). -/
opaque free : Nat → Nat → Nat

end Config

/-! ## Inputs of the environment (R19: "a free input of the step: the model continues under every choice") -/

/-- One call of a second bus user (R231, R913): it reads a chip, or writes one byte to a register of a chip. -/
inductive ForeignCall where
  | read (a : BusAddr) (reg : Byte)
  | write (a : BusAddr) (reg v : Byte)
  deriving DecidableEq, Repr, Inhabited

/-- What the environment supplies to ONE primitive (a transport call or a delay): the draws of R103, R151, R402,
R504, R508, R805, the contacts of R140, the heartbeat of R921 and a second bus user's call (R913). -/
structure Draw where
  /-- the outcome of the transport call: ok, or a BusError (R402) -/
  ok : Bool
  /-- whether a failed write left the new value in the register (R402) -/
  took : Bool
  /-- time spent beyond the minimum, in microseconds (R151) -/
  elapsed : Nat
  /-- the heartbeat fires within the primitive and takes this long; `none`: it does not fire (R921) -/
  beat : Option Nat
  /-- EXT (R103), the levels of floating LCD lines (R508), the levels of rows in contention (R805 (a)), and what an
  undefined read buffer holds (R401) -/
  ext : Byte
  /-- DB3..DB0 of an 8-bit transfer (R504) -/
  lo : Nibble
  /-- the keys whose contact is closed at the completion instant: pressed(k, t) (R140) -/
  held : List Key
  /-- a call of a second bus user that falls just before the primitive (R913) -/
  foreign : Option ForeignCall
  deriving DecidableEq, Repr, Inhabited

/-- The environment's inputs: the draws to come, next first, and the draw that holds for ever after them.
DESIGN CHOICE (log entry 1). -/
structure Inputs where
  upcoming : List Draw
  thereafter : Draw
  deriving DecidableEq, Repr, Inhabited

/-- The draw of the `k`-th primitive from now. -/
def Inputs.at (i : Inputs) (k : Nat) : Draw := i.upcoming.getD k i.thereafter

/-- The inputs after one primitive has taken its draw. -/
def Inputs.rest (i : Inputs) : Inputs := { i with upcoming := i.upcoming.tail }

/-- A FREE VALUE: the inputs of the run that starts at reset (R19, D31). No body: nothing can be proved about it.
DESIGN CHOICE (log entry 1). -/
opaque Config.resetInputs : Inputs

end Sys2Proof
end

