-- ==== Sys2Proof/WellFormed.lean ====
section
/-! DEFINITION. The operand ranges the spec sets that the operands' types do not already enforce. -/

namespace Sys2Proof

/-- `code(c)`: the code of a character (R309). -/
def charCode (c : Char) : Nat := c.toNat

/-- The admitted characters of a `write_string` text are those of 7-bit code (R309, R725). -/
def isSevenBit (c : Char) : Bool := decide (charCode c < 0x80)

/-- The line separator: code 0x0A (R309). -/
def newlineChar : Char := Char.ofNat 0x0A

/-- An instruction is well-formed when its operands lie in the ranges of its rule:
`send_data` takes "a character code of 0x00..0x7F" (R605), and `write_char` a character "with code(c) in 0x00..0x7F,
c != newline" (R713). Every other operand's range is its type. A text of `write_string` is not restricted here: R722
says what each bad text does. -/
def Instr.wellFormed : Instr → Bool
  | .sendData b => decide (b.toNat < 0x80)
  | .lcdWriteChar c => isSevenBit c && !decide (c = newlineChar)
  | _ => true

end Sys2Proof
end

