-- ==== Sys2Proof/Decode.lean ====
section
/-! DEFINITION. The decoder of what is delivered to the machine, total and rejecting by name, and the encoder. -/

namespace Sys2Proof

/-- Why a request is not an instruction. -/
inductive DecodeError where
  /-- a controller word with a bit above RS (R307: 10 bits) -/
  | wideCommandWord
  /-- a nibble transfer with a bit above RS (R304: 5 bits) -/
  | wideNibbleWord
  /-- a transport frame that is none of R301's ("There is no other frame") -/
  | noSuchFrame
  /-- a call whose arguments do not have the types of R314 -/
  | badArguments (name : CallName)
  /-- an operand outside the range of its rule (R605, R713) -/
  | operandOutOfRange
  deriving DecidableEq, Repr

/-! ## F-CMD: the controller's words (R307) -/

/-- The instruction a 10-bit word `RS RW DB7..DB0` selects: RW = 1 reads, RS = 1 writes data, and otherwise the
position of the highest 1 bit among DB7..DB0 selects it (R307). -/
def decodeCmd (w : BitVec 10) : Cmd :=
  if w.getLsbD 8 then
    if w.getLsbD 9 then .readData (w.extractLsb' 0 8) else .readBusyAddr (w.extractLsb' 0 8)
  else if w.getLsbD 9 then .writeData (w.extractLsb' 0 8)
  else if w.getLsbD 7 then .setDdramAddr (w.extractLsb' 0 7)
  else if w.getLsbD 6 then .setCgramAddr (w.extractLsb' 0 6)
  else if w.getLsbD 5 then .functionSet (w.getLsbD 4) (w.getLsbD 3) (w.getLsbD 2) (w.extractLsb' 0 2)
  else if w.getLsbD 4 then .cursorDisplayShift (w.getLsbD 3) (w.getLsbD 2) (w.extractLsb' 0 2)
  else if w.getLsbD 3 then .displayControl (w.getLsbD 2) (w.getLsbD 1) (w.getLsbD 0)
  else if w.getLsbD 2 then .entryModeSet (w.getLsbD 1) (w.getLsbD 0)
  else if w.getLsbD 1 then .returnHome (w.getLsbD 0)
  else if w.getLsbD 0 then .clearDisplay
  else .nopInvalid

/-- The word `RS RW DB7..DB0` of a controller instruction (R307), field by field. -/
def encodeCmd : Cmd → BitVec 10
  | .nopInvalid => 0b0000000000#10
  | .clearDisplay => 0b0000000001#10
  | .returnHome x => 0b000000001#9 ++ BitVec.ofBool x
  | .entryModeSet i s => 0b00000001#8 ++ BitVec.ofBool i ++ BitVec.ofBool s
  | .displayControl d c b => 0b0000001#7 ++ BitVec.ofBool d ++ BitVec.ofBool c ++ BitVec.ofBool b
  | .cursorDisplayShift p r x => 0b000001#6 ++ BitVec.ofBool p ++ BitVec.ofBool r ++ x
  | .functionSet l n f x => 0b00001#5 ++ BitVec.ofBool l ++ BitVec.ofBool n ++ BitVec.ofBool f ++ x
  | .setCgramAddr a => 0b0001#4 ++ a
  | .setDdramAddr a => 0b001#3 ++ a
  | .readBusyAddr x => 0b01#2 ++ x
  | .writeData d => 0b10#2 ++ d
  | .readData x => 0b11#2 ++ x

/-- The command and data word the driver's byte makes: RS, RW = 0, DB7..DB0 (R531, R604, R605). -/
def busWord (rs : Bool) (b : Byte) : BitVec 10 := BitVec.ofBool rs ++ 0#1 ++ b

/-! ## F-NIB: nibble transfers (R304, and the table's masks) -/

/-- A 5-bit transfer: bit 4 is RS and bits 3..0 the nibble. The word 0x02 is the row `init_nibble_8bit`, whose mask
covers all 5 bits; every other word is `write_nibble`. DESIGN CHOICE (log entry 8). -/
def decodeNib (w : BitVec 5) : Instr :=
  if w = 0x02#5 then .initNibble8bit else .writeNibble (w.getLsbD 4) (w.extractLsb' 0 4)

/-- The 5-bit word of a transfer (R304). -/
def nibWord (rs : Bool) (n : Nibble) : BitVec 5 := BitVec.ofBool rs ++ n

/-! ## Calls (R314) -/

/-- The instruction a call with these arguments is, if they have the types of R314. -/
def decodeCall : CallName → List Arg → Option Instr
  | .read, [.u7 a] => some (.read a)
  | .write, [.u7 a, .u8 v] => some (.write a v)
  | .setBits, [.u7 a, .u8 m] => some (.setBits a m)
  | .clearBits, [.u7 a, .u8 m] => some (.clearBits a m)
  | .configureDirection, [.u7 a, .u8 m] => some (.configureDirection a m)
  | .writeNibble, [.bit rs, .u4 n] => some (.writeNibble rs n)
  | .sendByte, [.bit rs, .u8 b] => some (.sendByte rs b)
  | .sendCommand, [.u8 b] => some (.sendCommand b)
  | .sendData, [.u8 b] => some (.sendData b)
  | .lcdInit, [] => some .lcdInit
  | .lcdPowerOn, [] => some .lcdPowerOn
  | .lcdPowerOff, [] => some .lcdPowerOff
  | .lcdDisplayGreeting, [] => some .lcdDisplayGreeting
  | .lcdWriteString, [.text t] => some (.lcdWriteString t)
  | .lcdWriteU32, [.u32 v] => some (.lcdWriteU32 v)
  | .lcdWriteU8, [.u8 v] => some (.lcdWriteU8 v)
  | .lcdBackspace, [.nat k] => some (.lcdBackspace k)
  | .lcdClearDisplay, [] => some .lcdClearDisplay
  | .lcdShiftCursor, [.dir d, .nat k] => some (.lcdShiftCursor d k)
  | .lcdNewline, [] => some .lcdNewline
  | .lcdWriteChar, [.char c] => some (.lcdWriteChar c)
  | .keypadInit, [] => some .keypadInit
  | .keypadDriveColumn, [.col c] => some (.keypadDriveColumn c)
  | .keypadReadRows, [] => some .keypadReadRows
  | .keypadRawScan, [] => some .keypadRawScan
  | .keypadScan, [] => some .keypadScan
  | .keypadScanSet, [] => some .keypadScanSet
  | .delayUs, [.nat d] => some (.delay .us d)
  | .delayMs, [.nat d] => some (.delay .ms d)
  | _, _ => none

/-! ## The decoder and the encoder -/

/-- The form of a request, before the operand ranges are checked. -/
def decodeForm : Request → Except DecodeError Instr
  | .cmd w => if w < 1024 then .ok (decodeCmd (BitVec.ofNat 10 w)).toInstr else .error .wideCommandWord
  | .nib w => if w < 32 then .ok (decodeNib (BitVec.ofNat 5 w)) else .error .wideNibbleWord
  | .frameW a [reg, v] => .ok (.busWrite a reg v)
  | .frameW _ _ => .error .noSuchFrame
  | .frameWR a [reg] 1 => .ok (.busWriteRead a reg)
  | .frameWR _ _ _ => .error .noSuchFrame
  | .call name args =>
    match decodeCall name args with
    | some i => .ok i
    | none => .error (.badArguments name)

/-- The instruction a request is, or the reason it is none. -/
def decode (r : Request) : Except DecodeError Instr :=
  match decodeForm r with
  | .error e => .error e
  | .ok i => if i.wellFormed then .ok i else .error .operandOutOfRange

/-- The form an instruction is delivered in: the word of R307 for F-CMD, the 5-bit transfer of R304 for
`write_nibble` and `init_nibble_8bit`, the frame of R301 for the transport calls, and the call of R314 for the rest.
`write_nibble(0, 2)` takes the call form, since its 5-bit word is the row `init_nibble_8bit` (log entry 8). -/
def encode : Instr → Request
  | .busWrite a reg v => .frameW a [reg, v]
  | .busWriteRead a reg => .frameWR a [reg] 1
  | .read a => .call .read [.u7 a]
  | .write a v => .call .write [.u7 a, .u8 v]
  | .setBits a m => .call .setBits [.u7 a, .u8 m]
  | .clearBits a m => .call .clearBits [.u7 a, .u8 m]
  | .configureDirection a m => .call .configureDirection [.u7 a, .u8 m]
  | .nopInvalid => .cmd (encodeCmd .nopInvalid).toNat
  | .clearDisplay => .cmd (encodeCmd .clearDisplay).toNat
  | .returnHome x => .cmd (encodeCmd (.returnHome x)).toNat
  | .entryModeSet i s => .cmd (encodeCmd (.entryModeSet i s)).toNat
  | .displayControl d c b => .cmd (encodeCmd (.displayControl d c b)).toNat
  | .cursorDisplayShift p r x => .cmd (encodeCmd (.cursorDisplayShift p r x)).toNat
  | .functionSet l n f x => .cmd (encodeCmd (.functionSet l n f x)).toNat
  | .setCgramAddr a => .cmd (encodeCmd (.setCgramAddr a)).toNat
  | .setDdramAddr a => .cmd (encodeCmd (.setDdramAddr a)).toNat
  | .readBusyAddr x => .cmd (encodeCmd (.readBusyAddr x)).toNat
  | .writeData d => .cmd (encodeCmd (.writeData d)).toNat
  | .readData x => .cmd (encodeCmd (.readData x)).toNat
  | .writeNibble rs n =>
    if nibWord rs n = 0x02#5 then .call .writeNibble [.bit rs, .u4 n] else .nib (nibWord rs n).toNat
  | .sendByte rs b => .call .sendByte [.bit rs, .u8 b]
  | .sendCommand b => .call .sendCommand [.u8 b]
  | .sendData b => .call .sendData [.u8 b]
  | .initNibble8bit => .nib 0x02
  | .lcdInit => .call .lcdInit []
  | .lcdPowerOn => .call .lcdPowerOn []
  | .lcdPowerOff => .call .lcdPowerOff []
  | .lcdDisplayGreeting => .call .lcdDisplayGreeting []
  | .lcdWriteString t => .call .lcdWriteString [.text t]
  | .lcdWriteU32 v => .call .lcdWriteU32 [.u32 v]
  | .lcdWriteU8 v => .call .lcdWriteU8 [.u8 v]
  | .lcdBackspace k => .call .lcdBackspace [.nat k]
  | .lcdClearDisplay => .call .lcdClearDisplay []
  | .lcdShiftCursor d k => .call .lcdShiftCursor [.dir d, .nat k]
  | .lcdNewline => .call .lcdNewline []
  | .lcdWriteChar c => .call .lcdWriteChar [.char c]
  | .keypadInit => .call .keypadInit []
  | .keypadDriveColumn c => .call .keypadDriveColumn [.col c]
  | .keypadReadRows => .call .keypadReadRows []
  | .keypadRawScan => .call .keypadRawScan []
  | .keypadScan => .call .keypadScan []
  | .keypadScanSet => .call .keypadScanSet []
  | .delay .us d => .call .delayUs [.nat d]
  | .delay .ms d => .call .delayMs [.nat d]

/-! ## The opcode table's words -/

/-- The request a word of spec/opcode_table.json is: the table gives bits to the 5-bit F-NIB rows (one byte) and to the
10-bit F-CMD rows (two bytes). DEDUCED (log entry 6). -/
def tableRequest (nbits w : Nat) : Request := if nbits ≤ 8 then .nib w else .cmd w

/-- The instruction the decoder reads from a word of the table. -/
def decodeTableWord (nbits w : Nat) : Option Instr :=
  match decode (tableRequest nbits w) with
  | .ok i => some i
  | .error _ => none

end Sys2Proof
end

