-- ==== Sys2Proof/Machine/State.lean ====
section
/-! DEFINITION. The state of the block (10_state.md), the reasons a step stops, and the state after reset. -/

namespace Sys2Proof.Machine

open Sys2Proof

/-! ## The expander chips (R102) -/

/-- One of the two expander chips (R5, R100 (3)). -/
inductive ChipId where
  | lcd | kp
  deriving DecidableEq, Repr, Inhabited

/-- The two registers of a chip (R102), by what they hold. -/
inductive ChipReg where
  | gpio | dir
  deriving DecidableEq, Repr, Inhabited

/-- An expander chip: the output latch OUT[a] and the direction register DIR[a], 1 = input (R102, D4). -/
structure Chip where
  out : Byte
  dir : Byte
  deriving DecidableEq, Repr, Inhabited

/-! ## The HD44780 controller (R110 to R123) -/

/-- `lcd.DL`, the interface data length: 8 or 4 (R111). -/
inductive DataLength where
  | eight | four
  deriving DecidableEq, Repr, Inhabited

/-- `lcd.phase`: whether the next Enable fall latches the high or the low nibble of a byte (R112). -/
inductive NibblePhase where
  | hi | lo
  deriving DecidableEq, Repr, Inhabited

/-- A memory as cells in ascending order of address, no address twice (its canonical form: `Memory.wf`). An address
that is not listed holds no value of its own: nothing has written it yet (R117; log entry 3). -/
abbrev Memory := List Host.Cell

/-- The controller's record `lcd` (R111 to R120). -/
structure Lcd where
  dl : DataLength
  phase : NibblePhase
  pendHi : Nibble
  pendRs : Bool
  n : Bool
  f : Bool
  d : Bool
  c : Bool
  b : Bool
  id : Bool
  s : Bool
  ac : DdAddr
  ddram : Memory
  shift : Fin 40
  busyUntil : Nat
  en : Bool
  rs : Bool
  db : Nibble
  tRise : Option Nat
  tLines : Nat
  deriving DecidableEq, Repr

/-- The controller with the sticky mark LCD_UNDEFINED (R123), the counter of its free draws (log entry 4), the draw
that the cells nothing has written show (log entry 3), and whether init has brought it to Ready, which decides the words
R530 leaves to init (log entry 16). -/
structure Controller where
  lcd : Lcd
  undefined : Bool
  epoch : Nat
  cells : Nat
  afterInit : Bool
  deriving DecidableEq, Repr

/-! ## Driver and scanner phases (R130, R131) -/

/-- `lcd_phase` (R130). -/
inductive LcdPhase where
  | unpowered | pinsConfigured | functionSetPhase1 | functionSetPhase2 | displayOnCursorConfigured | entryModeSet | ready
  deriving DecidableEq, Repr, Inhabited

/-- `kp_phase` (R131). -/
inductive KpPhase where
  | uninit | ready
  deriving DecidableEq, Repr, Inhabited

/-! ## Trace, faults, refusals, bus owner (R150 to R153) -/

/-- A Bus Transport call with its bytes: `W(a, bytes)` or `WR(a, wbytes, rbytes)` (R150). -/
inductive BusCall where
  | w (a : BusAddr) (bytes : List Byte)
  | wr (a : BusAddr) (wbytes rbytes : List Byte)
  deriving DecidableEq, Repr

/-- An entry of TRACE: the call, whether it failed (marked `err`), and its completion time (R150). -/
structure TraceEntry where
  call : BusCall
  err : Bool
  time : Nat
  deriving DecidableEq, Repr

/-- The public operations of R932: the logical operations that hold the bus (R931). -/
inductive PublicOp where
  | lcdInit | lcdPowerOn | lcdPowerOff | lcdDisplayGreeting | lcdWriteString | lcdWriteU32 | lcdWriteU8
  | lcdBackspace | lcdClearDisplay | lcdShiftCursor | keypadInit | keypadScan | keypadScanSet
  deriving DecidableEq, Repr

/-- The fault codes of R900. -/
inductive FaultCode where
  | bus | cvNewlines | cvLineLen | race
  deriving DecidableEq, Repr

/-- The number R900 gives a fault code. -/
def FaultCode.number : FaultCode → Nat
  | .bus => 1
  | .cvNewlines => 2
  | .cvLineLen => 3
  | .race => 4

/-- The register operation a bus fault's info record names (R404, R405, R408). -/
inductive RegOp where
  | read (a : BusAddr)
  | write (a : BusAddr) (v : Byte)
  | configureDirection (a : BusAddr)
  deriving DecidableEq, Repr

/-- The info record of a fault (R900, R722, R913); not observable on the device. -/
inductive FaultInfo where
  | bus (op : RegOp)
  | text (t : List Char)
  | race (owner : Option PublicOp) (intruder : ForeignCall)
  deriving DecidableEq, Repr

/-- The refusal reasons of R911. -/
inductive RefusalReason where
  | notReady | alreadyInitialised | nonAscii | directionOutsideInit | foreignTarget
  deriving DecidableEq, Repr

/-- The value an operation returns (R11, R400, R401, R404, R804, R806 to R808). -/
inductive RetVal where
  | unit
  | transport (ok : Bool)
  | transportRead (value : Option Byte)
  | byte (v : Byte)
  | rows (rs : List Row)
  | keys (ks : List Key)
  | optKey (k : Option Key)
  | optKeySet (ks : Option (List Key))
  deriving DecidableEq, Repr

/-! ## The reasons a step stops -/

/-- Why the machine stops with a fault. The faults of R900 are not among them: raising one is a next state, with FATAL
set (`State.raiseFatal`). -/
inductive Fault where
  /-- raised by `step` when FATAL is set, PANIC = halt and no heartbeat fires: "the run ends. The state is frozen as it
  stands" (R901). Safe: nothing goes on. -/
  | halted (code : FaultCode)
  deriving DecidableEq, Repr

/-- Why a step is refused. -/
inductive Refusal where
  /-- raised by `exec`'s arm of an instruction that has no meaning yet; no arm is left. Safe: the step stops. -/
  | notModelled (mnemonic : String)
  /-- raised by `step` when what was delivered is no instruction; safe: the step stops (R301, R307, R312) -/
  | undecodable (e : DecodeError)
  /-- raised by `step` after a refusal of R911: "the spec gives the run no meaning from that point on" (R910). Safe:
  the step stops. -/
  | runRefused (reason : Option RefusalReason)
  deriving DecidableEq, Repr

/-! ## The state -/

/-- Everything the spec gives the block, and the model's own fields (INVENTORY.md, State). -/
structure State where
  /-- the implementation parameters (R12); no step changes them -/
  params : Params
  /-- the LCD expander chip (R102) -/
  lcdChip : Chip
  /-- the keypad expander chip (R102) -/
  kpChip : Chip
  /-- the HD44780 controller (R110, R123) -/
  ctl : Controller
  /-- `lcd_phase` (R130) -/
  lcdPhase : LcdPhase
  /-- `kp_phase` (R131) -/
  kpPhase : KpPhase
  /-- TRACE, oldest first (R150) -/
  trace : List TraceEntry
  /-- `now`, in microseconds since power rise (R151) -/
  now : Nat
  /-- FATAL (R152) -/
  fatal : Option FaultCode
  /-- the info record of the fault (R900) -/
  fatalInfo : Option FaultInfo
  /-- REFUSED (R152) -/
  refused : Bool
  /-- the reason of the refusal (R911) -/
  refusedReason : Option RefusalReason
  /-- BUS_OWNER (R153) -/
  busOwner : Option PublicOp
  /-- the key a debounced scan will return, while its loop runs (R808; log entry 21) -/
  scanning : Option Key
  /-- the value the last operation returned, none while or after an operation that did not return (R11; log entry 10) -/
  ret : Option RetVal
  /-- the Workflow layer's calls to come, next first (log entry 6) -/
  calls : List Request
  /-- the environment's inputs to come (R19, R140; log entry 1) -/
  inputs : Inputs
  deriving DecidableEq, Repr

/-- Main takes no further step: FATAL is set (R901) or the run was refused (R910). -/
def State.stopped (s : State) : Bool := s.fatal.isSome || s.refused

/-! ## Reset (R1000) -/

/-- The controller's record made of the free values of draw `e`, with no cell written: what R123 leaves of it. -/
def freeLcd (e : Nat) : Lcd where
  dl := if (Config.free e 0).testBit 0 then .eight else .four
  phase := if (Config.free e 5).testBit 0 then .hi else .lo
  pendHi := BitVec.ofNat 4 (Config.free e 1)
  pendRs := (Config.free e 2).testBit 0
  n := (Config.free e 3).testBit 0
  f := (Config.free e 4).testBit 0
  d := (Config.free e 8).testBit 0
  c := (Config.free e 6).testBit 0
  b := (Config.free e 7).testBit 0
  id := (Config.free e 9).testBit 0
  s := (Config.free e 12).testBit 0
  ac := BitVec.ofNat 7 (Config.free e 10)
  ddram := []
  shift := Fin.ofNat 40 (Config.free e 11)
  busyUntil := Config.free e 13
  en := (Config.free e 14).testBit 0
  rs := (Config.free e 15).testBit 0
  db := BitVec.ofNat 4 (Config.free e 16)
  tRise := if (Config.free e 17).testBit 0 then some (Config.free e 18) else none
  tLines := Config.free e 19

/-- The controller at power-on (R111 to R120, R1000). The fields R1000 calls "unspecified" are the free values of
draw 0. DESIGN CHOICE (log entry 2). -/
def powerOnLcd : Lcd :=
  { freeLcd 0 with
    dl := .eight, phase := .hi, d := false, id := true, s := false, busyUntil := Config.T_POWER
    en := false, rs := false, db := 0, tRise := none, tLines := 0 }

/-- The power-on state (R1000) for parameters `p` and inputs `i`. -/
def State.resetWith (p : Params) (i : Inputs) : State where
  params := p
  lcdChip := { out := p.expResetOut, dir := p.expResetDir }
  kpChip := { out := p.expResetOut, dir := p.expResetDir }
  ctl := { lcd := powerOnLcd, undefined := false, epoch := 1, cells := 0, afterInit := false }
  lcdPhase := .unpowered
  kpPhase := .uninit
  trace := []
  now := 0
  fatal := none
  fatalInfo := none
  refused := false
  refusedReason := none
  busOwner := none
  scanning := none
  ret := none
  calls := []
  inputs := i

/-- The machine right after reset (R1000), with the reference parameters (log entry 5) and free inputs (log entry 1). -/
def State.reset : State := State.resetWith Params.ref Config.resetInputs

end Sys2Proof.Machine
end

