-- ==== Sys2Proof/Machine/Operands.lean ====
section
/-! DEFINITION. Operand forms: pin masks (R13, R302, R303), nibbles and bytes (R203, R204, R305), command bytes (R308),
the key map (R801), characters and digits (R309, R742). -/

namespace Sys2Proof.Machine

open Sys2Proof

/-! ## Masks (R13) -/

/-- The mask with the one bit of a pin (R13, R205). -/
def pinMask (i : Pin) : Byte := 1#8 <<< i.val

/-- A mask where `b` is 1, none where it is 0 (the `b ? m : 0` of R304 and R305). -/
def maskIf (b : Bool) (i : Pin) : Byte := if b then pinMask i else 0

/-- `M_DATA` (R13). -/
def dataMaskAll (p : Params) : Byte := pinMask p.pinD4 ||| pinMask p.pinD5 ||| pinMask p.pinD6 ||| pinMask p.pinD7

/-- `M_LCD_ALL` (R13). -/
def lcdAllMask (p : Params) : Byte := pinMask p.pinRS ||| pinMask p.pinEN ||| dataMaskAll p

/-- `datamask(n)` (R305): bit i of the nibble on data line D(4+i) (R204). -/
def dataMask (p : Params) (n : Nibble) : Byte :=
  maskIf (n.getLsbD 0) p.pinD4 ||| maskIf (n.getLsbD 1) p.pinD5 ||| maskIf (n.getLsbD 2) p.pinD6
    ||| maskIf (n.getLsbD 3) p.pinD7

/-- What a nibble transfer asserts: `(rs ? M_RS : 0) | datamask(n)` (R304, R600 step (2)). -/
def assertMask (p : Params) (rs : Bool) (n : Nibble) : Byte := maskIf rs p.pinRS ||| dataMask p n

/-- The pin of a keypad column (R303). -/
def columnPin (p : Params) : Column → Pin
  | .c1 => p.pinC1
  | .c2 => p.pinC2
  | .c3 => p.pinC3

/-- The pin of a keypad row (R303). -/
def rowPin (p : Params) : Row → Pin
  | .r1 => p.pinR1
  | .r2 => p.pinR2
  | .r3 => p.pinR3
  | .r4 => p.pinR4

/-- `M_COLS` (R13). -/
def colsMask (p : Params) : Byte := pinMask p.pinC1 ||| pinMask p.pinC2 ||| pinMask p.pinC3

/-- `M_ROWS` (R13). -/
def rowsMask (p : Params) : Byte := pinMask p.pinR1 ||| pinMask p.pinR2 ||| pinMask p.pinR3 ||| pinMask p.pinR4

/-! ## Bytes and nibbles -/

/-- The high nibble of a byte: `(b >> 4) & 0xF` (R203). -/
def hiNibble (b : Byte) : Nibble := b.extractLsb' 4 4

/-- The low nibble of a byte: `b & 0xF` (R203). -/
def loNibble (b : Byte) : Nibble := b.extractLsb' 0 4

/-- The byte of a nibble pair: `(hi << 4) | lo` (R504, R506). -/
def nibblePair (hi lo : Nibble) : Byte := hi ++ lo

/-! ## Command bytes (R308) -/

/-- Function set with L = 0, N = 1, F = 0. -/
def functionSetByte : Byte := 0x28
/-- Display control with the given D and the parameters' cursor bits: `0x08 | D<<2 | CURSOR_ON<<1 | BLINK_ON`. -/
def displayByte (p : Params) (d : Bool) : Byte :=
  0x08#8 ||| (if d then 0x04 else 0) ||| (if p.cursorOn then 0x02 else 0) ||| (if p.blinkOn then 0x01 else 0)
/-- Entry mode with I = 1, S = 0. -/
def entryModeByte : Byte := 0x06
/-- Clear display. -/
def clearByte : Byte := 0x01
/-- Set DDRAM address 0x40: `0x80 | 0x40`. -/
def newlineByte : Byte := 0xC0
/-- Cursor shift: Left 0x10, Right 0x14 (R711). -/
def shiftByte : Direction → Byte
  | .left => 0x10
  | .right => 0x14
/-- The blank `backspace` writes (R730). -/
def blankByte : Byte := 0x20

/-! ## Characters and digits -/

/-- The byte sent for a character: its 7-bit code (R309). -/
def charByte (c : Char) : Byte := BitVec.ofNat 8 (charCode c)

/-- The character of a decimal digit: code `0x30 + d` (R742). -/
def digitChar (d : Nat) : Char := Char.ofNat (0x30 + d)

/-- The `k` low decimal digits of `v`, most significant first: digit i is `(v div 10^(k-1-i)) mod 10` (R740, R741). -/
def decimalDigits (v : Nat) : Nat → List Nat
  | 0 => []
  | k + 1 => (v / 10 ^ k) % 10 :: decimalDigits v k

/-- The segments of a text between newlines: `split(text, newline)` (R721, R722). -/
def segments : List Char → List (List Char)
  | [] => [[]]
  | c :: t =>
    if c = newlineChar then [] :: segments t
    else match segments t with
      | [] => [[c]]
      | g :: gs => (c :: g) :: gs

/-- A text `write_string` accepts: 7-bit codes, at most one newline, no line longer than 16 (R720, R721, R722, R725). -/
abbrev ValidText (text : List Char) : Prop :=
  text.all isSevenBit = true ∧ text.count newlineChar ≤ Config.MAX_NEWLINES ∧
    ∀ g ∈ segments text, g.length ≤ Config.COLS

/-! ## The keypad's map (R801) -/

/-- The columns, in the order of the sweep (R806). -/
def columns : List Column := [.c1, .c2, .c3]

/-- The rows, in order (R804, R809). -/
def rows : List Row := [.r1, .r2, .r3, .r4]

/-- The key at the crossing of a column and a row: the fixed table of R801. -/
def keyAt : Column → Row → Key
  | .c1, .r1 => .k1
  | .c1, .r2 => .k4
  | .c1, .r3 => .k7
  | .c1, .r4 => .star
  | .c2, .r1 => .k2
  | .c2, .r2 => .k5
  | .c2, .r3 => .k8
  | .c2, .r4 => .k0
  | .c3, .r1 => .k3
  | .c3, .r2 => .k6
  | .c3, .r3 => .k9
  | .c3, .r4 => .pound

/-- The index of a key: its position in the document's list (R310). -/
def keyIndex : Key → Nat
  | .k1 => 0
  | .k2 => 1
  | .k3 => 2
  | .k4 => 3
  | .k5 => 4
  | .k6 => 5
  | .k7 => 6
  | .k8 => 7
  | .k9 => 8
  | .star => 9
  | .k0 => 10
  | .pound => 11

/-! ## Targets of a transport call (R214, R403) -/

/-- The chip that answers at an address. -/
def chipAt (p : Params) (a : BusAddr) : Option ChipId :=
  if a = p.lcdAddr then some .lcd else if a = p.kpAddr then some .kp else none

/-- The register at an index. -/
def regAt (p : Params) (reg : Byte) : Option ChipReg :=
  if reg = p.regGpio then some .gpio else if reg = p.regDir then some .dir else none

end Sys2Proof.Machine

namespace Sys2Proof

/-- All the constraints R12 puts on the parameters: those of `Params.distinct`, and GREETING "a text meeting rule R722's
constraints". -/
abbrev Params.wf (p : Params) : Prop := p.distinct ∧ Machine.ValidText p.greeting

end Sys2Proof
end

