-- ==== Sys2Proof/Machine/Flags.lean ====
section
/-! DEFINITION. The block has no status flags (40_gpio_expander, 42_lcd_primitives). This file holds what stands in
their place: the controller's address arithmetic under its mode fields (R116, R509, R518) and its execution times (R520). -/

namespace Sys2Proof.Machine

open Sys2Proof

/-- The legal DDRAM addresses while N = 1: line 1 is 0x00..0x27 and line 2 is 0x40..0x67 (R116, R213); while N = 0,
0x00..0x4F (R116). -/
def legalAddr (n : Bool) (a : DdAddr) : Bool :=
  if n then decide (a.toNat ≤ 0x27) || (decide (0x40 ≤ a.toNat) && decide (a.toNat ≤ 0x67)) else decide (a.toNat ≤ 0x4F)

/-- The legal addresses in ascending order. -/
def legalAddrs (n : Bool) : List Nat :=
  if n then List.range' 0 0x28 ++ List.range' 0x40 0x28 else List.range' 0 0x50

/-- `inc` (R509), on legal addresses. -/
def incAc (n : Bool) (x : DdAddr) : DdAddr :=
  if n then (if x = 0x27 then 0x40 else if x = 0x67 then 0x00 else x + 1)
  else (if x = 0x4F then 0x00 else x + 1)

/-- `dec` (R509), on legal addresses. -/
def decAc (n : Bool) (x : DdAddr) : DdAddr :=
  if n then (if x = 0x00 then 0x67 else if x = 0x40 then 0x27 else x - 1)
  else (if x = 0x00 then 0x4F else x - 1)

/-- One step of the address counter: `inc` forward, `dec` backward. -/
def stepAc (n forward : Bool) (x : DdAddr) : DdAddr := if forward then incAc n x else decAc n x

/-- The display shift one place left: `(shift + 1) mod 40` (R514, R518). -/
def shiftLeft (x : Fin 40) : Fin 40 := x + 1

/-- The display shift one place right: `(shift + 39) mod 40` (R514, R518). -/
def shiftRight (x : Fin 40) : Fin 40 := x + 39

/-- The execution time of an instruction (R520). -/
def execTime : Cmd → Nat
  | .clearDisplay => Config.T_EXEC_CLEAR
  | .returnHome _ => Config.T_EXEC_CLEAR
  | .nopInvalid | .entryModeSet _ _ | .displayControl _ _ _ | .cursorDisplayShift _ _ _ | .functionSet _ _ _ _
  | .setCgramAddr _ | .setDdramAddr _ | .readBusyAddr _ | .writeData _ | .readData _ => Config.T_EXEC

end Sys2Proof.Machine
end

