-- ==== Sys2Proof/Machine/Ops.lean ====
section
/-! DEFINITION. The named operations over memory and state: cells, draws and time, the trace, raising a fault and the
restart after it, refusing, the bus hold, and the running of an operation to its end or its stop. -/

namespace Sys2Proof.Machine

open Sys2Proof

/-! ## Memory: DDRAM as cells in ascending order (R117) -/

/-- The canonical form: addresses strictly rising. An unlisted address holds no value, so no cell repeats it. -/
abbrev Memory.wf (m : Memory) : Prop := (m.map Prod.fst).Pairwise (· < ·)

/-- The byte at an address; `none` where nothing has been written (log entry 3). -/
def Memory.read : Memory → Nat → Option Byte
  | [], _ => none
  | (k, v) :: m, a => if a = k then some v else Memory.read m a

/-- Writing one byte; the form stays canonical. -/
def Memory.write : Memory → Nat → Byte → Memory
  | [], a, b => [(a, b)]
  | (k, v) :: m, a, b =>
    if a < k then (a, b) :: (k, v) :: m
    else if a = k then (a, b) :: m
    else (k, v) :: Memory.write m a b

/-- Writing the same byte to every address of a list (R510). -/
def Memory.fill (m : Memory) (addrs : List Nat) (b : Byte) : Memory :=
  addrs.foldl (fun m a => Memory.write m a b) m

/-! ## Running an operation -/

/-- How far an operation got: done, with the value it returns, or stopped, because FATAL was set (R901) or the run was
refused (R910): "Main takes no further step". -/
inductive Ran (α : Type) where
  | done (value : α) (s : State)
  | stopped (s : State)

/-- What follows an operation: it runs only if the operation was done (R901, R902). -/
def Ran.andThen {α β : Type} (r : Ran α) (next : α → State → Ran β) : Ran β :=
  match r with
  | .done v s => next v s
  | .stopped s => .stopped s

/-- The state an operation leaves. -/
def Ran.state {α : Type} : Ran α → State
  | .done _ s => s
  | .stopped s => s

/-- Repeating an operation `count` times (R711, R730). -/
def repeatOp (op : State → Ran Unit) : Nat → State → Ran Unit
  | 0, s => .done () s
  | k + 1, s => (op s).andThen fun _ s => repeatOp op k s

/-! ## Faults and refusals -/

/-- `raise Fatal(code, info)` (R901): FATAL is set and nothing else changes; there is no handler and no cleanup
(R905, R906). -/
def State.raiseFatal (code : FaultCode) (info : FaultInfo) (s : State) : State :=
  { s with fatal := some code, fatalInfo := some info }

/-- The restart of Main after a fatal condition under PANIC = reset (R901): the new run starts with
`lcd_phase = Unpowered`, `kp_phase = Uninit`, `FATAL = none` and an empty TRACE; the expanders, the controller and `now`
carry over. Main's own marks start anew (DEDUCED, log entry 12). -/
def State.restart (s : State) : State :=
  { s with
    lcdPhase := .unpowered, kpPhase := .uninit, fatal := none, trace := []
    fatalInfo := none, busOwner := none, scanning := none, ret := none }

/-- Init moves `lcd_phase` (R130, R701 to R705), and the controller's mark of a finished init with it: set at Ready,
cleared when an init, a re-run one included, has configured the pins. DEDUCED (log entry 16). -/
def State.enterPhase (p : LcdPhase) (s : State) : State :=
  { s with lcdPhase := p, ctl := { s.ctl with afterInit := p == .ready } }

/-- `refuse(reason)` (R910): REFUSED is set and the run stops. No transport call is issued. -/
def State.refuse (reason : RefusalReason) (s : State) : State :=
  { s with refused := true, refusedReason := some reason }

/-- An operation that stops in a fault. -/
def fatal {α : Type} (code : FaultCode) (info : FaultInfo) (s : State) : Ran α := .stopped (s.raiseFatal code info)

/-- An operation that stops in a refusal. -/
def refuse {α : Type} (reason : RefusalReason) (s : State) : Ran α := .stopped (s.refuse reason)

/-! ## The controller's undefined mark (R123) -/

/-- `LCD_UNDEFINED <- true`: sticky (R123). -/
def Controller.undefine (k : Controller) : Controller := { k with undefined := true }

/-- Once LCD_UNDEFINED is set, every field of `lcd` is unconstrained: all are drawn anew, and every cell is unspecified
(R123). Applied after each event of the controller and at each primitive. DESIGN CHOICE (log entry 4). -/
def Controller.settle (k : Controller) : Controller :=
  if k.undefined then { k with lcd := freeLcd k.epoch, epoch := k.epoch + 1, cells := k.epoch } else k

/-! ## Time (R151) -/

/-- One primitive's passage of time: at least `least`, plus what the draw adds, plus the heartbeat if it fires
(R151, R921). The draw is used up. -/
def State.tick (least : Nat) (s : State) : State :=
  { s with
    now := s.now + least + (s.inputs.at 0).elapsed + (s.inputs.at 0).beat.getD 0
    inputs := s.inputs.rest
    ctl := s.ctl.settle }

/-- The heartbeat alone (R921): it only advances `now`. -/
def State.heartbeat (s : State) : State :=
  { s with
    now := s.now + (s.inputs.at 0).beat.getD 0
    inputs := s.inputs.rest
    ctl := s.ctl.settle }

/-- The draw of a primitive that a second bus user's call stopped is used up: the call falls once
(DESIGN CHOICE, log entry 22). -/
def State.dropDraw (s : State) : State := { s with inputs := s.inputs.rest }

/-- One entry is appended to TRACE (R150), with its completion time. -/
def State.record (call : BusCall) (err : Bool) (s : State) : State :=
  { s with trace := s.trace ++ [{ call := call, err := err, time := s.now }] }

/-! ## The bus hold (R931) -/

/-- A public operation sets BUS_OWNER to itself (R153, R931). -/
def State.hold (op : PublicOp) (s : State) : State := { s with busOwner := some op }

/-- It clears BUS_OWNER after its last transport call (R931). -/
def State.release (s : State) : State := { s with busOwner := none }

/-- A public operation holds the bus for its whole duration; after a fault the hold is never released (R931). -/
def holding {α : Type} (op : PublicOp) (body : State → Ran α) (s : State) : Ran α :=
  (body (s.hold op)).andThen fun v s => .done v s.release

/-! ## Ending an operation -/

/-- The state a finished or stopped operation leaves, with the value returned; an operation that stopped returned
nothing (R901). -/
def Ran.finish (r : Ran RetVal) : State :=
  match r with
  | .done v s => { s with ret := some v }
  | .stopped s => s

/-- The machine's answer to a call of Main: the operation runs, unless Main takes no further step (R901, R910). -/
def complete (op : State → Ran RetVal) (s : State) : Host.Outcome State Fault Refusal :=
  .next (if s.stopped then s else (op { s with ret := none }).finish)

/-- An operation that returns no value. -/
def unitOp (op : State → Ran Unit) (s : State) : Ran RetVal := (op s).andThen fun _ s => .done .unit s

end Sys2Proof.Machine
end

