-- ==== Sys2Proof/Machine/Controller.lean ====
section
/-! DEFINITION. The HD44780 controller, receiving side (41_hd44780_controller.md): the effect of each instruction word,
the transfers, the Enable edges with their timing, and the meanings of the F-CMD rows. -/

namespace Sys2Proof.Machine

open Sys2Proof

/-! ## The address counter off the map -/

/-- The address counter after one step: `inc` or `dec` on a legal address (R509). From an address the map lacks, which
the controller holds only while AC is still unspecified (R116, R1019) or after a Function set that changes N, the result
is a free value; DDRAM and the codes of its cells stay (R514, R711). DESIGN CHOICE (log entry 15). -/
def Controller.moveAc (forward : Bool) (k : Controller) : Controller :=
  if legalAddr k.lcd.n k.lcd.ac then { k with lcd := { k.lcd with ac := stepAc k.lcd.n forward k.lcd.ac } }
  else { k with lcd := { k.lcd with ac := BitVec.ofNat 7 (Config.free k.epoch 10) }, epoch := k.epoch + 1 }

/-- `lcd.DDRAM[lcd.AC] <- d` (R518). At an address the map lacks the write lands at an unspecified place: every cell is
unspecified after it, with a new free code. DESIGN CHOICE (log entry 15). -/
def Controller.storeAtAc (d : Byte) (k : Controller) : Controller :=
  if legalAddr k.lcd.n k.lcd.ac then { k with lcd := { k.lcd with ddram := k.lcd.ddram.write k.lcd.ac.toNat d } }
  else { k with lcd := { k.lcd with ddram := [] }, epoch := k.epoch + 1, cells := k.epoch }

/-! ## The instructions (R510 to R519, R531), without the busy time -/

/-- R519: "`LCD_UNDEFINED <- true`". -/
def cmdNopInvalid (k : Controller) : Controller := k.undefine

/-- Clear display (R510). The cells filled are those legal under N (log entry 28). -/
def cmdClearDisplay (k : Controller) : Controller :=
  { k with lcd := { k.lcd with
      ddram := k.lcd.ddram.fill (legalAddrs k.lcd.n) 0x20, ac := 0x00, shift := 0, id := true } }

/-- Return home (R511): `x` is ignored. -/
def cmdReturnHome (k : Controller) : Controller := { k with lcd := { k.lcd with ac := 0x00, shift := 0 } }

/-- Entry mode set (R512). -/
def cmdEntryModeSet (i s : Bool) (k : Controller) : Controller := { k with lcd := { k.lcd with id := i, s := s } }

/-- Display on/off control (R513). -/
def cmdDisplayControl (d c b : Bool) (k : Controller) : Controller :=
  { k with lcd := { k.lcd with d := d, c := c, b := b } }

/-- Cursor or display shift (R514): `p` is S/C and `r` is R/L. -/
def cmdCursorDisplayShift (p r : Bool) (k : Controller) : Controller :=
  if p then { k with lcd := { k.lcd with shift := if r then shiftRight k.lcd.shift else shiftLeft k.lcd.shift } }
  else k.moveAc r

/-- Function set (R515): L = `l`. After init every Function set sets the mark (R530, D32); in init, a re-run one included,
R515 alone holds (R703, R1004). DEDUCED (log entry 16). -/
def cmdFunctionSet (l n f : Bool) (k : Controller) : Controller :=
  if k.afterInit then k.undefine else
  match k.lcd.dl with
  | .eight => { k with lcd := { k.lcd with dl := if l then .eight else .four, n := n, f := f, phase := .hi } }
  | .four => if l then k.undefine else { k with lcd := { k.lcd with n := n, f := f } }

/-- Set CGRAM address (R516): always LCD_UNDEFINED. -/
def cmdSetCgramAddr (k : Controller) : Controller := k.undefine

/-- Whether the controller takes a Set DDRAM address: it is legal under N (R517), the N = 1 map has it (R312), and after
init it is the newline's, 0x40 (R530, D32). DEDUCED (log entry 16). -/
def takesAddr (n afterInit : Bool) (a : DdAddr) : Bool :=
  legalAddr n a && legalAddr true a && (!afterInit || a == 0x40)

/-- Set DDRAM address (R517): any other address sets the mark. -/
def cmdSetDdramAddr (a : DdAddr) (k : Controller) : Controller :=
  if takesAddr k.lcd.n k.afterInit a then { k with lcd := { k.lcd with ac := a } } else k.undefine

/-- Read busy flag and address: RW is held at 0, so the word never occurs (R531); delivered, it is one of the words
that set LCD_UNDEFINED (R312, R530). DEDUCED (log entry 16). -/
def cmdReadBusyAddr (k : Controller) : Controller := k.undefine

/-- Write data (R518). -/
def cmdWriteData (d : Byte) (k : Controller) : Controller :=
  let moved := (k.storeAtAc d).moveAc k.lcd.id
  if k.lcd.s then
    { moved with lcd := { moved.lcd with
        shift := if k.lcd.id then shiftLeft k.lcd.shift else shiftRight k.lcd.shift } }
  else moved

/-- Read data: as `cmdReadBusyAddr` (R312, R530, R531). DEDUCED (log entry 16). -/
def cmdReadData (k : Controller) : Controller := k.undefine

/-- The effect of an instruction on the controller's fields. -/
def cmdEffect : Cmd → Controller → Controller
  | .nopInvalid, k => cmdNopInvalid k
  | .clearDisplay, k => cmdClearDisplay k
  | .returnHome _, k => cmdReturnHome k
  | .entryModeSet i s, k => cmdEntryModeSet i s k
  | .displayControl d c b, k => cmdDisplayControl d c b k
  | .cursorDisplayShift p r _, k => cmdCursorDisplayShift p r k
  | .functionSet l n f _, k => cmdFunctionSet l n f k
  | .setCgramAddr _, k => cmdSetCgramAddr k
  | .setDdramAddr a, k => cmdSetDdramAddr a k
  | .readBusyAddr _, k => cmdReadBusyAddr k
  | .writeData d, k => cmdWriteData d k
  | .readData _, k => cmdReadData k

/-- The effect of an instruction and then the busy time (R507, R520): `t` is the instant of the completing fall. -/
def Controller.run (t : Nat) (c : Cmd) (k : Controller) : Controller :=
  let done := cmdEffect c k
  { done with lcd := { done.lcd with busyUntil := t + execTime c } }

/-- `execute(r, b)` (R507): the word is `RS = r`, `RW = 0`, `DB = b` (R531). -/
def Controller.execute (t : Nat) (r : Bool) (b : Byte) (k : Controller) : Controller :=
  k.run t (decodeCmd (busWord r b))

/-! ## Transfers (R504 to R506) -/

/-- A latched transfer `(r, n)` at instant `t`; `lo` is the draw for DB3..DB0 of an 8-bit transfer. -/
def Controller.transfer (t : Nat) (lo : Nibble) (r : Bool) (n : Nibble) (k : Controller) : Controller :=
  match k.lcd.dl with
  | .eight => k.execute t r (nibblePair n lo)
  | .four =>
    match k.lcd.phase with
    | .hi => { k with lcd := { k.lcd with pendHi := n, pendRs := r, phase := .lo } }
    | .lo =>
      let k' : Controller := { k with lcd := { k.lcd with phase := .hi } }
      if r = k.lcd.pendRs then k'.execute t r (nibblePair k.lcd.pendHi n) else k'.undefine

/-! ## Enable edges (R501, R502) -/

/-- Whether the address setup or the cycle time is violated by an Enable rise at `t` (R501). -/
def riseViolates (t : Nat) (lcd : Lcd) : Bool :=
  decide (t < lcd.tLines + Config.T_AS) ||
    (match lcd.tRise with
     | none => false
     | some tr => decide (t < tr + Config.T_CYC))

/-- Enable rise at instant `t` (R501). -/
def Controller.rise (t : Nat) (k : Controller) : Controller :=
  { k with lcd := { k.lcd with tRise := some t }, undefined := k.undefined || riseViolates t k.lcd }

/-- Whether the pulse width, the stability of the lines or the busy time is violated by an Enable fall at `t` (R502).
A fall with no rise on record is a violation (DEDUCED, log entry 26). -/
def fallViolates (t : Nat) (lcd : Lcd) : Bool :=
  (match lcd.tRise with
   | none => true
   | some tr => decide (t < tr + Config.T_PW) || decide (tr < lcd.tLines)) ||
    decide (t < lcd.busyUntil)

/-- Enable fall at instant `t`: the latch (R502). The levels latched are those held during the pulse. -/
def Controller.fall (t : Nat) (lo : Nibble) (k : Controller) : Controller :=
  Controller.transfer t lo k.lcd.rs k.lcd.db { k with undefined := k.undefined || fallViolates t k.lcd }

/-! ## Sampling (R500, R503) -/

/-- Levels of the LCD lines: EN, RS, and D7..D4 as bits 3..0 (R120). -/
structure Lines where
  en : Bool
  rs : Bool
  db : Nibble
  deriving DecidableEq, Repr

/-- The edge a sample makes, if any (R500 (3), (4)). -/
def Controller.edge (t : Nat) (lo : Nibble) (en : Bool) (k : Controller) : Controller :=
  if !k.lcd.en && en then k.rise t
  else if k.lcd.en && !en then k.fall t lo
  else k

/-- The controller's sample of its lines at the completion instant `t` of a write to the LCD chip (R500): first the
time of the lines, then simultaneous change (R503), then the edge, then the levels. -/
def Controller.sample (t : Nat) (lo : Nibble) (new : Lines) (k : Controller) : Controller :=
  let moved := decide (new.rs ≠ k.lcd.rs) || decide (new.db ≠ k.lcd.db)
  let timed : Controller :=
    { k with
      lcd := { k.lcd with tLines := if moved then t else k.lcd.tLines }
      undefined := k.undefined || (moved && decide (new.en ≠ k.lcd.en)) }
  let edged := timed.edge t lo new.en
  Controller.settle { edged with lcd := { edged.lcd with rs := new.rs, en := new.en, db := new.db } }

/-! ## The F-CMD rows: the controller executes one instruction word now (R507; log entry 9) -/

/-- The controller executes an instruction at the present instant. -/
def State.command (c : Cmd) (s : State) : State := { s with ctl := (s.ctl.run s.now c).settle }

/-- NOP_INVALID (R519). -/
def execNopInvalid (s : State) : Host.Outcome State Fault Refusal := .next (s.command .nopInvalid)
/-- CLEAR_DISPLAY (R510). -/
def execClearDisplay (s : State) : Host.Outcome State Fault Refusal := .next (s.command .clearDisplay)
/-- RETURN_HOME (R511). -/
def execReturnHome (x : Bool) (s : State) : Host.Outcome State Fault Refusal := .next (s.command (.returnHome x))
/-- ENTRY_MODE_SET (R512). -/
def execEntryModeSet (i sh : Bool) (s : State) : Host.Outcome State Fault Refusal :=
  .next (s.command (.entryModeSet i sh))
/-- DISPLAY_CONTROL (R513). -/
def execDisplayControl (d c b : Bool) (s : State) : Host.Outcome State Fault Refusal :=
  .next (s.command (.displayControl d c b))
/-- CURSOR_DISPLAY_SHIFT (R514). -/
def execCursorDisplayShift (p r : Bool) (x : BitVec 2) (s : State) : Host.Outcome State Fault Refusal :=
  .next (s.command (.cursorDisplayShift p r x))
/-- FUNCTION_SET (R515). -/
def execFunctionSet (l n f : Bool) (x : BitVec 2) (s : State) : Host.Outcome State Fault Refusal :=
  .next (s.command (.functionSet l n f x))
/-- SET_CGRAM_ADDR (R516). -/
def execSetCgramAddr (a : BitVec 6) (s : State) : Host.Outcome State Fault Refusal := .next (s.command (.setCgramAddr a))
/-- SET_DDRAM_ADDR (R517). -/
def execSetDdramAddr (a : DdAddr) (s : State) : Host.Outcome State Fault Refusal := .next (s.command (.setDdramAddr a))
/-- READ_BUSY_ADDR (R312, R530, R531). -/
def execReadBusyAddr (x : Byte) (s : State) : Host.Outcome State Fault Refusal := .next (s.command (.readBusyAddr x))
/-- WRITE_DATA (R518). -/
def execWriteData (d : Byte) (s : State) : Host.Outcome State Fault Refusal := .next (s.command (.writeData d))
/-- READ_DATA (R312, R530, R531). -/
def execReadData (x : Byte) (s : State) : Host.Outcome State Fault Refusal := .next (s.command (.readData x))

/-! ## What the display shows (R121) -/

/-- The code a DDRAM cell shows: the byte written last, or a free code where nothing has been written. That code stays
until every cell is unspecified anew (log entry 3). -/
def State.cellCode (s : State) (a : Nat) : Byte :=
  (s.ctl.lcd.ddram.read a).getD (BitVec.ofNat 8 (Config.free s.ctl.cells (64 + a)))

/-- A place of the display: line 0 or 1, column 0..15 (R3). -/
def onScreen (line j : Nat) : Bool := decide (line < Config.LINES) && decide (j < Config.COLS)

/-- The DDRAM address shown at column `j` of line 1 (`line = 0`) or line 2 (`line = 1`) (R121). -/
def State.shownAddr (s : State) (line j : Nat) : Nat := 0x40 * line + (s.ctl.lcd.shift.val + j) % 40

/-- The visible content: the code at a place of the display, none off it and none while the display is blank (R121). -/
def State.shown (s : State) (line j : Nat) : Option Byte :=
  if s.ctl.lcd.d && onScreen line j then some (s.cellCode (s.shownAddr line j)) else none

/-- Whether the cursor is shown at a place: C = 1, the display on, and AC's cell there (R121). -/
def State.cursorShown (s : State) (line j : Nat) : Bool :=
  s.ctl.lcd.d && s.ctl.lcd.c && onScreen line j && decide (s.ctl.lcd.ac.toNat = s.shownAddr line j)

end Sys2Proof.Machine
end

