-- ==== Sys2Proof/Machine/Transport.lean ====
section
/-! DEFINITION. The chips' pins and the LCD lines (R103, R122, R508), the keypad matrix (R805), the chip-side effects of
a write (R409, R410), a second bus user (R913), and the primitives every operation is made of: the two transport calls
(R400 to R403) and the delays (R19). -/

namespace Sys2Proof.Machine

open Sys2Proof

/-! ## The keypad matrix (R805) -/

/-- The columns joined to one of the rows by a pressed key. -/
def columnsJoined (held : List Key) (rs : List Row) : List Column :=
  columns.filter fun c => rs.any fun r => held.contains (keyAt c r)

/-- The rows, with those a pressed key joins to one of their columns. -/
def rowsJoined (held : List Key) (rs : List Row) : List Row :=
  rows.filter fun r => rs.contains r || (columnsJoined held rs).any fun c => held.contains (keyAt c r)

/-- The columns in the connected component of a row's net: three rounds reach every net, since each round adds a column
and there are three (R805). -/
def netColumns (held : List Key) (r : Row) : List Column :=
  columnsJoined held (rowsJoined held (rowsJoined held (rowsJoined held [r])))

/-- A column is driven to a level when its pin is an output (R805). -/
def columnDrives (p : Params) (chip : Chip) (level : Bool) (c : Column) : Bool :=
  !chip.dir.getLsbD (columnPin p c) && (chip.out.getLsbD (columnPin p c) == level)

/-- The level of a row line (R805): the draw under contention, 1 when a column of its net is driven high and none low,
and 0 otherwise (the pull-down). -/
def rowLevel (p : Params) (chip : Chip) (d : Draw) (r : Row) : Bool :=
  let net := netColumns d.held r
  let high := net.any (columnDrives p chip true)
  let low := net.any (columnDrives p chip false)
  if high && low then d.ext.getLsbD (rowPin p r) else high

/-- EXT[KP_ADDR] (R103): the row bits follow the matrix, the other bits are the draw. -/
def kpExt (p : Params) (chip : Chip) (d : Draw) : Byte :=
  (d.ext &&& ~~~(rowsMask p)) ||| maskIf (rowLevel p chip d .r1) p.pinR1 ||| maskIf (rowLevel p chip d .r2) p.pinR2
    ||| maskIf (rowLevel p chip d .r3) p.pinR3 ||| maskIf (rowLevel p chip d .r4) p.pinR4

/-! ## Pins (R103) -/

/-- The registers of a chip. -/
def State.chip (s : State) : ChipId → Chip
  | .lcd => s.lcdChip
  | .kp => s.kpChip

/-- EXT[a]: what the outside world drives (R103). -/
def State.ext (s : State) (d : Draw) : ChipId → Byte
  | .lcd => d.ext
  | .kp => kpExt s.params s.kpChip d

/-- `PINS[a] = (OUT[a] & ~DIR[a]) | (EXT[a] & DIR[a])` (R103). -/
def State.pins (s : State) (d : Draw) (c : ChipId) : Byte :=
  ((s.chip c).out &&& ~~~(s.chip c).dir) ||| (s.ext d c &&& (s.chip c).dir)

/-! ## The LCD lines (R122, R508) -/

/-- The level of an LCD line: its OUT bit while the pin is an output, `floating` otherwise. -/
def lineLevel (chip : Chip) (i : Pin) (floating : Bool) : Bool :=
  if chip.dir.getLsbD i then floating else chip.out.getLsbD i

/-- The levels the controller sees (R122): a floating EN keeps the controller's `en`; a floating RS or data line is a
draw (R508). -/
def lcdLines (p : Params) (chip : Chip) (d : Draw) (en : Bool) : Lines where
  en := lineLevel chip p.pinEN en
  rs := lineLevel chip p.pinRS (d.ext.getLsbD p.pinRS)
  db := BitVec.ofBool (lineLevel chip p.pinD7 (d.ext.getLsbD p.pinD7)) ++
    BitVec.ofBool (lineLevel chip p.pinD6 (d.ext.getLsbD p.pinD6)) ++
    BitVec.ofBool (lineLevel chip p.pinD5 (d.ext.getLsbD p.pinD5)) ++
    BitVec.ofBool (lineLevel chip p.pinD4 (d.ext.getLsbD p.pinD4))

/-! ## Chip-side effects (R409, R410) -/

/-- A chip after its register took a value. -/
def Chip.set (chip : Chip) (reg : ChipReg) (v : Byte) : Chip :=
  match reg with
  | .gpio => { chip with out := v }
  | .dir => { chip with dir := v }

/-- The register of a chip takes a value at the present instant; on the LCD chip the new levels reach the controller at
that instant, which samples them (R409, R410, R500). -/
def State.chipWrite (c : ChipId) (reg : ChipReg) (v : Byte) (d : Draw) (s : State) : State :=
  match c with
  | .kp => { s with kpChip := s.kpChip.set reg v }
  | .lcd =>
    { s with
      lcdChip := s.lcdChip.set reg v
      ctl := s.ctl.sample s.now d.lo (lcdLines s.params (s.lcdChip.set reg v) d s.ctl.lcd.en) }

/-! ## A second bus user (R231, R413, R913) -/

/-- What a second bus user's call does to the chips: a write to a register takes effect, anything else nothing. -/
def State.foreignCall (f : ForeignCall) (d : Draw) (s : State) : State :=
  match f with
  | .read _ _ => s
  | .write a reg v =>
    match chipAt s.params a, regAt s.params reg with
    | some c, some r => s.chipWrite c r v d
    | _, _ => s

/-- Whether the call is a write to the GPIO register of the chip a read-modify-write is under way on (R913 (b)). -/
def breaksRmw (p : Params) (rmw : Option ChipId) (f : ForeignCall) : Bool :=
  match f, rmw with
  | .write a reg _, some c => decide (chipAt p a = some c) && decide (regAt p reg = some .gpio)
  | .write _ _ _, none => false
  | .read _ _, _ => false

/-- One primitive of Main. A second bus user's call that falls before it takes effect and, inside a bus hold or between
the halves of a read-modify-write, raises F_RACE (R913); its draw is then used up, so that the call falls once.
The call takes no time of its own: it acts at the instant the primitive before it completed. It and Main's primitive use
one draw, so that the floating lines, the contended rows and the low data lines have equal levels at the two samples,
where R508 draws at each. Each of the three is DESIGN CHOICE (log entry 22). Otherwise time passes and the primitive
acts, under the draw.
`rmw` is the chip a read-modify-write is half-way through. -/
def primitive {α : Type} (rmw : Option ChipId) (least : Nat) (act : Draw → State → Ran α) (s : State) : Ran α :=
  let d := s.inputs.at 0
  match d.foreign with
  | none => act d (s.tick least)
  | some f =>
    if s.busOwner.isSome || breaksRmw s.params rmw f then
      fatal .race (.race s.busOwner f) (s.foreignCall f d).dropDraw
    else act d ((s.foreignCall f d).tick least)

/-! ## Transport calls (R400 to R403) -/

/-- `BusWrite(a, [reg, v])` (R400): one entry of TRACE; when the call completes, or fails having left the new value in
the register (R402), the register takes the value. Returns whether it completed. A target other than the two chips and
the two registers is refused (R214). -/
def busWriteCall (rmw : Option ChipId) (a : BusAddr) (reg v : Byte) (s : State) : Ran Bool :=
  match chipAt s.params a, regAt s.params reg with
  | some c, some r =>
    primitive rmw 0 (fun d s =>
      let s := s.record (.w a [reg, v]) (!d.ok)
      .done d.ok (if d.ok || d.took then s.chipWrite c r v d else s)) s
  | _, _ => refuse .foreignTarget s

/-- `BusWriteRead(a, [reg], 1)` (R401): one entry of TRACE; returns PINS[a] at the completion instant, or nothing when
the call fails ("`read_buffer` holds no defined value": the trace shows the draw). Only `REG_GPIO` has a read frame
(R301); any other target is refused (R214, R312). -/
def busReadCall (a : BusAddr) (reg : Byte) (s : State) : Ran (Option Byte) :=
  match chipAt s.params a, regAt s.params reg with
  | some c, some .gpio =>
    primitive none 0 (fun d s =>
      let value := if d.ok then s.pins d c else d.ext
      .done (if d.ok then some value else none) (s.record (.wr a [reg] [value]) (!d.ok))) s
  | _, _ => refuse .foreignTarget s

/-- BusWrite (R400): the transport call alone; it returns `Ok(())` or `Err(BusError)` (log entry 18). -/
def execBusWrite (a : BusAddr) (reg v : Byte) (s : State) : Host.Outcome State Fault Refusal :=
  complete (fun s => (busWriteCall none a reg v s).andThen fun ok s => .done (.transport ok) s) s

/-- BusWriteRead (R401): the transport call alone; it returns the byte read or `Err(BusError)` (log entry 18). -/
def execBusWriteRead (a : BusAddr) (reg : Byte) (s : State) : Host.Outcome State Fault Refusal :=
  complete (fun s => (busReadCall a reg s).andThen fun r s => .done (.transportRead r) s) s

/-! ## Delays (R19, R941) -/

/-- `Delay_us(d)`: `now` advances by a drawn amount of at least `d`. -/
def delayUs (d : Nat) (s : State) : Ran Unit := primitive none d (fun _ s => .done () s) s

/-- `Delay_ms(d)`: at least `1000*d`. -/
def delayMs (d : Nat) (s : State) : Ran Unit := delayUs (1000 * d) s

/-- delay_us / delay_ms (R19, R941). -/
def execDelay (unit : TimeUnit) (d : Nat) (s : State) : Host.Outcome State Fault Refusal :=
  complete (unitOp (match unit with
    | .us => delayUs d
    | .ms => delayMs d)) s

end Sys2Proof.Machine
end

