-- ==== Sys2Proof/Machine/Expander.lean ====
section
/-! DEFINITION. The GPIO expander register model (40_gpio_expander R404 to R408). It keeps nothing between calls
(R105, R412). -/

namespace Sys2Proof.Machine

open Sys2Proof

/-- `read(chip_address)` (R404): a failing call is fatal (R902). -/
def regRead (a : BusAddr) (s : State) : Ran Byte :=
  (busReadCall a s.params.regGpio s).andThen fun r s =>
    match r with
    | some v => .done v s
    | none => fatal .bus (.bus (.read a)) s

/-- `write(chip_address, value)` (R405). `rmw` is the chip a read-modify-write is half-way through. -/
def regWrite (rmw : Option ChipId) (a : BusAddr) (v : Byte) (s : State) : Ran Unit :=
  (busWriteCall rmw a s.params.regGpio v s).andThen fun ok s =>
    if ok then .done () s else fatal .bus (.bus (.write a v)) s

/-- `set_bits(chip_address, mask)` (R406): a whole-byte read, then a whole-byte write. -/
def setBits (a : BusAddr) (m : Byte) (s : State) : Ran Unit :=
  (regRead a s).andThen fun v s => regWrite (chipAt s.params a) a (v ||| m) s

/-- `clear_bits(chip_address, mask)` (R407). -/
def clearBits (a : BusAddr) (m : Byte) (s : State) : Ran Unit :=
  (regRead a s).andThen fun v s => regWrite (chipAt s.params a) a (v &&& ~~~m) s

/-- Whether Main is inside `lcd.init` or `keypad.init`: the one that runs holds the bus (R931). DEDUCED
(log entry 17). -/
def State.insideInit (s : State) : Bool :=
  decide (s.busOwner = some .lcdInit) || decide (s.busOwner = some .keypadInit)

/-- `configure_direction(chip_address, input_mask)` (R408): a call "other than from `lcd.init` or `keypad.init`" is
refused DirectionOutsideInit (R911), whatever its address: the legality of the call is looked at before its target
(DESIGN CHOICE, log entry 32). From an init, a foreign target is refused by the transport call (R214). -/
def configureDirection (a : BusAddr) (m : Byte) (s : State) : Ran Unit :=
  if s.insideInit then
    (busWriteCall none a s.params.regDir m s).andThen fun ok s =>
      if ok then .done () s else fatal .bus (.bus (.configureDirection a)) s
  else refuse .directionOutsideInit s

/-- read (R404). -/
def execRead (a : BusAddr) (s : State) : Host.Outcome State Fault Refusal :=
  complete (fun s => (regRead a s).andThen fun v s => .done (.byte v) s) s

/-- write (R405). -/
def execWrite (a : BusAddr) (v : Byte) (s : State) : Host.Outcome State Fault Refusal :=
  complete (unitOp (regWrite none a v)) s

/-- set_bits (R406). -/
def execSetBits (a : BusAddr) (m : Byte) (s : State) : Host.Outcome State Fault Refusal :=
  complete (unitOp (setBits a m)) s

/-- clear_bits (R407). -/
def execClearBits (a : BusAddr) (m : Byte) (s : State) : Host.Outcome State Fault Refusal :=
  complete (unitOp (clearBits a m)) s

/-- configure_direction (R408). -/
def execConfigureDirection (a : BusAddr) (m : Byte) (s : State) : Host.Outcome State Fault Refusal :=
  complete (unitOp (configureDirection a m)) s

end Sys2Proof.Machine
end

