-- ==== Sys2Proof/Machine/Keypad.lean ====
section
/-! DEFINITION. The keypad scanner (44_keypad.md). -/

namespace Sys2Proof.Machine

open Sys2Proof

/-- `drive_column(c)` (R803). -/
def driveColumn (c : Column) (s : State) : Ran Unit :=
  match s.params.columnDrive with
  | .exclusive => regWrite none s.params.kpAddr (pinMask (columnPin s.params c)) s
  | .latched => setBits s.params.kpAddr (pinMask (columnPin s.params c)) s

/-- `read_rows()` (R804): the rows whose bit of the value read is 1. -/
def readRows (s : State) : Ran (List Row) :=
  (regRead s.params.kpAddr s).andThen fun v s => .done (rows.filter fun r => v.getLsbD (rowPin s.params r)) s

/-- The sweep of some columns in order: each is driven, then the rows are read (R806). The keys found come in detection
order (R809), none twice. -/
def sweep : List Column → State → Ran (List Key)
  | [], s => .done [] s
  | c :: cs, s =>
    (driveColumn c s).andThen fun _ s =>
    (readRows s).andThen fun rs s =>
    (sweep cs s).andThen fun ks s =>
    .done (rs.map (keyAt c) ++ ks) s

/-- `raw_scan()` (R806): one pass over the three columns. -/
def rawScan (s : State) : Ran (List Key) := sweep columns s

/-- `keypad.init()`'s transaction (R802). -/
def keypadInitBody (s : State) : Ran Unit :=
  (configureDirection s.params.kpAddr (rowsMask s.params) s).andThen fun _ s => .done () { s with kpPhase := .ready }

/-- `keypad.scan_set()`'s pass (R807): no debounce; no key found is `None`. -/
def scanSetBody (s : State) : Ran RetVal :=
  (rawScan s).andThen fun ks s => .done (.optKeySet (if ks = [] then none else some ks)) s

/-- What a pass of `scan` leads to: the first pass that sees no key returns `None`; one that sees keys starts the loop,
with the first key in detection order as the one to return (R808, R809). In the loop, an empty pass returns the key,
and any other goes on (R808, R810). A return releases the bus; the loop keeps it (R931). -/
def afterPass (ks : List Key) (s : State) : State :=
  match s.scanning, ks with
  | none, [] => { s.release with ret := some (.optKey none) }
  | none, k :: _ => { s with scanning := some k }
  | some k, [] => { s.release with scanning := none, ret := some (.optKey (some k)) }
  | some _, _ :: _ => s

/-- The state after a pass, or after the stop in it. -/
def passState (r : Ran (List Key)) : State :=
  match r with
  | .done ks s => afterPass ks s
  | .stopped s => s

/-- One round of the debounce loop (R808): the delay, then a pass. One step of the machine (log entry 21). -/
def rescan (s : State) : State := passState ((delayUs Config.T_DEBOUNCE s).andThen fun _ s => rawScan s)

/-- The first pass of `keypad.scan()` (R808), under the bus hold (R931). -/
def scanFirst (s : State) : State := passState (rawScan (s.hold .keypadScan))

/-- keypad.init (R802): legal only while Uninit (R811). -/
def execKeypadInit (s : State) : Host.Outcome State Fault Refusal :=
  complete (unitOp (fun s =>
    if s.kpPhase = .uninit then holding .keypadInit keypadInitBody s else refuse .alreadyInitialised s)) s

/-- keypad.drive_column, internal (R803). -/
def execKeypadDriveColumn (c : Column) (s : State) : Host.Outcome State Fault Refusal :=
  complete (unitOp (driveColumn c)) s

/-- keypad.read_rows, internal (R804). -/
def execKeypadReadRows (s : State) : Host.Outcome State Fault Refusal :=
  complete (fun s => (readRows s).andThen fun rs s => .done (.rows rs) s) s

/-- keypad.raw_scan, internal (R806). -/
def execKeypadRawScan (s : State) : Host.Outcome State Fault Refusal :=
  complete (fun s => (rawScan s).andThen fun ks s => .done (.keys ks) s) s

/-- keypad.scan (R808): legal only in Ready (R811). Its first pass; while a key is held, the loop's passes are the
steps that follow (`rescan`; log entry 21). -/
def execKeypadScan (s : State) : Host.Outcome State Fault Refusal :=
  .next (if s.stopped then s
    else if s.kpPhase = .ready then scanFirst { s with ret := none, scanning := none }
    else ({ s with ret := none } : State).refuse .notReady)

/-- keypad.scan_set (R807): legal only in Ready (R811). -/
def execKeypadScanSet (s : State) : Host.Outcome State Fault Refusal :=
  complete (fun s =>
    if s.kpPhase = .ready then holding .keypadScanSet scanSetBody s else refuse .notReady s) s

end Sys2Proof.Machine
end

