-- ==== Sys2Proof/Machine/LcdPrimitives.lean ====
section
/-! DEFINITION. The LCD driver's timed primitives (42_lcd_primitives R600 to R605) and the init-only nibble (R702). -/

namespace Sys2Proof.Machine

open Sys2Proof

/-- `pulse_enable()` (R601): steps (3) to (7) of a nibble write. -/
def pulseEnable (s : State) : Ran Unit :=
  (delayUs Config.T_AS s).andThen fun _ s =>
  (setBits s.params.lcdAddr (pinMask s.params.pinEN) s).andThen fun _ s =>
  (delayUs Config.T_PW s).andThen fun _ s =>
  (clearBits s.params.lcdAddr (pinMask s.params.pinEN) s).andThen fun _ s =>
  delayUs Config.T_REC s

/-- `write_nibble(rs, n)` (R600): all lines cleared, RS and the nibble asserted, Enable pulsed. -/
def writeNibble (rs : Bool) (n : Nibble) (s : State) : Ran Unit :=
  (clearBits s.params.lcdAddr (lcdAllMask s.params) s).andThen fun _ s =>
  (setBits s.params.lcdAddr (assertMask s.params rs n) s).andThen fun _ s =>
  pulseEnable s

/-- `send_byte(rs, b)` (R603): the high nibble first, then the low nibble. -/
def sendByte (rs : Bool) (b : Byte) (s : State) : Ran Unit :=
  (writeNibble rs (hiNibble b) s).andThen fun _ s => writeNibble rs (loNibble b) s

/-- `send_command(b)` (R604). -/
def sendCommand (b : Byte) (s : State) : Ran Unit := sendByte false b s

/-- `send_data(b)` (R605). -/
def sendData (b : Byte) (s : State) : Ran Unit := sendByte true b s

/-- Init step 2 (R702): the single nibble received in 8-bit mode. -/
def initStep2 (s : State) : Ran Unit :=
  (writeNibble false 0x2 s).andThen fun _ s => .done () (s.enterPhase .functionSetPhase1)

/-- "`write_nibble` is legal only once the LCD pins are outputs, that is when `lcd_phase != Unpowered`" (R600); a call
outside that is refused (R911; log entry 20). -/
def whenPinsOutputs (op : State → Ran Unit) (s : State) : Ran Unit :=
  if s.lcdPhase = .unpowered then refuse .notReady s else op s

/-- write_nibble (R600). -/
def execWriteNibble (rs : Bool) (n : Nibble) (s : State) : Host.Outcome State Fault Refusal :=
  complete (unitOp (whenPinsOutputs (writeNibble rs n))) s

/-- send_byte (R603). -/
def execSendByte (rs : Bool) (b : Byte) (s : State) : Host.Outcome State Fault Refusal :=
  complete (unitOp (whenPinsOutputs (sendByte rs b))) s

/-- send_command (R604). -/
def execSendCommand (b : Byte) (s : State) : Host.Outcome State Fault Refusal :=
  complete (unitOp (whenPinsOutputs (sendCommand b))) s

/-- send_data (R605). -/
def execSendData (b : Byte) (s : State) : Host.Outcome State Fault Refusal :=
  complete (unitOp (whenPinsOutputs (sendData b))) s

/-- init_nibble_8bit (R702): init's step from PinsConfigured to FunctionSetPhase1; before it the pins are no outputs,
after it the step has been made (log entry 20). -/
def execInitNibble8bit (s : State) : Host.Outcome State Fault Refusal :=
  complete (unitOp (fun s =>
    if s.lcdPhase = .pinsConfigured then initStep2 s
    else if s.lcdPhase = .unpowered then refuse .notReady s
    else refuse .alreadyInitialised s)) s

end Sys2Proof.Machine
end

