-- ==== Sys2Proof/Machine/LcdOperations.lean ====
section
/-! DEFINITION. The LCD driver's operations (43_lcd_operations.md). -/

namespace Sys2Proof.Machine

open Sys2Proof

/-! ## Legality (R700) -/

/-- Every LCD operation other than `init` is legal only in Ready (R700, R911). -/
def whenLcdReady {α : Type} (op : State → Ran α) (s : State) : Ran α :=
  if s.lcdPhase = .ready then op s else refuse .notReady s

/-- A public LCD operation: its legality, then the bus hold around it (R700, R908, R931). -/
def lcdOp (op : PublicOp) (body : State → Ran Unit) (s : State) : Host.Outcome State Fault Refusal :=
  complete (unitOp (whenLcdReady (holding op body))) s

/-! ## Initialization (R701 to R706) -/

/-- Init step 1 (R701): the power-rise settle, then every LCD pin an output. -/
def initStep1 (s : State) : Ran Unit :=
  (delayMs Config.T_POWER_MS s).andThen fun _ s =>
  (configureDirection s.params.lcdAddr 0x00 s).andThen fun _ s =>
  .done () (s.enterPhase .pinsConfigured)

/-- Init step 3 (R703). -/
def initStep3 (s : State) : Ran Unit :=
  (sendCommand functionSetByte s).andThen fun _ s => .done () (s.enterPhase .functionSetPhase2)

/-- Init step 4 (R704). -/
def initStep4 (s : State) : Ran Unit :=
  (sendCommand (displayByte s.params true) s).andThen fun _ s =>
  .done () (s.enterPhase .displayOnCursorConfigured)

/-- Init step 5 (R705): EntryModeSet, and then Ready with no transfer (C8). -/
def initStep5 (s : State) : Ran Unit :=
  (sendCommand entryModeByte s).andThen fun _ s => .done () (s.enterPhase .ready)

/-- `init()` (R706): the five steps. -/
def lcdInitBody (s : State) : Ran Unit :=
  (initStep1 s).andThen fun _ s =>
  (initStep2 s).andThen fun _ s =>
  (initStep3 s).andThen fun _ s =>
  (initStep4 s).andThen fun _ s =>
  initStep5 s

/-- lcd.init (R706): legal only while Unpowered (R700). -/
def execLcdInit (s : State) : Host.Outcome State Fault Refusal :=
  complete (unitOp (fun s =>
    if s.lcdPhase = .unpowered then holding .lcdInit lcdInitBody s else refuse .alreadyInitialised s)) s

/-! ## Commands (R710 to R713) -/

/-- `clear_display()` (R710): the command, then the wait. -/
def clearDisplayBody (s : State) : Ran Unit :=
  (sendCommand clearByte s).andThen fun _ s => delayUs Config.T_CLEAR_WAIT s

/-- `shift_cursor(direction, count)` (R711). -/
def shiftCursorBody (dir : Direction) (count : Nat) (s : State) : Ran Unit :=
  repeatOp (sendCommand (shiftByte dir)) count s

/-- `newline()` (R712). -/
def newline (s : State) : Ran Unit := sendCommand newlineByte s

/-- `write_char(c)` (R713). -/
def writeChar (c : Char) (s : State) : Ran Unit := sendData (charByte c) s

/-! ## write_string (R720 to R725) -/

/-- `validate(text)` (R722): NonAscii, then the newlines, then each segment's length; the first failing check is the
one reported, before any transport call (R908). -/
def validate (text : List Char) (s : State) : Ran Unit :=
  if text.all isSevenBit then
    if text.count newlineChar ≤ Config.MAX_NEWLINES then
      match (segments text).find? fun g => decide (Config.COLS < g.length) with
      | none => .done () s
      | some g => fatal .cvLineLen (.text g) s
    else fatal .cvNewlines (.text text) s
  else refuse .nonAscii s

/-- The characters of a validated text, in order (R723). -/
def sendText : List Char → State → Ran Unit
  | [], s => .done () s
  | c :: t, s => (if c = newlineChar then newline s else writeChar c s).andThen fun _ s => sendText t s

/-- `write_string(text)` (R723). -/
def writeStringBody (text : List Char) (s : State) : Ran Unit :=
  (validate text s).andThen fun _ s => sendText text s

/-! ## backspace (R730) -/

/-- One repetition of backspace: left, a blank, left. -/
def backspaceOnce (s : State) : Ran Unit :=
  (sendCommand (shiftByte .left) s).andThen fun _ s =>
  (sendData blankByte s).andThen fun _ s =>
  sendCommand (shiftByte .left) s

/-- `backspace(count)` (R730). -/
def backspaceBody (count : Nat) (s : State) : Ran Unit := repeatOp backspaceOnce count s

/-! ## Numbers (R740, R741) -/

/-- Digits, each through its own single-character `write_string` (R740). -/
def writeDigits : List Nat → State → Ran Unit
  | [], s => .done () s
  | d :: ds, s => (writeStringBody [digitChar d] s).andThen fun _ s => writeDigits ds s

/-- `write_u32(value)` (R740): five digits. -/
def writeU32Body (v : BitVec 32) (s : State) : Ran Unit := writeDigits (decimalDigits v.toNat 5) s

/-- `write_u8(value)` (R741): three digits. -/
def writeU8Body (v : Byte) (s : State) : Ran Unit := writeDigits (decimalDigits v.toNat 3) s

/-! ## Power and greeting (R750 to R752) -/

/-- `power_on()` (R750). -/
def powerOnBody (s : State) : Ran Unit := sendCommand (displayByte s.params true) s

/-- `power_off()` (R751). -/
def powerOffBody (s : State) : Ran Unit := sendCommand (displayByte s.params false) s

/-- `display_greeting()` (R752). -/
def greetingBody (s : State) : Ran Unit :=
  (clearDisplayBody s).andThen fun _ s => writeStringBody s.params.greeting s

/-! ## The rows -/

/-- lcd.power_on (R750). -/
def execLcdPowerOn (s : State) : Host.Outcome State Fault Refusal := lcdOp .lcdPowerOn powerOnBody s
/-- lcd.power_off (R751). -/
def execLcdPowerOff (s : State) : Host.Outcome State Fault Refusal := lcdOp .lcdPowerOff powerOffBody s
/-- lcd.display_greeting (R752). -/
def execLcdDisplayGreeting (s : State) : Host.Outcome State Fault Refusal := lcdOp .lcdDisplayGreeting greetingBody s
/-- lcd.write_string (R723). -/
def execLcdWriteString (text : List Char) (s : State) : Host.Outcome State Fault Refusal :=
  lcdOp .lcdWriteString (writeStringBody text) s
/-- lcd.write_u32 (R740). -/
def execLcdWriteU32 (v : BitVec 32) (s : State) : Host.Outcome State Fault Refusal := lcdOp .lcdWriteU32 (writeU32Body v) s
/-- lcd.write_u8 (R741). -/
def execLcdWriteU8 (v : Byte) (s : State) : Host.Outcome State Fault Refusal := lcdOp .lcdWriteU8 (writeU8Body v) s
/-- lcd.backspace (R730). -/
def execLcdBackspace (count : Nat) (s : State) : Host.Outcome State Fault Refusal :=
  lcdOp .lcdBackspace (backspaceBody count) s
/-- lcd.clear_display (R710). -/
def execLcdClearDisplay (s : State) : Host.Outcome State Fault Refusal := lcdOp .lcdClearDisplay clearDisplayBody s
/-- lcd.shift_cursor (R711). -/
def execLcdShiftCursor (dir : Direction) (count : Nat) (s : State) : Host.Outcome State Fault Refusal :=
  lcdOp .lcdShiftCursor (shiftCursorBody dir count) s
/-- lcd.newline, internal to write_string (R712): no hold of its own. -/
def execLcdNewline (s : State) : Host.Outcome State Fault Refusal := complete (unitOp (whenLcdReady newline)) s
/-- lcd.write_char, internal to write_string (R713): no hold of its own. -/
def execLcdWriteChar (c : Char) (s : State) : Host.Outcome State Fault Refusal :=
  complete (unitOp (whenLcdReady (writeChar c))) s

end Sys2Proof.Machine
end

