-- ==== Sys2Proof/Machine/Dispatch.lean ====
section
/-! DEFINITION. The meaning of every instruction: one arm per row of spec/opcode_table.json. -/

namespace Sys2Proof.Machine

open Sys2Proof

def exec (i : Instr) (s : State) : Host.Outcome State Fault Refusal :=
  match i with
  -- F-BUS
  | .busWrite a reg v => Sys2Proof.Machine.execBusWrite a reg v s
  | .busWriteRead a reg => Sys2Proof.Machine.execBusWriteRead a reg s
  | .read a => Sys2Proof.Machine.execRead a s
  | .write a v => Sys2Proof.Machine.execWrite a v s
  | .setBits a m => Sys2Proof.Machine.execSetBits a m s
  | .clearBits a m => Sys2Proof.Machine.execClearBits a m s
  | .configureDirection a m => Sys2Proof.Machine.execConfigureDirection a m s
  -- F-CMD
  | .nopInvalid => Sys2Proof.Machine.execNopInvalid s
  | .clearDisplay => Sys2Proof.Machine.execClearDisplay s
  | .returnHome x => Sys2Proof.Machine.execReturnHome x s
  | .entryModeSet d sh => Sys2Proof.Machine.execEntryModeSet d sh s
  | .displayControl d c b => Sys2Proof.Machine.execDisplayControl d c b s
  | .cursorDisplayShift p r x => Sys2Proof.Machine.execCursorDisplayShift p r x s
  | .functionSet l n f x => Sys2Proof.Machine.execFunctionSet l n f x s
  | .setCgramAddr a => Sys2Proof.Machine.execSetCgramAddr a s
  | .setDdramAddr a => Sys2Proof.Machine.execSetDdramAddr a s
  | .readBusyAddr x => Sys2Proof.Machine.execReadBusyAddr x s
  | .writeData d => Sys2Proof.Machine.execWriteData d s
  | .readData x => Sys2Proof.Machine.execReadData x s
  -- F-NIB
  | .writeNibble rs n => Sys2Proof.Machine.execWriteNibble rs n s
  | .sendByte rs b => Sys2Proof.Machine.execSendByte rs b s
  | .sendCommand b => Sys2Proof.Machine.execSendCommand b s
  | .sendData b => Sys2Proof.Machine.execSendData b s
  | .initNibble8bit => Sys2Proof.Machine.execInitNibble8bit s
  -- F-OP: LCD
  | .lcdInit => Sys2Proof.Machine.execLcdInit s
  | .lcdPowerOn => Sys2Proof.Machine.execLcdPowerOn s
  | .lcdPowerOff => Sys2Proof.Machine.execLcdPowerOff s
  | .lcdDisplayGreeting => Sys2Proof.Machine.execLcdDisplayGreeting s
  | .lcdWriteString text => Sys2Proof.Machine.execLcdWriteString text s
  | .lcdWriteU32 v => Sys2Proof.Machine.execLcdWriteU32 v s
  | .lcdWriteU8 v => Sys2Proof.Machine.execLcdWriteU8 v s
  | .lcdBackspace count => Sys2Proof.Machine.execLcdBackspace count s
  | .lcdClearDisplay => Sys2Proof.Machine.execLcdClearDisplay s
  | .lcdShiftCursor dir count => Sys2Proof.Machine.execLcdShiftCursor dir count s
  | .lcdNewline => Sys2Proof.Machine.execLcdNewline s
  | .lcdWriteChar c => Sys2Proof.Machine.execLcdWriteChar c s
  -- F-OP: keypad
  | .keypadInit => Sys2Proof.Machine.execKeypadInit s
  | .keypadDriveColumn c => Sys2Proof.Machine.execKeypadDriveColumn c s
  | .keypadReadRows => Sys2Proof.Machine.execKeypadReadRows s
  | .keypadRawScan => Sys2Proof.Machine.execKeypadRawScan s
  | .keypadScan => Sys2Proof.Machine.execKeypadScan s
  | .keypadScanSet => Sys2Proof.Machine.execKeypadScanSet s
  -- F-OP: timer
  | .delay unit d => Sys2Proof.Machine.execDelay unit d s

end Sys2Proof.Machine
end

