-- ==== Sys2Proof/Machine/Fetch.lean ====
section
/-! DEFINITION. What a step does around an instruction: taking the next call, the step of an idle Main, and the steps
after a fatal condition (R901, R921). -/

namespace Sys2Proof.Machine

open Sys2Proof

/-- The next call, decoded, and the state with the call taken; `none` when the Workflow layer has none. -/
def State.fetch (s : State) : Option (Except DecodeError Instr × State) :=
  match s.calls with
  | [] => none
  | r :: rest => some (decode r, { s with calls := rest })

/-- A step with no call to run: Main is between operations and holds no bus. The heartbeat may fire (R921), and a second
bus user's call takes effect (log entry 22). -/
def idleStep (s : State) : State :=
  (match (s.inputs.at 0).foreign with
   | none => s
   | some f => s.foreignCall f (s.inputs.at 0)).heartbeat

/-- A step after a fatal condition (R901). PANIC = reset: Main restarts. PANIC = halt: the state is frozen, and only
the heartbeat may still fire (R921); if it does not, nothing goes on. -/
def panicStep (code : FaultCode) (s : State) : Host.Outcome State Fault Refusal :=
  match s.params.panic with
  | .reset => .next s.restart
  | .halt =>
    match (s.inputs.at 0).beat with
    | some _ => .next s.heartbeat
    | none => .fault (.halted code)

/-- The calls to come, with this one as the only one. -/
def State.placeCall (s : State) (r : Request) : State := { s with calls := [r] }

end Sys2Proof.Machine
end

