-- ==== Sys2Proof/Machine/Step.lean ====
section
/-! DEFINITION. One step of the machine: a call of Main run to its end or its stop (R930), or one round of a debounced
scan's loop (R808), or a step after a stop (R901, R910). -/

namespace Sys2Proof.Machine

open Sys2Proof

/-- One step (log entries 6, 10, 11, 21). -/
def step (s : State) : Host.Outcome State Fault Refusal :=
  if s.refused then .refused (.runRefused s.refusedReason)
  else
    match s.fatal with
    | some code => panicStep code s
    | none =>
      match s.scanning with
      | some _ => .next (rescan s)
      | none =>
        match s.fetch with
        | none => .next (idleStep s)
        | some (.error e, _) => .refused (.undecodable e)
        | some (.ok i, t) => exec i t

/-- The state whose next step takes the instruction with this word of the opcode table: the call is placed where `step`
takes its next call (log entry 6). -/
def State.withFetchWord (s : State) (nbits w : Nat) : State := s.placeCall (tableRequest nbits w)

end Sys2Proof.Machine
end

