-- ==== Sys2Proof/Safety.lean ====
section
/-! DEFINITION. The terms the claims use: a running Main, quiet inputs, the settled LCD interface, and the part of the
controller its instructions work on. -/

namespace Sys2Proof

/-- The next `n` primitives meet no BusError and no second bus user: "A claim about a completed operation takes as its
premise that every outcome draw was ok" (R402); "Under the single agent" (R913). -/
abbrev Inputs.Quiet (i : Inputs) (n : Nat) : Prop := ∀ k < n, (i.at k).ok = true ∧ (i.at k).foreign = none

/-- Main is the only bus user (R100, D35): no draw holds a call of a second one. -/
abbrev Inputs.Alone (i : Inputs) : Prop := (∀ d ∈ i.upcoming, d.foreign = none) ∧ i.thereafter.foreign = none

/-- The time the next `n` primitives spend beyond their minimum (R151, R921). -/
def Inputs.spent (i : Inputs) : Nat → Nat
  | 0 => 0
  | n + 1 => i.spent n + ((i.at n).elapsed + (i.at n).beat.getD 0)

/-- The inputs after `n` primitives. -/
def Inputs.drop (i : Inputs) (n : Nat) : Inputs := { i with upcoming := i.upcoming.drop n }

end Sys2Proof

namespace Sys2Proof.Machine

open Sys2Proof

/-- Main takes steps: no fault and no refusal (R901, R910). -/
abbrev State.Running (s : State) : Prop := s.fatal = none ∧ s.refused = false

/-- The nibble on the data lines of a register value: bit i from D(4+i) (R204, R302). -/
def dataNibble (p : Params) (v : Byte) : Nibble :=
  BitVec.ofBool (v.getLsbD p.pinD7) ++ BitVec.ofBool (v.getLsbD p.pinD6) ++ BitVec.ofBool (v.getLsbD p.pinD5) ++
    BitVec.ofBool (v.getLsbD p.pinD4)

/-- The LCD interface is wired and quiet: the LCD pins are outputs with EN low, the controller's view agrees with the
lines, and enough time has passed since its last edges for a nibble to meet the bounds of R501 and R503 (R602). The
controller is not undefined. -/
structure State.Wired (s : State) : Prop where
  params : s.params.distinct
  outputs : s.lcdChip.dir = 0
  enableLow : s.lcdChip.out.getLsbD s.params.pinEN = false
  viewEn : s.ctl.lcd.en = false
  viewRs : s.ctl.lcd.rs = s.lcdChip.out.getLsbD s.params.pinRS
  viewDb : s.ctl.lcd.db = dataNibble s.params s.lcdChip.out
  lines : s.ctl.lcd.tLines ≤ s.now
  cycle : ∀ tr, s.ctl.lcd.tRise = some tr → tr + Config.T_CYC ≤ s.now
  defined : s.ctl.undefined = false

/-- The LCD interface is settled: wired, and the controller's last instruction is complete (R502, R520). -/
structure State.Settled (s : State) : Prop extends s.Wired where
  busy : s.ctl.lcd.busyUntil ≤ s.now

/-- The controller receives whole bytes as two nibbles, the next one a high nibble (R311). -/
abbrev State.FourBit (s : State) : Prop := s.ctl.lcd.dl = .four ∧ s.ctl.lcd.phase = .hi

/-- The part of the controller its instructions work on: modes, address counter, DDRAM and shift (R111, R113 to R118).
The fields of the interface and of time (R112, R119, R120) are blotted out. -/
def Lcd.screen (l : Lcd) : Lcd :=
  { l with phase := .hi, pendHi := 0, pendRs := false, busyUntil := 0, en := false, rs := false, db := 0,
           tRise := none, tLines := 0 }

/-- The controller with its interface and time blotted out. -/
def Controller.view (k : Controller) : Controller := { k with lcd := k.lcd.screen }

/-- The controller's state after the first Clear display, while the driver is its only writer (R521). -/
structure State.Cleared (s : State) : Prop where
  unshifted : s.ctl.lcd.shift = 0
  increments : s.ctl.lcd.id = true
  noShift : s.ctl.lcd.s = false
  twoLines : s.ctl.lcd.n = true
  legal : legalAddr true s.ctl.lcd.ac = true

/-- `t` differs from `s` only in what transfers to the LCD chip touch: that chip, the controller behind it, TRACE,
`now` and the inputs used up. Every other field of `State` is as it was: a frame. -/
def State.LcdOnly (s t : State) : Prop :=
  t = { s with lcdChip := t.lcdChip, ctl := t.ctl, trace := t.trace, now := t.now, inputs := t.inputs }

/-- `t` differs from `s` only in what transfers to the keypad chip touch: that chip, TRACE, `now` and the inputs used
up. Every other field of `State` is as it was: a frame. A controller that is not undefined is as it was; one that is
undefined stays so, and its fields stay unconstrained (R123). -/
structure State.KeypadOnly (s t : State) : Prop where
  frame : t = { s with kpChip := t.kpChip, ctl := t.ctl, trace := t.trace, now := t.now, inputs := t.inputs }
  mark : t.ctl.undefined = s.ctl.undefined
  ctl : s.ctl.undefined = false → t.ctl = s.ctl

/-- `BUS_OWNER` is set only during a debounced scan's loop, between the steps of a machine that runs (R931). -/
abbrev State.BusFree (s : State) : Prop := s.busOwner = none ∧ s.scanning = none

/-- The target of a transport call. -/
def BusCall.target : BusCall → BusAddr
  | .w a _ => a
  | .wr a _ _ => a

/-- `n` transport calls, all completed and all to the chip at `a`, were added to TRACE (R150). -/
def State.Issued (s t : State) (a : BusAddr) (n : Nat) : Prop :=
  ∃ new, t.trace = s.trace ++ new ∧ new.length = n ∧ ∀ e ∈ new, e.err = false ∧ e.call.target = a

/-- The LCD driver may start an operation: Main runs, no operation holds the bus, `lcd_phase` is Ready (R700), and the
controller expects a byte's high nibble on a settled interface. -/
structure State.LcdReady (s : State) : Prop extends s.Settled where
  running : s.Running
  free : s.BusFree
  phase : s.lcdPhase = .ready
  fourBit : s.FourBit

/-- What every completed LCD operation of `bytes` bytes leaves, beside the controller's view: the frame, the inputs used
up (11 for each nibble, and `waits` delays), the least time (R611), the LCD chip's unused bits (R608), 16 transport calls
for each byte (R603), and the driver ready again. -/
structure State.LcdDone (s t : State) (bytes waits least : Nat) : Prop where
  frame : ({ s with ret := some .unit } : State).LcdOnly t
  inputs : t.inputs = s.inputs.drop (22 * bytes + waits)
  time : s.now + least ≤ t.now
  unused : t.lcdChip.out &&& ~~~(lcdAllMask s.params) = s.lcdChip.out &&& ~~~(lcdAllMask s.params)
  issued : s.Issued t s.params.lcdAddr (16 * bytes)
  ready : t.LcdReady

/-- The LCD interface as `lcd.init` needs it: Unpowered, the controller in 8-bit mode as it is after power-on, its
instructions complete by the end of the power-rise settle (R119), no Enable edge on record that the first one could
follow too soon, and EN low in the output latch (R1003). -/
structure State.ColdInterface (s : State) : Prop where
  params : s.params.distinct
  phase : s.lcdPhase = .unpowered
  eightBit : s.ctl.lcd.dl = .eight
  enableLow : s.lcdChip.out.getLsbD s.params.pinEN = false
  viewEn : s.ctl.lcd.en = false
  lines : s.ctl.lcd.tLines ≤ s.now
  cycle : ∀ tr, s.ctl.lcd.tRise = some tr → tr + Config.T_CYC ≤ s.now + Config.T_POWER
  busy : s.ctl.lcd.busyUntil ≤ s.now + Config.T_POWER
  defined : s.ctl.undefined = false

/-- The state from which `lcd.init` is correct: a cold interface, Main running, and no operation holding the bus. -/
structure State.Cold (s : State) : Prop extends s.ColdInterface where
  running : s.Running
  free : s.BusFree

/-- The keypad is initialised: `kp_phase` is Ready, Main runs, no operation holds the bus, the rows are inputs and the
columns outputs (R802). -/
structure State.KeypadReady (s : State) : Prop where
  params : s.params.distinct
  running : s.Running
  free : s.BusFree
  phase : s.kpPhase = .ready
  dir : s.kpChip.dir = rowsMask s.params

/-- The transport calls of one pass over the columns (R806). -/
def passCalls (p : Params) : Nat :=
  match p.columnDrive with
  | .exclusive => 6
  | .latched => 9

/-- A column stands in the connected component of a row's net: a path of pressed keys joins them (R805). -/
inductive SameNet (held : List Key) (r : Row) : Column → Prop where
  | key {c : Column} : keyAt c r ∈ held → SameNet held r c
  | path {c c' : Column} {r' : Row} :
    SameNet held r c → keyAt c r' ∈ held → keyAt c' r' ∈ held → SameNet held r c'

/-- The keys of the rows that are high at each column's read, the row pins being inputs: the columns in order, and each
column's rows in order (R806, R809). `chip` and `draw` are the keypad chip and the draw at a column's read. -/
def keysSeen (p : Params) (chip : Column → Chip) (draw : Column → Draw) : List Key :=
  columns.flatMap fun c => (rows.filter (rowLevel p (chip c) (draw c))).map (keyAt c)

/-- The state after `drive_column` under `latched` has set the column's bit in what the pins read (R803, R406). -/
def State.latchColumn (s : State) (c : Column) (d : Draw) : State :=
  { s with kpChip := { s.kpChip with out := s.pins d .kp ||| pinMask (columnPin s.params c) } }

/-- Exactly the key `k` is held: a lone key (R806). -/
def LoneKey (d : Draw) (k : Key) : Prop := ∀ x, x ∈ d.held ↔ x = k

/-- What a completed keypad operation that returns `v` leaves, beside the chip's register: the frame, the number of
transport calls, all completed and none to another chip (R813), and the draws used up. -/
structure State.KeypadDone (s t : State) (v : RetVal) (transports waits : Nat) : Prop where
  frame : ({ s with ret := some v } : State).KeypadOnly t
  inputs : t.inputs = s.inputs.drop (transports + waits)
  issued : s.Issued t s.params.kpAddr transports

/-- The public operations of R932 as they are called legally, each with the number of primitives (transport calls and
delays) it makes when every one completes: 22 for a byte (R603), 79 for `lcd.init` (R706), the passes of R806. For
`keypad.scan` it is the first pass. -/
inductive State.PublicCall (s : State) : Instr → PublicOp → Nat → Prop where
  | lcdInit : s.lcdPhase = .unpowered → s.PublicCall .lcdInit .lcdInit 79
  | powerOn : s.lcdPhase = .ready → s.PublicCall .lcdPowerOn .lcdPowerOn 22
  | powerOff : s.lcdPhase = .ready → s.PublicCall .lcdPowerOff .lcdPowerOff 22
  | greeting : s.lcdPhase = .ready → ValidText s.params.greeting →
    s.PublicCall .lcdDisplayGreeting .lcdDisplayGreeting (23 + 22 * s.params.greeting.length)
  | writeString {text : List Char} : s.lcdPhase = .ready → ValidText text →
    s.PublicCall (.lcdWriteString text) .lcdWriteString (22 * text.length)
  | writeU32 {v : BitVec 32} : s.lcdPhase = .ready → s.PublicCall (.lcdWriteU32 v) .lcdWriteU32 110
  | writeU8 {v : Byte} : s.lcdPhase = .ready → s.PublicCall (.lcdWriteU8 v) .lcdWriteU8 66
  | backspace {n : Nat} : s.lcdPhase = .ready → s.PublicCall (.lcdBackspace n) .lcdBackspace (66 * n)
  | clearDisplay : s.lcdPhase = .ready → s.PublicCall .lcdClearDisplay .lcdClearDisplay 23
  | shiftCursor {d : Direction} {n : Nat} : s.lcdPhase = .ready →
    s.PublicCall (.lcdShiftCursor d n) .lcdShiftCursor (22 * n)
  | keypadInit : s.kpPhase = .uninit → s.PublicCall .keypadInit .keypadInit 1
  | scan : s.kpPhase = .ready → s.PublicCall .keypadScan .keypadScan (passCalls s.params)
  | scanSet : s.kpPhase = .ready → s.PublicCall .keypadScanSet .keypadScanSet (passCalls s.params)

/-- DDRAM's canonical form. -/
abbrev State.DdramWf (s : State) : Prop := Memory.wf s.ctl.lcd.ddram

/-- The mark of a finished init agrees with `lcd_phase`, from the moment an init of the run has configured the pins
(log entry 16). -/
abbrev State.InitMarked (s : State) : Prop := s.lcdPhase = .unpowered ∨ s.ctl.afterInit = (s.lcdPhase == .ready)

end Sys2Proof.Machine
end

