-- ==== Sys2Proof/Certificates/Slice0/Obligations.lean ====
section
/-! DEFINITION. The statements for the provers. -/

open Sys2Proof Sys2Proof.Machine

/-! ## Encoding and the step (30_encoding, R930) -/

/-- When the next call decodes to an instruction, a step of a running Main is `exec` of it, with the call taken (R930:
one operation at a time, each to its end); and a word of the opcode table placed as the next call is run so. That a step
takes the next entry of the list `calls`, and that a placed table word is an F-NIB or F-CMD word by its width, is the
model's choice (log entry 6); so is the form of a typed call (log entry 7). -/
def Obligations.StepRunsTheDecodedCall : Prop :=
  (∀ (s : State) (r : Request) (rest : List Request) (i : Instr), s.Running → s.scanning = none →
    s.calls = r :: rest → decode r = .ok i → step s = exec i { s with calls := rest }) ∧
  ∀ (s : State) (nbits w : Nat) (i : Instr), s.Running → s.scanning = none → decodeTableWord nbits w = some i →
    step (s.withFetchWord nbits w) = exec i { s with calls := [] }

/-- Words written out from the tables of R301, R304, R307 and R314 decode to their instructions. That the 5-bit word
0b00010 is the row `init_nibble_8bit`, and no `write_nibble`, is the model's choice (log entry 8); so is the form of the
typed call (log entry 7). -/
def Obligations.WrittenWordsDecode : Prop :=
  decode (.cmd 0b0000000000) = .ok .nopInvalid ∧
  decode (.cmd 0b0000000001) = .ok .clearDisplay ∧
  decode (.cmd 0b0000001110) = .ok (.displayControl true true false) ∧
  decode (.cmd 0b0000010100) = .ok (.cursorDisplayShift false true 0) ∧
  decode (.cmd 0b0000101000) = .ok (.functionSet false true false 0) ∧
  decode (.cmd 0b0011000000) = .ok (.setDdramAddr 0x40) ∧
  decode (.cmd 0b1001000001) = .ok (.writeData 0x41) ∧
  decode (.nib 0b10100) = .ok (.writeNibble true 0x4) ∧
  decode (.nib 0b00010) = .ok .initNibble8bit ∧
  decode (.frameW 0x20 [0x09, 0x45]) = .ok (.busWrite 0x20 0x09 0x45) ∧
  decode (.frameWR 0x21 [0x09] 1) = .ok (.busWriteRead 0x21 0x09) ∧
  decode (.call .lcdWriteU8 [.u8 7]) = .ok (.lcdWriteU8 7)

/-- Every one of the 1024 words is one controller instruction, whose encoding is that word, and nothing wider is one. -/
def Obligations.EveryCommandWordIsOneInstruction : Prop :=
  (∀ w < 1024, ∃ c : Cmd, decode (.cmd w) = .ok c.toInstr ∧ (encodeCmd c).toNat = w ∧
    ∀ c' : Cmd, (encodeCmd c').toNat = w → c' = c) ∧
  ∀ w, 1024 ≤ w → decode (.cmd w) = .error .wideCommandWord

/-- Decoding what an instruction is delivered as gives the instruction, every operand at every value. -/
def Obligations.DecodeOfEncode : Prop :=
  ∀ i : Instr, i.wellFormed = true → decode (encode i) = .ok i

/-- `datamask` asserts the bits of the nibble on the data lines and no other bit (R305, R204). -/
def Obligations.DatamaskAssertsTheNibble : Prop :=
  ∀ (p : Params), p.distinct → ∀ n : Nibble,
    (dataMask p n).getLsbD p.pinD4 = n.getLsbD 0 ∧ (dataMask p n).getLsbD p.pinD5 = n.getLsbD 1 ∧
    (dataMask p n).getLsbD p.pinD6 = n.getLsbD 2 ∧ (dataMask p n).getLsbD p.pinD7 = n.getLsbD 3 ∧
    (∀ j : Pin, j ∉ [p.pinD4, p.pinD5, p.pinD6, p.pinD7] → (dataMask p n).getLsbD j = false) ∧ dataMask p 0 = 0

/-- The key map (R801): its twelve entries, and it is a bijection between the 12 (column, row) pairs and the 12 keys. -/
def Obligations.KeyMapIsABijection : Prop :=
  (keyAt .c1 .r1 = .k1 ∧ keyAt .c2 .r1 = .k2 ∧ keyAt .c3 .r1 = .k3 ∧
    keyAt .c1 .r2 = .k4 ∧ keyAt .c2 .r2 = .k5 ∧ keyAt .c3 .r2 = .k6 ∧
    keyAt .c1 .r3 = .k7 ∧ keyAt .c2 .r3 = .k8 ∧ keyAt .c3 .r3 = .k9 ∧
    keyAt .c1 .r4 = .star ∧ keyAt .c2 .r4 = .k0 ∧ keyAt .c3 .r4 = .pound) ∧
  (∀ c c' : Column, ∀ r r' : Row, keyAt c r = keyAt c' r' → c = c' ∧ r = r') ∧ ∀ k : Key, ∃ c r, keyAt c r = k

/-! ## Reset (70_reset_and_hazards R1000) -/

/-- The power-on state, for every parameters and inputs: each value R1000 states. What it calls unspecified is free. -/
def Obligations.ResetIsThePowerOnState : Prop :=
  ∀ (p : Params) (i : Inputs),
    let s := State.resetWith p i
    (s.lcdChip = { out := p.expResetOut, dir := p.expResetDir } ∧ s.kpChip = { out := p.expResetOut, dir := p.expResetDir }) ∧
    (s.ctl.lcd.dl = .eight ∧ s.ctl.lcd.phase = .hi ∧ s.ctl.lcd.d = false ∧ s.ctl.lcd.id = true ∧ s.ctl.lcd.s = false ∧
      s.ctl.lcd.busyUntil = 10000) ∧
    (s.ctl.lcd.en = false ∧ s.ctl.lcd.rs = false ∧ s.ctl.lcd.db = 0 ∧ s.ctl.lcd.tRise = none ∧ s.ctl.lcd.tLines = 0 ∧
      s.ctl.undefined = false) ∧
    (s.lcdPhase = .unpowered ∧ s.kpPhase = .uninit ∧ s.trace = [] ∧ s.now = 0) ∧
    (s.fatal = none ∧ s.refused = false ∧ s.busOwner = none)

/-- What the steps keep, and what `lcd.init` starts from, hold at power-on (R1000): DDRAM's canonical form, no operation
holds the bus, the mark of a finished init agrees with `lcd_phase`, and, when EXP_RESET_OUT leaves EN low, the premises of `lcd.init`'s correctness (R1003). The parameters of
the machine after reset, which the model names (log entry 5), meet the constraints of R12 and R13. -/
def Obligations.ResetMeetsTheInvariants : Prop :=
  State.reset.DdramWf ∧ State.reset.params.wf ∧ ∀ (p : Params) (i : Inputs), (State.resetWith p i).DdramWf ∧
    (State.resetWith p i).BusFree ∧ (State.resetWith p i).InitMarked ∧
    (p.distinct → p.expResetOut.getLsbD p.pinEN = false → (State.resetWith p i).Cold)

/-! ## The controller's instructions (41_hd44780_controller) -/

/-- `inc` and `dec` as R509 writes them, each the other's inverse on the legal addresses of the mode. -/
def Obligations.AddressStepsAreInverse : Prop :=
  (∀ x : DdAddr, incAc true x = (if x = 0x27 then 0x40 else if x = 0x67 then 0x00 else x + 1) ∧
    decAc true x = (if x = 0x00 then 0x67 else if x = 0x40 then 0x27 else x - 1)) ∧
  (∀ x : DdAddr, legalAddr false x = true → (incAc false x).toNat = (x.toNat + 1) % 0x50 ∧
    decAc false x = (if x = 0x00 then 0x4F else x - 1)) ∧
  ∀ (n : Bool) (x : DdAddr), legalAddr n x = true →
    legalAddr n (incAc n x) = true ∧ legalAddr n (decAc n x) = true ∧ decAc n (incAc n x) = x ∧ incAc n (decAc n x) = x

/-- Clear display (R510, R520): every legal cell holds a blank and no other cell changes, AC = 0, shift = 0, ID = 1, and
the busy time is T_EXEC_CLEAR; nothing else changes. -/
def Obligations.ClearDisplayBlanksAndHomes : Prop :=
  ∀ s : State, s.ctl.undefined = false → ∃ t, exec .clearDisplay s = .next t ∧
    (∀ a : DdAddr, legalAddr s.ctl.lcd.n a = true → t.ctl.lcd.ddram.read a.toNat = some 0x20) ∧
    (∀ a : DdAddr, legalAddr s.ctl.lcd.n a = false → t.ctl.lcd.ddram.read a.toNat = s.ctl.lcd.ddram.read a.toNat) ∧
    t = { s with ctl := { s.ctl with lcd := { s.ctl.lcd with
      ddram := t.ctl.lcd.ddram, ac := 0x00, shift := 0, id := true, busyUntil := s.now + 1520 } } }

/-- Return home, Entry mode set, Display on/off control and Set DDRAM address write their fields and the busy time, and
nothing else (R511, R512, R513, R517, R520): the address is legal under N, the N = 1 map has it, and after init it is the
newline's, 0x40; every other address sets the mark (`MeaninglessWordsSetTheMark`). That R530's list holds after init and
R517 with R312 alone before its end is the model's reading (DEDUCED, log entry 16). -/
def Obligations.ModeInstructionsWriteTheirFields : Prop :=
  ∀ s : State, s.ctl.undefined = false →
    (∀ x, exec (.returnHome x) s = .next { s with ctl := { s.ctl with lcd := { s.ctl.lcd with
      ac := 0x00, shift := 0, busyUntil := s.now + 1520 } } }) ∧
    (∀ i sh, exec (.entryModeSet i sh) s = .next { s with ctl := { s.ctl with lcd := { s.ctl.lcd with
      id := i, s := sh, busyUntil := s.now + 37 } } }) ∧
    (∀ d c b, exec (.displayControl d c b) s = .next { s with ctl := { s.ctl with lcd := { s.ctl.lcd with
      d := d, c := c, b := b, busyUntil := s.now + 37 } } }) ∧
    ∀ a, legalAddr s.ctl.lcd.n a = true → legalAddr true a = true → (s.ctl.afterInit = true → a = 0x40) →
      exec (.setDdramAddr a) s = .next { s with ctl := { s.ctl with lcd :=
        { s.ctl.lcd with ac := a, busyUntil := s.now + 37 } } }

/-- Cursor or display shift (R514): with P = 0 and AC on the map, the cursor steps right or left; with P = 1 the shift
moves by one place modulo 40; nothing else changes but the busy time. With AC off the map (still unspecified, R1019, or
left there by a change of N), P = 0 still runs, with DDRAM and the code of every cell, written or not, unchanged, and AC is
then free: the model's choice (log entry 15). -/
def Obligations.CursorOrDisplayShiftMovesOne : Prop :=
  ∀ (s : State) (r : Bool) (x : BitVec 2), s.ctl.undefined = false →
    (legalAddr s.ctl.lcd.n s.ctl.lcd.ac = true →
      exec (.cursorDisplayShift false r x) s = .next { s with ctl := { s.ctl with lcd := { s.ctl.lcd with
        ac := if r then incAc s.ctl.lcd.n s.ctl.lcd.ac else decAc s.ctl.lcd.n s.ctl.lcd.ac
        busyUntil := s.now + 37 } } }) ∧
    (legalAddr s.ctl.lcd.n s.ctl.lcd.ac = false → ∃ t, exec (.cursorDisplayShift false r x) s = .next t ∧
      t.ctl.undefined = false ∧ (∀ a, t.cellCode a = s.cellCode a) ∧ t.ctl.lcd = { s.ctl.lcd with ac := t.ctl.lcd.ac, busyUntil := s.now + 37 } ∧
      t = { s with ctl := t.ctl }) ∧
    ∃ t, exec (.cursorDisplayShift true r x) s = .next t ∧
      t.ctl.lcd.shift.val = (s.ctl.lcd.shift.val + (if r then 39 else 1)) % 40 ∧
      t = { s with ctl := { s.ctl with lcd := { s.ctl.lcd with shift := t.ctl.lcd.shift, busyUntil := s.now + 37 } } }

/-- Function set (R515, R520), before the end of init: from 8-bit mode it sets DL, N and F and the phase HI; in 4-bit
mode with L = 0 it sets N and F; in 4-bit mode with L = 1 it sets LCD_UNDEFINED. After init every Function set sets
LCD_UNDEFINED (R530, D32). Where init ends, and that R530's list is followed over R515 after it, is the model's reading
(DEDUCED, log entry 16). -/
def Obligations.FunctionSetSetsTheMode : Prop :=
  ∀ (s : State) (l n f : Bool) (x : BitVec 2), s.ctl.undefined = false →
    (s.ctl.afterInit = false → s.ctl.lcd.dl = .eight → exec (.functionSet l n f x) s = .next { s with ctl := { s.ctl with lcd :=
      { s.ctl.lcd with
        dl := if l then .eight else .four, n := n, f := f, phase := .hi, busyUntil := s.now + 37 } } }) ∧
    (s.ctl.afterInit = false → s.ctl.lcd.dl = .four → l = false → exec (.functionSet l n f x) s = .next { s with ctl := { s.ctl with lcd :=
      { s.ctl.lcd with n := n, f := f, busyUntil := s.now + 37 } } }) ∧
    (s.ctl.afterInit = true ∨ (s.ctl.lcd.dl = .four ∧ l = true) → ∃ t, exec (.functionSet l n f x) s = .next t ∧
      t.ctl.undefined = true ∧ t = { s with ctl := t.ctl })

/-- Write data (R518): with AC on the map, the cell at AC takes the code and no other cell changes, AC steps by ID, and
the display shifts by ID when S = 1. With AC off the map the write still runs; AC is then free, and every cell is
unspecified: the model's choice (log entry 15). -/
def Obligations.WriteDataStoresAtTheCursor : Prop :=
  ∀ (s : State) (d : Byte), s.ctl.undefined = false → ∃ t, exec (.writeData d) s = .next t ∧
    t.ctl.undefined = false ∧
    t.ctl.lcd.shift.val = (if s.ctl.lcd.s then (s.ctl.lcd.shift.val + (if s.ctl.lcd.id then 1 else 39)) % 40
      else s.ctl.lcd.shift.val) ∧
    t.ctl.lcd = { s.ctl.lcd with
      ddram := t.ctl.lcd.ddram, ac := t.ctl.lcd.ac, shift := t.ctl.lcd.shift, busyUntil := s.now + 37 } ∧
    t = { s with ctl := t.ctl } ∧
    (legalAddr s.ctl.lcd.n s.ctl.lcd.ac = true →
      t.ctl.lcd.ddram.read s.ctl.lcd.ac.toNat = some d ∧
      (∀ a, a ≠ s.ctl.lcd.ac.toNat → t.ctl.lcd.ddram.read a = s.ctl.lcd.ddram.read a) ∧
      t.ctl.lcd.ac = (if s.ctl.lcd.id then incAc s.ctl.lcd.n s.ctl.lcd.ac else decAc s.ctl.lcd.n s.ctl.lcd.ac))

/-- The words the controller gives no meaning set LCD_UNDEFINED and stop nothing: Main's state is as it was (R312, R516,
R519, R530, R912); so does Set DDRAM address with an address that is illegal under N (R517) or that the N = 1 map lacks
(R312), and after init with any address but the newline's, 0x40 (R530, D32). For the two reads, and for the last two kinds
of address, it is the model's reading (log entry 16). -/
def Obligations.MeaninglessWordsSetTheMark : Prop :=
  ∀ s : State, (∃ t, exec .nopInvalid s = .next t ∧ t.ctl.undefined = true ∧ t = { s with ctl := t.ctl }) ∧
    (∀ a, ∃ t, exec (.setCgramAddr a) s = .next t ∧ t.ctl.undefined = true ∧ t = { s with ctl := t.ctl }) ∧
    (∀ x, ∃ t, exec (.readBusyAddr x) s = .next t ∧ t.ctl.undefined = true ∧ t = { s with ctl := t.ctl }) ∧
    (∀ x, ∃ t, exec (.readData x) s = .next t ∧ t.ctl.undefined = true ∧ t = { s with ctl := t.ctl }) ∧
    ∀ a, legalAddr s.ctl.lcd.n a = false ∨ legalAddr true a = false ∨ (s.ctl.afterInit = true ∧ a ≠ 0x40) →
      ∃ t, exec (.setDdramAddr a) s = .next t ∧ t.ctl.undefined = true ∧ t = { s with ctl := t.ctl }

/-- LCD_UNDEFINED is sticky: no step clears it (R123). -/
def Obligations.UndefinedIsSticky : Prop :=
  ∀ s t : State, step s = .next t → s.ctl.undefined = true → t.ctl.undefined = true

/-! ## The transport and the register model (40_gpio_expander) -/

/-- BusWrite (R400, R402, R409, R410): one entry of TRACE, marked `err` when the call fails; the register takes the
value when the call completes, or fails having taken it. That the bare call returns its result and raises nothing is the
model's reading (log entry 18). -/
def Obligations.BusWriteActsOnItsChip : Prop :=
  ∀ (s : State) (a : BusAddr) (reg v : Byte) (c : ChipId) (r : ChipReg), s.Running →
    chipAt s.params a = some c → regAt s.params reg = some r → (s.inputs.at 0).foreign = none →
    ∃ t, exec (.busWrite a reg v) s = .next t ∧ t.ret = some (.transport (s.inputs.at 0).ok) ∧
      t.now = s.now + s.inputs.spent 1 ∧ t.inputs = s.inputs.drop 1 ∧
      t.trace = s.trace ++ [{ call := .w a [reg, v], err := !(s.inputs.at 0).ok, time := t.now }] ∧
      t.chip c = (if (s.inputs.at 0).ok || (s.inputs.at 0).took then (s.chip c).set r v else s.chip c) ∧
      (c = .kp → ({ s with ret := t.ret } : State).KeypadOnly t) ∧
      (c = .lcd → ({ s with ret := t.ret } : State).LcdOnly t) ∧
      (c = .lcd → s.ctl.undefined = false → ((s.inputs.at 0).ok || (s.inputs.at 0).took) = false → t.ctl = s.ctl)

/-- BusWriteRead and `read` (R103, R401, R404, R411): a completed call returns PINS, the latch on output pins and the
outside level on input pins, and TRACE's one entry shows it (R150); the chips, the lines and the controller are as they
were. That a failed bare BusWriteRead returns no value and raises nothing is the model's reading (log entry 18). -/
def Obligations.ReadsReturnThePins : Prop :=
  ∀ (s : State) (a : BusAddr) (c : ChipId), s.Running → chipAt s.params a = some c → (s.inputs.at 0).foreign = none →
    (∀ i : Pin, (s.pins (s.inputs.at 0) c).getLsbD i =
      if (s.chip c).dir.getLsbD i then (s.ext (s.inputs.at 0) c).getLsbD i else (s.chip c).out.getLsbD i) ∧
    (∃ t b, exec (.busWriteRead a s.params.regGpio) s = .next t ∧
      ((s.inputs.at 0).ok = true → b = s.pins (s.inputs.at 0) c) ∧
      t.ret = some (.transportRead (if (s.inputs.at 0).ok then some (s.pins (s.inputs.at 0) c) else none)) ∧
      t.trace = s.trace ++
        [{ call := .wr a [s.params.regGpio] [b], err := !(s.inputs.at 0).ok, time := s.now + s.inputs.spent 1 }] ∧
      t.inputs = s.inputs.drop 1 ∧ t.kpChip = s.kpChip ∧ ({ s with ret := t.ret } : State).KeypadOnly t) ∧
    ((s.inputs.at 0).ok = true → ∃ t v, exec (.read a) s = .next t ∧ v = s.pins (s.inputs.at 0) c ∧
      t.ret = some (.byte v) ∧
      t.trace = s.trace ++
        [{ call := .wr a [s.params.regGpio] [v], err := false, time := s.now + s.inputs.spent 1 }] ∧
      t.inputs = s.inputs.drop 1 ∧ t.kpChip = s.kpChip ∧ ({ s with ret := t.ret } : State).KeypadOnly t)

/-- `write` (R405, R409): OUT takes all 8 bits, DIR and the other chip are as they were, and on the LCD chip the
controller samples the new levels at the completion instant (R500). -/
def Obligations.WriteSetsTheLatch : Prop :=
  ∀ (s : State) (a : BusAddr) (v : Byte) (c : ChipId), s.Running →
    chipAt s.params a = some c → s.inputs.Quiet 1 →
    ∃ t, exec (.write a v) s = .next t ∧ t.ret = some .unit ∧ t.chip c = { s.chip c with out := v } ∧
      t.trace = s.trace ++ [{ call := .w a [s.params.regGpio, v], err := false, time := t.now }] ∧
      t.inputs = s.inputs.drop 1 ∧ t.now = s.now + s.inputs.spent 1 ∧
      (c = .kp → ({ s with ret := some .unit } : State).KeypadOnly t) ∧
      (c = .lcd → ({ s with ret := some .unit } : State).LcdOnly t ∧
        (s.ctl.undefined = false → t.ctl = s.ctl.sample t.now (s.inputs.at 0).lo (lcdLines s.params t.lcdChip (s.inputs.at 0) s.ctl.lcd.en)))

/-- One write that changes EN together with RS or a data line sets LCD_UNDEFINED (R503), whichever register it is to. -/
def Obligations.SimultaneousChangeSetsTheMark : Prop :=
  ∀ (s : State) (reg v : Byte) (r : ChipReg), s.Running → regAt s.params reg = some r → s.inputs.Quiet 1 →
    s.ctl.undefined = false →
    (let new := lcdLines s.params (s.lcdChip.set r v) (s.inputs.at 0) s.ctl.lcd.en
     new.en ≠ s.ctl.lcd.en ∧ (new.rs ≠ s.ctl.lcd.rs ∨ new.db ≠ s.ctl.lcd.db)) →
    ∃ t, exec (.busWrite s.params.lcdAddr reg v) s = .next t ∧ t.ctl.undefined = true ∧ t.fatal = none

/-- What a completed write to the LCD chip shows the controller, and the Enable timing (R500 to R502, R505, R508, R122).
The levels: an output pin's OUT bit; a floating EN keeps its level, and a floating RS or data line is drawn. With EN
unchanged nothing is latched, and `t_lines` is the instant of a change. A rise sets the mark exactly when the address
setup (40 us) or the cycle (500 us) is too short. A fall after a pulse shorter than 230 us, after lines that changed
while EN was high, or before `busy_until` sets the mark; any other latches the levels held, here as a high nibble. -/
def Obligations.EnableEdgesAreTimed : Prop :=
  ∀ (s : State) (reg v : Byte) (r : ChipReg), s.Running → regAt s.params reg = some r → s.inputs.Quiet 1 →
    s.ctl.undefined = false →
    let chip := s.lcdChip.set r v
    let d := s.inputs.at 0
    let level := fun (i : Pin) (floating : Bool) => if chip.dir.getLsbD i then floating else chip.out.getLsbD i
    let en := level s.params.pinEN s.ctl.lcd.en
    let rs := level s.params.pinRS (d.ext.getLsbD s.params.pinRS)
    let l := s.ctl.lcd
    ∃ (t : State) (db : Nibble), exec (.busWrite s.params.lcdAddr reg v) s = .next t ∧ t.lcdChip = chip ∧
      db.getLsbD 0 = level s.params.pinD4 (d.ext.getLsbD s.params.pinD4) ∧
      db.getLsbD 1 = level s.params.pinD5 (d.ext.getLsbD s.params.pinD5) ∧
      db.getLsbD 2 = level s.params.pinD6 (d.ext.getLsbD s.params.pinD6) ∧
      db.getLsbD 3 = level s.params.pinD7 (d.ext.getLsbD s.params.pinD7) ∧
      (en = l.en → t.ctl = { s.ctl with lcd := { l with
        rs := rs, db := db, tLines := if rs = l.rs ∧ db = l.db then l.tLines else t.now } }) ∧
      (rs = l.rs → db = l.db → l.en = false → en = true →
        (t.ctl.undefined = true ↔ t.now < l.tLines + 40 ∨ ∃ tr, l.tRise = some tr ∧ t.now < tr + 500) ∧
        (t.ctl.undefined = false → t.ctl = { s.ctl with lcd := { l with en := true, tRise := some t.now } })) ∧
      (∀ tr, rs = l.rs → db = l.db → l.en = true → en = false → l.tRise = some tr →
        (t.now < tr + 230 ∨ tr < l.tLines ∨ t.now < l.busyUntil → t.ctl.undefined = true) ∧
        (tr + 230 ≤ t.now → l.tLines ≤ tr → l.busyUntil ≤ t.now → l.dl = .four → l.phase = .hi →
          t.ctl = { s.ctl with lcd := { l with en := false, phase := .lo, pendHi := l.db, pendRs := l.rs } }))

/-- `set_bits` and `clear_bits` (R406, R407): the value read is PINS, and `v | m` or `v & ~m` is written back whole, in
two transport calls. -/
def Obligations.BitOperationsReadThenWrite : Prop :=
  ∀ (s : State) (a : BusAddr) (m : Byte) (c : ChipId), s.Running →
    chipAt s.params a = some c → s.inputs.Quiet 2 →
    let v := s.pins (s.inputs.at 0) c
    let completes := fun (i : Instr) (w : Byte) => ∃ t, exec i s = .next t ∧ t.ret = some .unit ∧
      t.chip c = { s.chip c with out := w } ∧ t.inputs = s.inputs.drop 2 ∧
      t.trace = s.trace ++
        [{ call := .wr a [s.params.regGpio] [v], err := false, time := s.now + s.inputs.spent 1 },
         { call := .w a [s.params.regGpio, w], err := false, time := s.now + s.inputs.spent 2 }] ∧
      (c = .kp → ({ s with ret := some .unit } : State).KeypadOnly t) ∧
      (c = .lcd → ({ s with ret := some .unit } : State).LcdOnly t)
    completes (.setBits a m) (v ||| m) ∧ completes (.clearBits a m) (v &&& ~~~m)

/-- `configure_direction` (R408, R410): from `lcd.init` or `keypad.init` every bit of DIR is replaced and OUT is as it
was; "A call outside those is refused" (R911), whatever its address, with no transport call. That Main is inside an init
while BUS_OWNER names it is the model's reading (log entry 17), and that the legality of the call is looked at before its
address is the model's choice (log entry 32). -/
def Obligations.ConfigureDirectionOnlyFromInit : Prop :=
  ∀ (s : State) (a : BusAddr) (m : Byte), s.Running →
    let fromInit := s.busOwner = some .lcdInit ∨ s.busOwner = some .keypadInit
    (fromInit → ∀ c : ChipId, chipAt s.params a = some c → s.params.distinct → s.inputs.Quiet 1 →
      ∃ t, exec (.configureDirection a m) s = .next t ∧ t.ret = some .unit ∧
        t.chip c = { s.chip c with dir := m } ∧ t.inputs = s.inputs.drop 1 ∧
        t.trace = s.trace ++ [{ call := .w a [s.params.regDir, m], err := false, time := t.now }] ∧
        (c = .kp → ({ s with ret := some .unit } : State).KeypadOnly t) ∧
        (c = .lcd → ({ s with ret := some .unit } : State).LcdOnly t)) ∧
    (¬ fromInit → exec (.configureDirection a m) s =
      .next { s with ret := none, refused := true, refusedReason := some .directionOutsideInit })

/-- A target other than the two chips and their registers is refused with no transport call (R214, R911); for
`configure_direction`, when it is called from an init (outside one: log entry 32). A read frame on a register other than
REG_GPIO is no frame of R301 and is refused alike, which is the model's reading (log entry 19). -/
def Obligations.ForeignTargetsAreRefused : Prop :=
  ∀ (s : State) (a : BusAddr), s.Running →
    (∀ i : Instr, chipAt s.params a = none → ((∃ reg v, i = .busWrite a reg v) ∨ (∃ reg, i = .busWriteRead a reg) ∨
        i = .read a ∨ (∃ v, i = .write a v) ∨ (∃ m, i = .setBits a m) ∨ (∃ m, i = .clearBits a m) ∨
        ((∃ m, i = .configureDirection a m) ∧ (s.busOwner = some .lcdInit ∨ s.busOwner = some .keypadInit))) →
      exec i s = .next { s with ret := none, refused := true, refusedReason := some .foreignTarget }) ∧
    (∀ reg v, regAt s.params reg = none → exec (.busWrite a reg v) s =
      .next { s with ret := none, refused := true, refusedReason := some .foreignTarget }) ∧
    ∀ reg, reg ≠ s.params.regGpio → exec (.busWriteRead a reg) s =
      .next { s with ret := none, refused := true, refusedReason := some .foreignTarget }

/-- A failing call is fatal at once (R402, R404 to R408, R414, R902), on either chip: after a failing read nothing is
written, inside a bit operation too; after a failing write, of `write`, of `configure_direction`, or the write half of a
bit operation, the register holds the old value or the new one. The info record names the operation and its operands;
TRACE shows the failed call, and nothing else changes. -/
def Obligations.FailedCallsAreFatal : Prop :=
  ∀ (s : State) (a : BusAddr) (c : ChipId), s.Running → chipAt s.params a = some c → s.params.distinct →
    (s.inputs.at 0).foreign = none →
    let g := s.params.regGpio
    let stops := fun (i : Instr) (op : RegOp) (chip : Chip) (took : Bool) (new : List TraceEntry) => ∃ t,
      exec i s = .next t ∧ t.chip c = chip ∧ t.trace = s.trace ++ new ∧
      (c = .kp → ({ s with ret := none, fatal := some .bus, fatalInfo := some (.bus op) } : State).KeypadOnly t) ∧
      (c = .lcd → ({ s with ret := none, fatal := some .bus, fatalInfo := some (.bus op) } : State).LcdOnly t ∧
        (took = false → s.ctl.undefined = false → t.ctl = s.ctl))
    let v := s.pins (s.inputs.at 0) c
    let halves := fun (w : Byte) => [{ call := .wr a [g] [v], err := false, time := s.now + s.inputs.spent 1 },
      { call := .w a [g, w], err := true, time := s.now + s.inputs.spent 2 : TraceEntry }]
    let kept := fun (took : Bool) (chip : Chip) => if took then chip else s.chip c
    ((s.inputs.at 0).ok = false → ∀ m : Byte, let took := (s.inputs.at 0).took
      (∀ i ∈ [Instr.read a, .setBits a m, .clearBits a m], ∃ b, stops i (.read a) (s.chip c) false
        [{ call := .wr a [g] [b], err := true, time := s.now + s.inputs.spent 1 }]) ∧
      stops (.write a m) (.write a m) (kept took { s.chip c with out := m }) took
        [{ call := .w a [g, m], err := true, time := s.now + s.inputs.spent 1 }] ∧
      (s.busOwner = some .lcdInit ∨ s.busOwner = some .keypadInit → stops (.configureDirection a m)
        (.configureDirection a) (kept took { s.chip c with dir := m }) took
        [{ call := .w a [s.params.regDir, m], err := true, time := s.now + s.inputs.spent 1 }])) ∧
    ((s.inputs.at 0).ok = true → (s.inputs.at 1).foreign = none → (s.inputs.at 1).ok = false → ∀ m : Byte,
      let took := (s.inputs.at 1).took
      stops (.setBits a m) (.write a (v ||| m)) (kept took { s.chip c with out := v ||| m }) took (halves (v ||| m)) ∧
      stops (.clearBits a m) (.write a (v &&& ~~~m)) (kept took { s.chip c with out := v &&& ~~~m }) took
        (halves (v &&& ~~~m)))

/-- A delay lets at least its argument pass and touches nothing else (R19, R151, R941). -/
def Obligations.DelayLetsTimePass : Prop :=
  ∀ (s : State) (u : TimeUnit) (d : Nat), s.Running → (s.inputs.at 0).foreign = none →
    ∃ t, exec (.delay u d) s = .next t ∧
      s.now + (match u with | .us => d | .ms => 1000 * d) + s.inputs.spent 1 = t.now ∧ t.trace = s.trace ∧
      t.kpChip = s.kpChip ∧ t.inputs = s.inputs.drop 1 ∧ ({ s with ret := some .unit } : State).KeypadOnly t

/-! ## The primitives (42_lcd_primitives) -/

/-- `write_nibble` (R600, R601, R606 to R608): the eight calls of R606 with the waveform u, u|s, u|s|M_EN, u|s, the
delays between them, and the frame, whatever the controller makes of it. -/
def Obligations.NibbleWriteIsEightCalls : Prop :=
  ∀ (s : State) (rs : Bool) (n : Nibble), s.Running → s.lcdPhase ≠ .unpowered →
    s.params.distinct → s.lcdChip.dir = 0 → s.inputs.Quiet 11 →
    let g := s.params.regGpio
    let l := s.params.lcdAddr
    let u := s.lcdChip.out &&& ~~~(lcdAllMask s.params)
    let w := u ||| ((if rs then pinMask s.params.pinRS else 0) ||| dataMask s.params n)
    let e := w ||| pinMask s.params.pinEN
    ∃ t new, exec (.writeNibble rs n) s = .next t ∧ t.trace = s.trace ++ new ∧
      new.map TraceEntry.call = [.wr l [g] [s.lcdChip.out], .w l [g, u], .wr l [g] [u], .w l [g, w],
        .wr l [g] [w], .w l [g, e], .wr l [g] [e], .w l [g, w]] ∧
      (∀ x ∈ new, x.err = false) ∧
      (∃ t4 t6 t8, new[3]?.map TraceEntry.time = some t4 ∧ new[5]?.map TraceEntry.time = some t6 ∧
        new[7]?.map TraceEntry.time = some t8 ∧ t4 + 40 ≤ t6 ∧ t6 + 230 ≤ t8 ∧ t8 + 270 ≤ t.now) ∧
      t.lcdChip = { out := w, dir := 0 } ∧ t.inputs = s.inputs.drop 11 ∧
      ({ s with ret := some .unit } : State).LcdOnly t

/-- What the controller makes of a nibble write, by its mode (R504, R505, R506, R610), and that the timing it sees is
good (R602): a high nibble is kept; a low nibble of the same RS executes the byte's word, and one of the other RS sets
LCD_UNDEFINED; in 8-bit mode the word of the nibble and the drawn low bits is executed. -/
def Obligations.NibbleIsLatchedOnce : Prop :=
  ∀ (s : State) (rs : Bool) (n : Nibble), s.Running → s.lcdPhase ≠ .unpowered → s.Settled → s.inputs.Quiet 11 →
    ∃ t, exec (.writeNibble rs n) s = .next t ∧
      (s.FourBit → t.Settled ∧ t.ctl.lcd.screen = s.ctl.lcd.screen ∧ t.ctl.lcd.busyUntil = s.ctl.lcd.busyUntil ∧
        t.ctl.lcd.phase = .lo ∧ t.ctl.lcd.pendHi = n ∧ t.ctl.lcd.pendRs = rs) ∧
      (s.ctl.lcd.dl = .four → s.ctl.lcd.phase = .lo → rs ≠ s.ctl.lcd.pendRs → t.ctl.undefined = true) ∧
      (s.ctl.lcd.dl = .four → s.ctl.lcd.phase = .lo → rs = s.ctl.lcd.pendRs →
        ∃ v, exec (decodeCmd (busWord rs (nibblePair s.ctl.lcd.pendHi n))).toInstr s = .next v ∧
          t.ctl.undefined = v.ctl.undefined ∧
          (v.ctl.undefined = false → t.ctl.lcd.screen = v.ctl.lcd.screen ∧ t.ctl.lcd.phase = .hi)) ∧
      (s.ctl.lcd.dl = .eight →
        ∃ v, exec (decodeCmd (busWord rs (nibblePair n (s.inputs.at 9).lo))).toInstr s = .next v ∧
          t.ctl.undefined = v.ctl.undefined ∧ (v.ctl.undefined = false → t.ctl.lcd.screen = v.ctl.lcd.screen))

/-- `send_byte`, `send_command` and `send_data` (R603, R604, R605): from a settled 4-bit interface, 16 transport calls
and at least 1080 us, and the controller executes the word `RS, RW = 0, b` exactly once. While Unpowered they and
`write_nibble` are refused: the model's choice of the refusal for R600's rule (log entry 20). -/
def Obligations.SendByteExecutesItsWordOnce : Prop :=
  ∀ (s : State) (rs : Bool) (b : Byte), s.Running →
    (s.lcdPhase = .unpowered → ∀ i ∈ [Instr.writeNibble rs (b.extractLsb' 0 4), .sendByte rs b, .sendCommand b, .sendData b],
      exec i s = .next { s with ret := none, refused := true, refusedReason := some .notReady }) ∧
    (s.lcdPhase ≠ .unpowered → s.Settled → s.FourBit → s.inputs.Quiet 22 →
      ∃ t v, exec (.sendByte rs b) s = .next t ∧ exec (if rs then .sendData b else .sendCommand b) s = .next t ∧
        exec (decodeCmd (busWord rs b)).toInstr s = .next v ∧
        t.ctl.undefined = v.ctl.undefined ∧
        (v.ctl.undefined = false → t.ctl.lcd.screen = v.ctl.lcd.screen ∧ t.FourBit ∧ t.Wired) ∧
        t.lcdChip.out = (s.lcdChip.out &&& ~~~(lcdAllMask s.params)) ||| assertMask s.params rs (b.extractLsb' 0 4) ∧
        s.Issued t s.params.lcdAddr 16 ∧ s.now + 1080 ≤ t.now ∧ t.inputs = s.inputs.drop 22 ∧
        ({ s with ret := some .unit } : State).LcdOnly t)

/-- The init-only nibble (R702): in 8-bit mode the nibble 0x2 is a Function set with L = 0 whose N and F are the drawn
bits 3 and 2 (R504, R515): 4-bit mode at phase HI, and `lcd_phase` moves on. Elsewhere it is refused (log entry 20). The
premise on the model's own mark holds whenever the step is reached: an invariant of `PhasesParametersAndTime`. -/
def Obligations.InitNibbleEntersFourBitMode : Prop :=
  ∀ s : State, s.Running →
    (s.lcdPhase = .pinsConfigured → s.ctl.afterInit = false → s.Settled → s.ctl.lcd.dl = .eight → s.inputs.Quiet 11 →
      ∃ t, exec .initNibble8bit s = .next t ∧ t.lcdPhase = .functionSetPhase1 ∧ t.Settled ∧ t.FourBit ∧
        t.ctl.lcd.screen = { s.ctl.lcd.screen with
          dl := .four, n := (s.inputs.at 9).lo.getLsbD 3, f := (s.inputs.at 9).lo.getLsbD 2 } ∧
        s.Issued t s.params.lcdAddr 8 ∧ t.inputs = s.inputs.drop 11 ∧
        ({ s with ret := some .unit, lcdPhase := .functionSetPhase1 } : State).LcdOnly t) ∧
    (s.lcdPhase = .unpowered → exec .initNibble8bit s =
      .next { s with ret := none, refused := true, refusedReason := some .notReady }) ∧
    (s.lcdPhase ≠ .pinsConfigured → s.lcdPhase ≠ .unpowered → exec .initNibble8bit s =
      .next { s with ret := none, refused := true, refusedReason := some .alreadyInitialised })

/-! ## The LCD operations (43_lcd_operations) -/

/-- `lcd.init` from a cold controller (R701 to R706, R1006): 57 transport calls, at least 13780 us, the pins outputs, the
controller in 4-bit mode at phase HI with N = 1, F = 0, D = 1, C and B as configured, ID = 1, S = 0, and AC, DDRAM and
shift as they were; `lcd_phase` is Ready. -/
def Obligations.InitBringsTheLcdUp : Prop :=
  ∀ s : State, s.Cold → s.inputs.Quiet 79 →
    ∃ t, exec .lcdInit s = .next t ∧ t.LcdReady ∧
      t.ctl.lcd.screen = { s.ctl.lcd.screen with
        dl := .four, n := true, f := false, d := true, c := s.params.cursorOn, b := s.params.blinkOn
        id := true, s := false } ∧
      t.lcdChip = { out := (s.lcdChip.out &&& ~~~(lcdAllMask s.params)) ||| dataMask s.params 0x6, dir := 0x00 } ∧
      s.Issued t s.params.lcdAddr 57 ∧ s.now + 13780 ≤ t.now ∧ t.inputs = s.inputs.drop 79 ∧
      ({ s with ret := some .unit, lcdPhase := .ready } : State).LcdOnly t

/-- Phase legality (R700): an LCD operation other than `init` outside Ready is refused NotReady, and `init` outside
Unpowered is refused AlreadyInitialised, each with no transport call. -/
def Obligations.LcdOperationsNeedTheirPhase : Prop :=
  ∀ s : State, s.Running →
    (s.lcdPhase ≠ .ready → ∀ i : Instr, (i ∈ [Instr.lcdPowerOn, .lcdPowerOff, .lcdDisplayGreeting, .lcdClearDisplay] ∨
        (∃ x, i = .lcdWriteString x) ∨ (∃ v, i = .lcdWriteU32 v) ∨ (∃ v, i = .lcdWriteU8 v) ∨
        (∃ k, i = .lcdBackspace k) ∨ ∃ d k, i = .lcdShiftCursor d k) →
      exec i s = .next { s with ret := none, refused := true, refusedReason := some .notReady }) ∧
    (s.lcdPhase ≠ .unpowered → exec .lcdInit s =
      .next { s with ret := none, refused := true, refusedReason := some .alreadyInitialised })

/-- `clear_display` (R710): every legal cell a blank, AC = 0, shift = 0, ID = 1, and the wait after it leaves the
interface settled. That the cells cleared are those legal under the present N, and that the cells of the other map keep
their value, is the model's reading (log entry 28). -/
def Obligations.ClearDisplayOperation : Prop :=
  ∀ s : State, s.LcdReady → s.inputs.Quiet 23 →
    ∃ t, exec .lcdClearDisplay s = .next t ∧ s.LcdDone t 1 1 3080 ∧
      (∀ a : DdAddr, legalAddr s.ctl.lcd.n a = true → t.ctl.lcd.ddram.read a.toNat = some 0x20) ∧
      (∀ a : DdAddr, legalAddr s.ctl.lcd.n a = false → t.ctl.lcd.ddram.read a.toNat = s.ctl.lcd.ddram.read a.toNat) ∧
      t.ctl.lcd.screen = { s.ctl.lcd.screen with ddram := t.ctl.lcd.ddram, ac := 0x00, shift := 0, id := true }

/-- `power_on` and `power_off` (R750, R751, R121): D is set or cleared with the configured cursor bits, DDRAM and AC are
kept. Off, nothing is shown; on, each of the 2 lines' 16 places shows its cell's code, and the cursor is shown at AC's
place when C is set; no other place is shown (R3). -/
def Obligations.PowerBlanksAndRestores : Prop :=
  ∀ s : State, s.LcdReady → s.inputs.Quiet 22 →
    (∃ t, exec .lcdPowerOn s = .next t ∧ s.LcdDone t 1 0 1080 ∧
      t.ctl.lcd.screen = { s.ctl.lcd.screen with d := true, c := s.params.cursorOn, b := s.params.blinkOn } ∧
      ∀ line j, let a := 0x40 * line + (s.ctl.lcd.shift.val + j) % 40
        t.shown line j = (if line < 2 ∧ j < 16 then some (s.cellCode a) else none) ∧
        (t.cursorShown line j = true ↔ s.params.cursorOn = true ∧ line < 2 ∧ j < 16 ∧ s.ctl.lcd.ac.toNat = a)) ∧
    ∃ t, exec .lcdPowerOff s = .next t ∧ s.LcdDone t 1 0 1080 ∧
      t.ctl.lcd.screen = { s.ctl.lcd.screen with d := false, c := s.params.cursorOn, b := s.params.blinkOn } ∧
      ∀ line j, t.shown line j = none ∧ t.cursorShown line j = false

/-- `shift_cursor` (R711, R509): AC steps `count` times, and nothing else of the controller's view changes, nor the code of
any cell, written or not. It completes also while AC is off the map, where AC is free (log entry 15). -/
def Obligations.ShiftCursorSteps : Prop :=
  ∀ (s : State) (dir : Direction) (count : Nat), s.LcdReady → s.inputs.Quiet (22 * count) →
    ∃ t, exec (.lcdShiftCursor dir count) s = .next t ∧ s.LcdDone t count 0 (1080 * count) ∧
      t.ctl.lcd.screen = { s.ctl.lcd.screen with ac := t.ctl.lcd.ac } ∧ (∀ a, t.cellCode a = s.cellCode a) ∧
      (legalAddr s.ctl.lcd.n s.ctl.lcd.ac = true →
        t.ctl.lcd.ac = (match dir with
          | .left => decAc s.ctl.lcd.n
          | .right => incAc s.ctl.lcd.n)^[count] s.ctl.lcd.ac)

/-- `newline` and `write_char` (R712, R713): AC becomes 0x40 from anywhere, with DDRAM unchanged; a character's code is
stored at AC, and AC steps on (under the entry mode of R521). Outside Ready they are refused like the public operations:
the model's choice (log entry 20). -/
def Obligations.NewlineAndWriteChar : Prop :=
  ∀ s : State,
    (s.Running → s.lcdPhase ≠ .ready → ∀ i : Instr, (i = .lcdNewline ∨ ∃ c, i = .lcdWriteChar c) →
      exec i s = .next { s with ret := none, refused := true, refusedReason := some .notReady }) ∧
    (s.LcdReady → s.inputs.Quiet 22 →
      (∃ t, exec .lcdNewline s = .next t ∧ s.LcdDone t 1 0 1080 ∧
        t.ctl.lcd.screen = { s.ctl.lcd.screen with ac := 0x40 }) ∧
      ∀ c : Char, ∃ t, exec (.lcdWriteChar c) s = .next t ∧ s.LcdDone t 1 0 1080 ∧
        (s.Cleared → t.ctl.lcd.ddram.read s.ctl.lcd.ac.toNat = some (BitVec.ofNat 8 c.toNat) ∧
          (∀ a, a ≠ s.ctl.lcd.ac.toNat → t.ctl.lcd.ddram.read a = s.ctl.lcd.ddram.read a) ∧
          t.ctl.lcd.screen = { s.ctl.lcd.screen with ddram := t.ctl.lcd.ddram, ac := incAc true s.ctl.lcd.ac }))

/-- `write_string` of a valid text without a newline (R723, R724): the characters go to `a, inc a, …` and AC ends at
`inc^k a`; no other cell changes. -/
def Obligations.WriteStringOnOneLine : Prop :=
  ∀ (s : State) (text : List Char), s.LcdReady → ValidText text → newlineChar ∉ text →
    s.inputs.Quiet (22 * text.length) →
    ∃ t, exec (.lcdWriteString text) s = .next t ∧ s.LcdDone t text.length 0 (1080 * text.length) ∧
      (s.Cleared →
        (∀ k c, text[k]? = some c →
          t.ctl.lcd.ddram.read ((incAc true)^[k] s.ctl.lcd.ac).toNat = some (BitVec.ofNat 8 c.toNat)) ∧
        (∀ a, (∀ k < text.length, ((incAc true)^[k] s.ctl.lcd.ac).toNat ≠ a) →
          t.ctl.lcd.ddram.read a = s.ctl.lcd.ddram.read a) ∧
        t.ctl.lcd.screen = { s.ctl.lcd.screen with
          ddram := t.ctl.lcd.ddram, ac := (incAc true)^[text.length] s.ctl.lcd.ac })

/-- `write_string` of a valid text with a newline (R723, R724): the part before it goes on from AC, the part after it to
0x40, 0x41, …, and AC ends at 0x40 + k2. -/
def Obligations.WriteStringOnTwoLines : Prop :=
  ∀ (s : State) (first second : List Char), s.LcdReady → ValidText (first ++ newlineChar :: second) →
    s.inputs.Quiet (22 * (first.length + 1 + second.length)) →
    ∃ t, exec (.lcdWriteString (first ++ newlineChar :: second)) s = .next t ∧
      s.LcdDone t (first.length + 1 + second.length) 0 (1080 * (first.length + 1 + second.length)) ∧
      (s.Cleared →
        (∀ k c, second[k]? = some c → t.ctl.lcd.ddram.read (0x40 + k) = some (BitVec.ofNat 8 c.toNat)) ∧
        (∀ k c, first[k]? = some c → let a := ((incAc true)^[k] s.ctl.lcd.ac).toNat
          (a < 0x40 ∨ 0x40 + second.length ≤ a) → t.ctl.lcd.ddram.read a = some (BitVec.ofNat 8 c.toNat)) ∧
        (∀ a, (∀ k < first.length, ((incAc true)^[k] s.ctl.lcd.ac).toNat ≠ a) → (a < 0x40 ∨ 0x40 + second.length ≤ a) →
          t.ctl.lcd.ddram.read a = s.ctl.lcd.ddram.read a) ∧
        t.ctl.lcd.screen = { s.ctl.lcd.screen with
          ddram := t.ctl.lcd.ddram, ac := BitVec.ofNat 7 (0x40 + second.length) })

/-- Validation (R720, R721, R722, R908): a bad text stops the call before its first transport call, by the first failing
check: NonAscii is refused, more than one newline is F_CV_NEWLINES, a line over 16 is F_CV_LINE_LEN, with the first such
line in the info record. Nothing else of the state changes; the bus hold stays (R931; after a refusal, log entry 24). -/
def Obligations.BadTextsStopBeforeTheBus : Prop :=
  ∀ (s : State) (text : List Char), s.LcdReady →
    (text.all isSevenBit = false → exec (.lcdWriteString text) s = .next { s with
      ret := none, busOwner := some .lcdWriteString, refused := true, refusedReason := some .nonAscii }) ∧
    (text.all isSevenBit = true → 2 ≤ text.count newlineChar → exec (.lcdWriteString text) s = .next { s with
      ret := none, busOwner := some .lcdWriteString, fatal := some .cvNewlines, fatalInfo := some (.text text) }) ∧
    (text.all isSevenBit = true → text.count newlineChar ≤ 1 → ∀ before g after, segments text = before ++ g :: after →
      (∀ x ∈ before, x.length ≤ 16) → 16 < g.length → exec (.lcdWriteString text) s = .next { s with
        ret := none, busOwner := some .lcdWriteString, fatal := some .cvLineLen, fatalInfo := some (.text g) })

/-- `backspace` (R730, R731): one repetition blanks the cell `dec a` and leaves AC there; `count` of them blank
`dec a, …, dec^count a`; no other cell changes. -/
def Obligations.BackspaceErases : Prop :=
  ∀ (s : State) (count : Nat), s.LcdReady → s.inputs.Quiet (66 * count) →
    ∃ t, exec (.lcdBackspace count) s = .next t ∧ s.LcdDone t (3 * count) 0 (3240 * count) ∧
      (s.Cleared →
        (∀ k < count, t.ctl.lcd.ddram.read ((decAc true)^[k + 1] s.ctl.lcd.ac).toNat = some 0x20) ∧
        (∀ a, (∀ k < count, ((decAc true)^[k + 1] s.ctl.lcd.ac).toNat ≠ a) →
          t.ctl.lcd.ddram.read a = s.ctl.lcd.ddram.read a) ∧
        t.ctl.lcd.screen = { s.ctl.lcd.screen with
          ddram := t.ctl.lcd.ddram, ac := (decAc true)^[count] s.ctl.lcd.ac })

/-- `write_u32` and `write_u8` (R740, R741, R742): the low five, or three, decimal digits, zero-padded, most significant
first, each as the code 0x30 + d, at AC and the cells after it. For a u32 of 100000 and above the spec's own reading is
its decision D21. -/
def Obligations.NumbersAreWrittenInDecimal : Prop :=
  ∀ s : State, s.LcdReady →
    (∀ v : BitVec 32, s.inputs.Quiet 110 → ∃ t, exec (.lcdWriteU32 v) s = .next t ∧ s.LcdDone t 5 0 5400 ∧
      (s.Cleared → (∀ k < 5, t.ctl.lcd.ddram.read ((incAc true)^[k] s.ctl.lcd.ac).toNat =
          some (BitVec.ofNat 8 (0x30 + v.toNat / 10 ^ (4 - k) % 10))) ∧
        (∀ a, (∀ k < 5, ((incAc true)^[k] s.ctl.lcd.ac).toNat ≠ a) →
          t.ctl.lcd.ddram.read a = s.ctl.lcd.ddram.read a) ∧
        t.ctl.lcd.screen = { s.ctl.lcd.screen with ddram := t.ctl.lcd.ddram, ac := (incAc true)^[5] s.ctl.lcd.ac })) ∧
    ∀ v : Byte, s.inputs.Quiet 66 → ∃ t, exec (.lcdWriteU8 v) s = .next t ∧ s.LcdDone t 3 0 3240 ∧
      (s.Cleared → (∀ k < 3, t.ctl.lcd.ddram.read ((incAc true)^[k] s.ctl.lcd.ac).toNat =
          some (BitVec.ofNat 8 (0x30 + v.toNat / 10 ^ (2 - k) % 10))) ∧
        (∀ a, (∀ k < 3, ((incAc true)^[k] s.ctl.lcd.ac).toNat ≠ a) →
          t.ctl.lcd.ddram.read a = s.ctl.lcd.ddram.read a) ∧
        t.ctl.lcd.screen = { s.ctl.lcd.screen with ddram := t.ctl.lcd.ddram, ac := (incAc true)^[3] s.ctl.lcd.ac })

/-- `display_greeting` (R752): a clear, then the greeting from the start of line 1 (R710, R724); the part after a newline
stands from 0x40 on; every other legal cell is a blank, and the invariant of R521 holds. -/
def Obligations.GreetingIsClearThenText : Prop :=
  ∀ s : State, s.LcdReady → s.params.wf → s.inputs.Quiet (23 + 22 * s.params.greeting.length) →
    ∃ t, exec .lcdDisplayGreeting s = .next t ∧
      s.LcdDone t (1 + s.params.greeting.length) 1 (3080 + 1080 * s.params.greeting.length) ∧
      (s.ctl.lcd.n = true → s.ctl.lcd.s = false → t.Cleared ∧
        (newlineChar ∉ s.params.greeting →
          (∀ k c, s.params.greeting[k]? = some c → t.ctl.lcd.ddram.read k = some (BitVec.ofNat 8 c.toNat)) ∧
          (∀ a : DdAddr, legalAddr true a = true → s.params.greeting.length ≤ a.toNat →
            t.ctl.lcd.ddram.read a.toNat = some 0x20) ∧
          t.ctl.lcd.ac.toNat = s.params.greeting.length) ∧
        ∀ first second, s.params.greeting = first ++ newlineChar :: second →
          (∀ k c, first[k]? = some c → t.ctl.lcd.ddram.read k = some (BitVec.ofNat 8 c.toNat)) ∧
          (∀ k c, second[k]? = some c → t.ctl.lcd.ddram.read (0x40 + k) = some (BitVec.ofNat 8 c.toNat)) ∧
          (∀ a : DdAddr, legalAddr true a = true → first.length ≤ a.toNat →
            (a.toNat < 0x40 ∨ 0x40 + second.length ≤ a.toNat) → t.ctl.lcd.ddram.read a.toNat = some 0x20) ∧
          t.ctl.lcd.ac.toNat = 0x40 + second.length)

/-- The invariant after the first Clear display (R521), and R912: no public LCD operation that starts from a ready
driver, with completed calls, ever sets LCD_UNDEFINED or breaks the invariant; it leaves the driver ready, or it stopped
on a bad text. -/
def Obligations.DriverKeepsTheControllerCleared : Prop :=
  ∀ (s t : State) (i : Instr), s.LcdReady → s.Cleared → (∀ n, s.inputs.Quiet n) →
    (i ∈ [Instr.lcdPowerOn, .lcdPowerOff, .lcdDisplayGreeting, .lcdClearDisplay] ∨ (∃ x, i = .lcdWriteString x) ∨
      (∃ v, i = .lcdWriteU32 v) ∨ (∃ v, i = .lcdWriteU8 v) ∨ (∃ k, i = .lcdBackspace k) ∨
      ∃ d k, i = .lcdShiftCursor d k) →
    exec i s = .next t → t.Cleared ∧ t.ctl.undefined = false ∧ (t.LcdReady ∨ t.stopped = true)

/-! ## The keypad (44_keypad) -/

/-- `keypad.init` (R802): from Uninit, DIR becomes M_ROWS and `kp_phase` Ready, in one call; OUT is as it was. -/
def Obligations.KeypadInitConfiguresThePins : Prop :=
  ∀ s : State, s.Running → s.BusFree → s.params.distinct → s.kpPhase = .uninit → s.inputs.Quiet 1 →
    ∃ t, exec .keypadInit s = .next t ∧ t.KeypadReady ∧
      t.kpChip = { s.kpChip with dir := rowsMask s.params } ∧
      t.trace = s.trace ++ [{ call := .w s.params.kpAddr [s.params.regDir, rowsMask s.params], err := false, time := t.now }] ∧
      t.inputs = s.inputs.drop 1 ∧ ({ s with ret := some .unit, kpPhase := .ready } : State).KeypadOnly t

/-- Phase legality of the keypad (R811): `init` after Uninit is refused AlreadyInitialised, and `scan` and `scan_set`
before Ready are refused NotReady, whatever `lcd_phase` is, each with no transport call. -/
def Obligations.KeypadOperationsNeedTheirPhase : Prop :=
  ∀ s : State, s.Running →
    (s.kpPhase ≠ .uninit → exec .keypadInit s =
      .next { s with ret := none, refused := true, refusedReason := some .alreadyInitialised }) ∧
    (s.kpPhase ≠ .ready → ∀ i ∈ [Instr.keypadScan, .keypadScanSet],
      exec i s = .next { s with ret := none, refused := true, refusedReason := some .notReady })

/-- `drive_column` (R803): exclusive writes the column's mask alone; latched reads and writes back with the column's bit
added. -/
def Obligations.DriveColumnRaisesTheColumn : Prop :=
  ∀ (s : State) (c : Column), s.Running → s.params.distinct →
    (s.params.columnDrive = .exclusive → s.inputs.Quiet 1 → ∃ t, exec (.keypadDriveColumn c) s = .next t ∧
      s.KeypadDone t .unit 1 0 ∧ t.kpChip = { s.kpChip with out := pinMask (columnPin s.params c) }) ∧
    (s.params.columnDrive = .latched → s.inputs.Quiet 2 → ∃ t, exec (.keypadDriveColumn c) s = .next t ∧
      s.KeypadDone t .unit 2 0 ∧
      t.kpChip = { s.kpChip with out := s.pins (s.inputs.at 0) .kp ||| pinMask (columnPin s.params c) })

/-- `read_rows` (R804, R103, R805): the rows whose bit of PINS is 1. A row pin that is an input reads by the matrix: with
the columns that pressed keys join to its net, the row is high when one is driven high and none low, low when none is
driven high, and a free draw under contention. The chip is as it was. -/
def Obligations.ReadRowsReturnsTheHighRows : Prop :=
  ∀ s : State, s.Running → s.params.distinct → s.inputs.Quiet 1 →
    let d := s.inputs.at 0
    ∃ t rs, exec .keypadReadRows s = .next t ∧ s.KeypadDone t (.rows rs) 1 0 ∧ t.kpChip = s.kpChip ∧
      ∀ r, let drives := fun (level : Bool) => ∃ c, SameNet d.held r c ∧
          s.kpChip.dir.getLsbD (columnPin s.params c) = false ∧ s.kpChip.out.getLsbD (columnPin s.params c) = level
        (s.kpChip.dir.getLsbD (rowPin s.params r) = false →
          (r ∈ rs ↔ s.kpChip.out.getLsbD (rowPin s.params r) = true)) ∧
        (s.kpChip.dir.getLsbD (rowPin s.params r) = true →
          (drives true → ¬ drives false → r ∈ rs) ∧ (¬ drives true → r ∉ rs) ∧
          (drives true → drives false → (r ∈ rs ↔ d.ext.getLsbD (rowPin s.params r) = true)))

/-- A pass under `exclusive` (R806, R805): it completes in 6 transport calls, and finds the keys of the rows that are high
at each column's read, with that column's bit alone in OUT, in detection order (R809), whatever is held; so a lone key
held through it is found, and no other, and with no key held none is. -/
def Obligations.RawScanFindsTheLoneKey : Prop :=
  ∀ s : State, s.Running → s.params.distinct → s.params.columnDrive = .exclusive → s.inputs.Quiet 6 →
    ∃ t ks, exec .keypadRawScan s = .next t ∧ s.KeypadDone t (.keys ks) 6 0 ∧
      t.kpChip = { s.kpChip with out := pinMask (columnPin s.params .c3) } ∧
      (s.kpChip.dir = rowsMask s.params →
        ks = keysSeen s.params (fun c => { s.kpChip with out := pinMask (columnPin s.params c) })
          (fun | .c1 => s.inputs.at 1 | .c2 => s.inputs.at 3 | .c3 => s.inputs.at 5) ∧
        (∀ k, (∀ j < 6, LoneKey (s.inputs.at j) k) → ks = [k]) ∧
        ((∀ j < 6, (s.inputs.at j).held = []) → ks = []))

/-- A pass under `latched` (R806, R814): it completes in 9 transport calls; each column's bit is added to what the pins
read (R803), and the keys of the rows high at each column's read are found, in detection order (R809), whatever is held.
With all three columns high a lone key in row r is reported at every column. -/
def Obligations.LatchedPassReportsEveryColumn : Prop :=
  ∀ s : State, s.Running → s.params.distinct → s.params.columnDrive = .latched → s.inputs.Quiet 9 →
    let s1 := s.latchColumn .c1 (s.inputs.at 0)
    let s2 := s1.latchColumn .c2 (s.inputs.at 3)
    let s3 := s2.latchColumn .c3 (s.inputs.at 6)
    ∃ t ks, exec .keypadRawScan s = .next t ∧ s.KeypadDone t (.keys ks) 9 0 ∧ t.kpChip = s3.kpChip ∧
      (s.kpChip.dir = rowsMask s.params →
        ks = keysSeen s.params (fun | .c1 => s1.kpChip | .c2 => s2.kpChip | .c3 => s3.kpChip)
          (fun | .c1 => s.inputs.at 2 | .c2 => s.inputs.at 5 | .c3 => s.inputs.at 8) ∧
        ((∀ x, s.kpChip.out.getLsbD (columnPin s.params x) = true) →
          ∀ c r, (∀ j < 9, LoneKey (s.inputs.at j) (keyAt c r)) → ks = [keyAt .c1 r, keyAt .c2 r, keyAt .c3 r]) ∧
        ((∀ j < 9, (s.inputs.at j).held = []) → ks = []))

/-- `scan_set` (R807): one pass with no debounce, under either column drive: it does what `raw_scan` does from the same
state and returns the set found, `None` for the empty one. So no key held gives `None`, and under `exclusive` a lone key
`Some({k})`. -/
def Obligations.ScanSetIsOnePass : Prop :=
  ∀ s : State, s.KeypadReady → s.inputs.Quiet (passCalls s.params) →
    ∃ u ks, exec .keypadRawScan s = .next u ∧ s.KeypadDone u (.keys ks) (passCalls s.params) 0 ∧
      exec .keypadScanSet s = .next { u with ret := some (.optKeySet (if ks = [] then none else some ks)) } ∧
      ((∀ j < passCalls s.params, (s.inputs.at j).held = []) → ks = []) ∧
      (s.params.columnDrive = .exclusive → ∀ k, (∀ j < 6, LoneKey (s.inputs.at j) k) → ks = [k])

/-- `scan` (R808, R809), under either column drive: its first pass does what `raw_scan` does from the same state. When it
sees no key, `scan` returns `None` and the bus is free; when it sees keys, nothing is returned and the loop begins, with
the first key in detection order as the one to return and the bus held (R931). That the loop's rounds are steps is the
model's (log entry 21). -/
def Obligations.ScanStartsTheDebounceLoop : Prop :=
  ∀ s : State, s.KeypadReady → s.inputs.Quiet (passCalls s.params) →
    ∃ u ks, exec .keypadRawScan s = .next u ∧ s.KeypadDone u (.keys ks) (passCalls s.params) 0 ∧
      (ks = [] → exec .keypadScan s = .next { u with ret := some (.optKey none) }) ∧
      (∀ k rest, ks = k :: rest → exec .keypadScan s =
        .next { u with ret := none, busOwner := some .keypadScan, scanning := some k }) ∧
      ((∀ j < passCalls s.params, (s.inputs.at j).held = []) → ks = []) ∧
      (s.params.columnDrive = .exclusive → ∀ k, (∀ j < 6, LoneKey (s.inputs.at j) k) → ks = [k])

/-- A round of the debounce loop (R808), under either column drive: a delay of at least 250 us, and then what `raw_scan`
does. When the pass sees no key, the key detected first is returned, whatever was held meanwhile, and the bus is
released; when it sees any, the loop goes on and nothing else changes (R810). That a round is a step is the model's (log
entry 21). -/
def Obligations.ScanReturnsTheFirstKeyAtRelease : Prop :=
  ∀ (s : State) (k : Key), s.Running → s.params.distinct → s.scanning = some k →
    s.inputs.Quiet (1 + passCalls s.params) →
    ∃ w u ks, exec (.delay .us 250) s = .next w ∧ exec .keypadRawScan w = .next u ∧ s.now + 250 ≤ w.now ∧
      s.KeypadDone u (.keys ks) (passCalls s.params) 1 ∧
      (ks = [] → step s = .next { u with ret := some (.optKey (some k)), busOwner := none, scanning := none }) ∧
      (ks ≠ [] → step s = .next { u with ret := s.ret }) ∧
      (s.kpChip.dir = rowsMask s.params → (∀ j < 1 + passCalls s.params, (s.inputs.at j).held = []) → ks = [])

/-- The scan never returns while a key is held (R810), under either column drive: for every number of steps, the loop is
still running, nothing has been returned and no fault has come. That a round of the loop is a step is the model's (log
entry 21). -/
def Obligations.ScanNeverReturnsWhileHeld : Prop :=
  ∀ (s : State) (k held : Key), s.Running → s.params.distinct →
    s.kpChip.dir = rowsMask s.params → s.scanning = some k → s.ret = none →
    (∀ j, (s.inputs.at j).ok = true ∧ (s.inputs.at j).foreign = none ∧ LoneKey (s.inputs.at j) held) →
    ∀ n, ∃ t : State, core.run n s = .next t ∧ t.scanning = some k ∧ t.ret = none ∧ t.Running ∧
      t.busOwner = s.busOwner ∧ s.Issued t s.params.kpAddr (passCalls s.params * n) ∧ s.now + 250 * n ≤ t.now

/-! ## Faults, refusals and the whole machine (60_exceptions) -/

/-- The steps that run no operation. After a fatal condition Main takes no step (R901): under PANIC = halt only the
heartbeat may fire, which lets time pass, and otherwise the machine stands (log entry 11); under PANIC = reset Main
restarts with the phases, FATAL and TRACE anew, while the chips, the controller and `now` carry over. That the restart is
a step, that the calls and inputs to come stay, and that Main's own marks (the info record, BUS_OWNER, a scan's key, the
value returned) are cleared with it is the model's reading (log entries 11, 12). After a refusal the run has no meaning:
every step is refused (R910). With no call to run, only the heartbeat's time passes (R921); that Main has such steps is
the model's choice (log entry 25). -/
def Obligations.StepsThatRunNoOperation : Prop :=
  ∀ s : State,
    (∀ code : FaultCode, s.refused = false → s.fatal = some code →
      (s.params.panic = .halt → (s.inputs.at 0).beat = none → step s = .fault (.halted code)) ∧
      (s.params.panic = .halt → s.ctl.undefined = false → ∀ e, (s.inputs.at 0).beat = some e →
        step s = .next { s with now := s.now + e, inputs := s.inputs.rest }) ∧
      (s.params.panic = .reset → step s = .next { s with
        lcdPhase := .unpowered, kpPhase := .uninit, fatal := none, trace := []
        fatalInfo := none, busOwner := none, scanning := none, ret := none })) ∧
    (s.refused = true → step s = .refused (.runRefused s.refusedReason)) ∧
    (s.Running → s.scanning = none → s.calls = [] → s.ctl.undefined = false → (s.inputs.at 0).foreign = none →
      step s = .next { s with now := s.now + (s.inputs.at 0).beat.getD 0, inputs := s.inputs.rest })

/-- Faults are precise (R902, R907), at every step, a round of a debounced scan included (R815): of the transport calls
the step issued, all but the last completed; if the last failed and the step's call is not a bare transport call, FATAL
is F_BUS; and FATAL becomes F_BUS only so. The same is said of every instruction's `exec`. -/
def Obligations.BusFaultsArePrecise : Prop :=
  let precise := fun (s t : State) (bare : Prop) => ∃ new, t.trace = s.trace ++ new ∧
    (∀ e ∈ new.dropLast, e.err = false) ∧
    ((∃ e, new.getLast? = some e ∧ e.err = true) → t.fatal = some .bus ∨ bare) ∧
    (t.fatal = some .bus → ∃ e, new.getLast? = some e ∧ e.err = true)
  let bare := fun (i : Instr) => (∃ a reg v, i = .busWrite a reg v) ∨ ∃ a reg, i = .busWriteRead a reg
  (∀ (s t : State) (i : Instr), s.Running → exec i s = .next t → precise s t (bare i)) ∧
  ∀ s t : State, s.Running → step s = .next t → precise s t
    (s.scanning = none ∧ ∃ r rest i, s.calls = r :: rest ∧ decode r = .ok i ∧ bare i)

/-- Only initialisation moves the phases (R130, R131); a round of a scan moves none; the parameters never change (R104,
R212), and `now` never goes back (R151). The model's own mark of a finished init agrees with `lcd_phase` from the moment
an init has configured the pins (log entry 16): every step keeps that. -/
def Obligations.PhasesParametersAndTime : Prop :=
  (∀ (s t : State) (i : Instr), exec i s = .next t →
    (t.lcdPhase ≠ s.lcdPhase → i = .lcdInit ∨ i = .initNibble8bit) ∧ (t.kpPhase ≠ s.kpPhase → i = .keypadInit)) ∧
  ∀ s t : State, step s = .next t → t.params = s.params ∧ s.now ≤ t.now ∧
    (s.Running → s.scanning ≠ none → t.lcdPhase = s.lcdPhase ∧ t.kpPhase = s.kpPhase) ∧
    (s.InitMarked → t.InitMarked)

/-- The two components never touch each other's chip (R13, R813): no keypad operation, nor a round of a debounced scan,
changes the LCD chip or a defined controller, and no LCD operation changes the keypad chip, while Main is the only bus
user. -/
def Obligations.ComponentsAreIsolated : Prop :=
  (∀ s t : State, s.params.distinct → s.inputs.Alone → s.Running → s.scanning ≠ none → step s = .next t →
    t.lcdChip = s.lcdChip ∧ (s.ctl.undefined = false → t.ctl = s.ctl)) ∧
  ∀ (s t : State) (i : Instr), s.params.distinct → s.inputs.Alone → exec i s = .next t →
    (i ∈ [Instr.keypadInit, .keypadReadRows, .keypadRawScan, .keypadScan, .keypadScanSet] ∨
        (∃ c, i = .keypadDriveColumn c) → t.lcdChip = s.lcdChip ∧ (s.ctl.undefined = false → t.ctl = s.ctl)) ∧
    (i ∈ [Instr.initNibble8bit, .lcdInit, .lcdPowerOn, .lcdPowerOff, .lcdDisplayGreeting, .lcdClearDisplay, .lcdNewline] ∨
        (∃ x, i = .lcdWriteString x) ∨ (∃ v, i = .lcdWriteU32 v) ∨ (∃ v, i = .lcdWriteU8 v) ∨
        (∃ k, i = .lcdBackspace k) ∨ (∃ d k, i = .lcdShiftCursor d k) ∨ (∃ c, i = .lcdWriteChar c) ∨
        (∃ rs n, i = .writeNibble rs n) ∨ (∃ rs b, i = .sendByte rs b) ∨ (∃ b, i = .sendCommand b) ∨
        (∃ b, i = .sendData b) → t.kpChip = s.kpChip)

/-- A second bus user (R413, R913, R931). Its call just before any primitive of a public operation, or of a round of a
debounced scan, raises F_RACE, whose info names the holder and the call, and the bus stays held; its write to REG_GPIO
between the halves of `set_bits` or `clear_bits` on the same chip raises it too, with no write-back; alone on the bus, no
step ever raises it. That the call falls just before a primitive, takes effect on the chip and then faults, and that its
draw is used up, is the model's choice (log entry 22). -/
def Obligations.RacesAreFaults : Prop :=
  (∀ (s : State) (i : Instr) (op : PublicOp) (n k : Nat) (f : ForeignCall), s.Running → s.BusFree → s.params.distinct →
    s.PublicCall i op n → k < n → s.inputs.Quiet k → (s.inputs.at k).foreign = some f →
    ∃ t, exec i s = .next t ∧ t.fatal = some .race ∧ t.fatalInfo = some (.race (some op) f) ∧
      t.busOwner = some op ∧ t.inputs = s.inputs.drop (k + 1)) ∧
  (∀ (s : State) (key : Key) (k : Nat) (f : ForeignCall), s.Running → s.params.distinct → s.scanning = some key →
    s.busOwner = some .keypadScan → k < 1 + passCalls s.params → s.inputs.Quiet k → (s.inputs.at k).foreign = some f →
    ∃ t, step s = .next t ∧ t.fatal = some .race ∧ t.fatalInfo = some (.race (some .keypadScan) f) ∧
      t.busOwner = some .keypadScan ∧ t.inputs = s.inputs.drop (k + 1)) ∧
  (∀ (s : State) (a : BusAddr) (c : ChipId) (m v : Byte), s.Running → s.busOwner = none → chipAt s.params a = some c →
    s.inputs.Quiet 1 → (s.inputs.at 1).foreign = some (.write a s.params.regGpio v) →
    ∀ i ∈ [Instr.setBits a m, .clearBits a m], ∃ t, exec i s = .next t ∧ t.fatal = some .race ∧
      t.fatalInfo = some (.race none (.write a s.params.regGpio v)) ∧ t.chip c = { s.chip c with out := v } ∧
      t.trace = s.trace ++ [{ call := .wr a [s.params.regGpio] [s.pins (s.inputs.at 0) c], err := false
                              time := s.now + s.inputs.spent 1 }]) ∧
  ∀ s t : State, s.inputs.Alone → step s = .next t → t.fatal = some .race → s.fatal = some .race

/-- Between steps the bus is held only while a debounced scan loops, or by an operation that stopped (R931: "After a
fault, the hold is never released"). Every step keeps this. That a scan's loop spans steps is the model's (log entry 21). -/
def Obligations.BusHoldEndsWithItsOperation : Prop :=
  let Inv := fun s : State => s.busOwner ≠ none → s.stopped = true ∨ (s.busOwner = some .keypadScan ∧ s.scanning ≠ none)
  ∀ s t : State, Inv s → step s = .next t → Inv t

/-- DDRAM keeps its canonical form, whatever the step. -/
def Obligations.DdramStaysCanonical : Prop :=
  ∀ s t : State, s.DdramWf → step s = .next t → t.DdramWf
end

