-- ==== Sys2Proof/Laws/Bits.lean ====
section
/-! SUPPORT. Bits of masks, and the LCD lines of the register values a nibble write makes (R304, R305, R607). -/

namespace Sys2Proof.Machine

open Sys2Proof

@[simp] theorem pinMask_getLsbD (i : Pin) (j : Nat) : (pinMask i).getLsbD j = decide (i.val = j) := by
  by_cases h : i.val = j
  · subst h; simp [pinMask, i.isLt]
  · have hi := i.isLt
    simp only [pinMask, BitVec.getLsbD_shiftLeft, BitVec.getLsbD_one, h, decide_false]
    by_cases hj : j < i.val
    · simp [hj]
    · have : ¬ (j - i.val = 0) := by omega
      simp [this]

@[simp] theorem maskIf_getLsbD (b : Bool) (i : Pin) (j : Nat) : (maskIf b i).getLsbD j = (b && decide (i.val = j)) := by
  cases b <;> simp [maskIf]

@[simp] theorem pinMask_getElem (i : Pin) (j : Nat) (hj : j < 8) : (pinMask i)[j] = decide (i.val = j) := by
  rw [← pinMask_getLsbD, BitVec.getLsbD_eq_getElem]

@[simp] theorem maskIf_getElem (b : Bool) (i : Pin) (j : Nat) (hj : j < 8) :
    (maskIf b i)[j] = (b && decide (i.val = j)) := by
  rw [← maskIf_getLsbD, BitVec.getLsbD_eq_getElem]

/-- The mask of every pin changes nothing. -/
theorem and_full (v : Byte) : v &&& 255#8 = v := BitVec.and_allOnes

/-- The pins of the LCD chip are distinct (R13), as numbers. -/
theorem lcdPins_ne {p : Params} (h : p.distinct) :
    (p.pinRS.val ≠ p.pinEN.val ∧ p.pinRS.val ≠ p.pinD4.val ∧ p.pinRS.val ≠ p.pinD5.val ∧ p.pinRS.val ≠ p.pinD6.val ∧
      p.pinRS.val ≠ p.pinD7.val) ∧
    (p.pinEN.val ≠ p.pinD4.val ∧ p.pinEN.val ≠ p.pinD5.val ∧ p.pinEN.val ≠ p.pinD6.val ∧ p.pinEN.val ≠ p.pinD7.val) ∧
    (p.pinD4.val ≠ p.pinD5.val ∧ p.pinD4.val ≠ p.pinD6.val ∧ p.pinD4.val ≠ p.pinD7.val) ∧
    (p.pinD5.val ≠ p.pinD6.val ∧ p.pinD5.val ≠ p.pinD7.val) ∧ p.pinD6.val ≠ p.pinD7.val := by
  have := h.2.2.1
  simpa [Params.lcdPins, List.nodup_cons, Fin.ext_iff, not_or] using this

/-- The same pins, the other way round. -/
theorem lcdPins_ne' {p : Params} (h : p.distinct) :
    (p.pinEN.val ≠ p.pinRS.val ∧ p.pinD4.val ≠ p.pinRS.val ∧ p.pinD5.val ≠ p.pinRS.val ∧ p.pinD6.val ≠ p.pinRS.val ∧
      p.pinD7.val ≠ p.pinRS.val) ∧
    (p.pinD4.val ≠ p.pinEN.val ∧ p.pinD5.val ≠ p.pinEN.val ∧ p.pinD6.val ≠ p.pinEN.val ∧ p.pinD7.val ≠ p.pinEN.val) ∧
    (p.pinD5.val ≠ p.pinD4.val ∧ p.pinD6.val ≠ p.pinD4.val ∧ p.pinD7.val ≠ p.pinD4.val) ∧
    (p.pinD6.val ≠ p.pinD5.val ∧ p.pinD7.val ≠ p.pinD5.val) ∧ p.pinD7.val ≠ p.pinD6.val := by
  obtain ⟨⟨a1, a2, a3, a4, a5⟩, ⟨b1, b2, b3, b4⟩, ⟨c1, c2, c3⟩, ⟨d1, d2⟩, e⟩ := lcdPins_ne h
  exact ⟨⟨a1.symm, a2.symm, a3.symm, a4.symm, a5.symm⟩, ⟨b1.symm, b2.symm, b3.symm, b4.symm⟩,
    ⟨c1.symm, c2.symm, c3.symm⟩, ⟨d1.symm, d2.symm⟩, e.symm⟩

/-- The lines of a chip whose pins are all outputs are its latch bits (R122). -/
theorem lcdLines_outputs (p : Params) (v : Byte) (d : Draw) (en : Bool) :
    lcdLines p { out := v, dir := 0#8 } d en = { en := v.getLsbD p.pinEN, rs := v.getLsbD p.pinRS, db := dataNibble p v } := by
  simp [lcdLines, lineLevel, dataNibble]

/-- A nibble read back bit by bit. -/
theorem nibble_eta (n : Nibble) :
    BitVec.ofBool (n.getLsbD 3) ++ BitVec.ofBool (n.getLsbD 2) ++ BitVec.ofBool (n.getLsbD 1) ++
      BitVec.ofBool (n.getLsbD 0) = n := by
  revert n; decide

/-- Step (1) of R600: every LCD line is low. -/
theorem cleared_en (p : Params) (v : Byte) : (v &&& ~~~(lcdAllMask p)).getLsbD p.pinEN = false := by
  simp [lcdAllMask, dataMaskAll]

theorem cleared_rs (p : Params) (v : Byte) : (v &&& ~~~(lcdAllMask p)).getLsbD p.pinRS = false := by
  simp [lcdAllMask, dataMaskAll]

theorem cleared_data (p : Params) (v : Byte) : dataNibble p (v &&& ~~~(lcdAllMask p)) = 0 := by
  simp [dataNibble, lcdAllMask, dataMaskAll]

/-- Step (4) of R601: EN is high. -/
theorem raised_en (p : Params) (v : Byte) : (v ||| pinMask p.pinEN).getLsbD p.pinEN = true := by simp

section
variable {p : Params} (h : p.distinct) (v : Byte) (rs : Bool) (n : Nibble)
include h

/-- Step (2) of R600: RS and the nibble are asserted, EN stays low. -/
theorem asserted_en : ((v &&& ~~~(lcdAllMask p)) ||| assertMask p rs n).getLsbD p.pinEN = false := by
  obtain ⟨⟨a1, a2, a3, a4, a5⟩, ⟨b1, b2, b3, b4⟩, ⟨c1, c2, c3⟩, ⟨d1, d2⟩, e⟩ := lcdPins_ne h
  obtain ⟨-, ⟨b1', b2', b3', b4'⟩, -⟩ := lcdPins_ne' h
  simp [assertMask, dataMask, lcdAllMask, dataMaskAll, *]

theorem asserted_rs : ((v &&& ~~~(lcdAllMask p)) ||| assertMask p rs n).getLsbD p.pinRS = rs := by
  obtain ⟨⟨a1, a2, a3, a4, a5⟩, -⟩ := lcdPins_ne h
  obtain ⟨⟨a1', a2', a3', a4', a5'⟩, -⟩ := lcdPins_ne' h
  simp [assertMask, dataMask, lcdAllMask, dataMaskAll, *]

theorem asserted_data : dataNibble p ((v &&& ~~~(lcdAllMask p)) ||| assertMask p rs n) = n := by
  obtain ⟨⟨a1, a2, a3, a4, a5⟩, ⟨b1, b2, b3, b4⟩, ⟨c1, c2, c3⟩, ⟨d1, d2⟩, e⟩ := lcdPins_ne h
  obtain ⟨⟨a1', a2', a3', a4', a5'⟩, ⟨b1', b2', b3', b4'⟩, ⟨c1', c2', c3'⟩, ⟨d1', d2'⟩, e'⟩ := lcdPins_ne' h
  conv_rhs => rw [← nibble_eta n]
  simp [dataNibble, assertMask, dataMask, lcdAllMask, dataMaskAll, *]

/-- Step (4) of R601: no other line changes. -/
theorem raised_rs : (v ||| pinMask p.pinEN).getLsbD p.pinRS = v.getLsbD p.pinRS := by
  obtain ⟨⟨a1, -⟩, -⟩ := lcdPins_ne' h
  simp [a1]

theorem raised_data : dataNibble p (v ||| pinMask p.pinEN) = dataNibble p v := by
  obtain ⟨-, ⟨b1, b2, b3, b4⟩, -⟩ := lcdPins_ne h
  simp [dataNibble, b1, b2, b3, b4]

end

/-- Step (6) of R601: clearing EN undoes step (4) when EN was low. -/
theorem raise_then_lower (i : Pin) (v : Byte) (hv : v.getLsbD i = false) : (v ||| pinMask i) &&& ~~~(pinMask i) = v := by
  apply BitVec.eq_of_getLsbD_eq
  intro j hj
  by_cases hij : i.val = j
  · subst hij
    rw [BitVec.getLsbD_eq_getElem hj] at hv
    simp [hv]
  · simp [hij, hj]

end Sys2Proof.Machine
end

