-- ==== Sys2Proof/Laws/Memory.lean ====
section
/-! SUPPORT. The laws of the memory operations: read after write, and the canonical form. -/

namespace Sys2Proof.Machine

open Sys2Proof

namespace Memory

@[simp] theorem read_nil (a : Nat) : Memory.read [] a = none := rfl

theorem read_cons (k : Nat) (v : Byte) (m : Memory) (a : Nat) :
    Memory.read ((k, v) :: m) a = if a = k then some v else Memory.read m a := rfl

/-- An address below every listed one is not listed. -/
theorem read_of_lt {m : Memory} {a : Nat} (h : ∀ x ∈ m.map Prod.fst, a < x) : Memory.read m a = none := by
  induction m with
  | nil => rfl
  | cons c m ih =>
    obtain ⟨k, v⟩ := c
    have hk : a < k := h k (by simp)
    rw [read_cons, if_neg (by omega)]
    exact ih fun x hx => h x (List.mem_cons_of_mem _ hx)

theorem wf_cons {k : Nat} {v : Byte} {m : Memory} (h : Memory.wf ((k, v) :: m)) :
    (∀ x ∈ m.map Prod.fst, k < x) ∧ Memory.wf m := by
  simpa [Memory.wf, List.pairwise_cons] using h

/-- A read after a write to the same address gives the byte written. -/
theorem read_write_same (m : Memory) (a : Nat) (b : Byte) : (m.write a b).read a = some b := by
  induction m with
  | nil => simp [Memory.write, read_cons]
  | cons c m ih =>
    obtain ⟨k, v⟩ := c
    simp only [Memory.write]
    split
    · simp [read_cons]
    · split
      · simp [read_cons]
      · next h1 h2 => rw [read_cons, if_neg h2, ih]

/-- A write leaves every other address alone. -/
theorem read_write_other {m : Memory} {a x : Nat} (b : Byte) (h : x ≠ a) : (m.write a b).read x = m.read x := by
  induction m with
  | nil => simp [Memory.write, read_cons, h]
  | cons c m ih =>
    obtain ⟨k, v⟩ := c
    simp only [Memory.write]
    split
    · simp [read_cons, h]
    · split
      · next h2 => subst h2; simp [read_cons, h]
      · simp [read_cons, ih]

theorem read_write (m : Memory) (a x : Nat) (b : Byte) :
    (m.write a b).read x = if x = a then some b else m.read x := by
  split
  · next h => subst h; exact read_write_same m x b
  · next h => exact read_write_other b h

theorem mem_keys_write {m : Memory} {a x : Nat} {b : Byte} (h : x ∈ (m.write a b).map Prod.fst) :
    x = a ∨ x ∈ m.map Prod.fst := by
  induction m with
  | nil => simpa [Memory.write] using h
  | cons c m ih =>
    obtain ⟨k, v⟩ := c
    simp only [Memory.write] at h
    split at h
    · simpa using h
    · split at h
      · next h2 => subst h2; simp at h ⊢; tauto
      · simp only [List.map_cons, List.mem_cons] at h ⊢
        rcases h with h | h
        · exact .inr (.inl h)
        · rcases ih h with h | h
          · exact .inl h
          · exact .inr (.inr h)

/-- A write keeps the canonical form. -/
theorem write_wf {m : Memory} (h : Memory.wf m) (a : Nat) (b : Byte) : Memory.wf (m.write a b) := by
  induction m with
  | nil => simp [Memory.wf, Memory.write]
  | cons c m ih =>
    obtain ⟨k, v⟩ := c
    obtain ⟨hlow, hm⟩ := wf_cons h
    simp only [Memory.write]
    split
    · next hak =>
      refine List.pairwise_cons.2 ⟨fun x hx => ?_, h⟩
      simp only [List.map_cons, List.mem_cons] at hx
      rcases hx with rfl | hx
      · exact hak
      · exact Nat.lt_trans hak (hlow x hx)
    · split
      · next hak => subst hak; exact List.pairwise_cons.2 ⟨hlow, hm⟩
      · next h1 h2 =>
        refine List.pairwise_cons.2 ⟨fun x hx => ?_, ih hm⟩
        rcases mem_keys_write hx with rfl | hx
        · omega
        · exact hlow x hx

theorem fill_cons (m : Memory) (a : Nat) (as : List Nat) (b : Byte) : m.fill (a :: as) b = (m.write a b).fill as b := rfl

/-- Filling keeps the canonical form. -/
theorem fill_wf {m : Memory} (h : Memory.wf m) (as : List Nat) (b : Byte) : Memory.wf (m.fill as b) := by
  induction as generalizing m with
  | nil => exact h
  | cons a as ih => exact ih (write_wf h a b)

/-- A filled address reads as the byte; every other one is left alone. -/
theorem read_fill (m : Memory) (as : List Nat) (b : Byte) (x : Nat) :
    (m.fill as b).read x = if x ∈ as then some b else m.read x := by
  induction as generalizing m with
  | nil => simp [Memory.fill]
  | cons a as ih =>
    rw [fill_cons, ih, read_write]
    by_cases h1 : x ∈ as <;> by_cases h2 : x = a <;> simp [h1, h2]

end Memory

/-- The legal addresses of a mode, as a list and as a test (R116). -/
theorem mem_legalAddrs (n : Bool) (a : DdAddr) : a.toNat ∈ legalAddrs n ↔ legalAddr n a = true := by
  cases n <;> simp [legalAddrs, legalAddr, List.mem_range'_1] <;> omega

end Sys2Proof.Machine
end

