-- ==== Sys2Proof/Laws/State.lean ====
section
/-! SUPPORT. Inputs, the running of an operation, and what each update of the state leaves alone. -/

namespace Sys2Proof

/-! ## Inputs -/

@[simp] theorem Inputs.rest_at (i : Inputs) (k : Nat) : i.rest.at k = i.at (k + 1) := by
  cases i with
  | mk up th => cases up <;> simp [Inputs.at, Inputs.rest]

@[simp] theorem Inputs.drop_at (i : Inputs) (n k : Nat) : (i.drop n).at k = i.at (n + k) := by
  simp [Inputs.at, Inputs.drop, List.getD_eq_getElem?_getD, List.getElem?_drop]

@[simp] theorem Inputs.drop_zero (i : Inputs) : i.drop 0 = i := rfl

@[simp] theorem Inputs.drop_rest (i : Inputs) (n : Nat) : i.rest.drop n = i.drop (n + 1) := by
  simp [Inputs.drop, Inputs.rest, ← List.drop_one, List.drop_drop, Nat.add_comm]

@[simp] theorem Inputs.drop_drop (i : Inputs) (m n : Nat) : (i.drop m).drop n = i.drop (m + n) := by
  simp [Inputs.drop, List.drop_drop]

theorem Inputs.rest_eq_drop (i : Inputs) : i.rest = i.drop 1 := by
  simp [Inputs.drop, Inputs.rest]

@[simp] theorem Inputs.spent_drop (i : Inputs) (m n : Nat) : (i.drop m).spent n + i.spent m = i.spent (m + n) := by
  induction n with
  | zero => simp [Inputs.spent]
  | succ n ih => rw [← Nat.add_assoc m n 1]; simp only [Inputs.spent, Inputs.drop_at]; omega

theorem Inputs.spent_add (i : Inputs) (m n : Nat) : i.spent (m + n) = i.spent m + (i.drop m).spent n := by
  rw [Nat.add_comm (i.spent m)]; exact (Inputs.spent_drop i m n).symm

theorem Inputs.spent_one (i : Inputs) : i.spent 1 = (i.at 0).elapsed + (i.at 0).beat.getD 0 := by
  simp [Inputs.spent]

theorem Inputs.Quiet.drop {i : Inputs} {n : Nat} (h : i.Quiet n) (m : Nat) {k : Nat} (hk : m + k ≤ n) :
    (i.drop m).Quiet k := by
  intro j hj
  simpa using h (m + j) (by omega)

theorem Inputs.Quiet.mono {i : Inputs} {n k : Nat} (h : i.Quiet n) (hk : k ≤ n) : i.Quiet k :=
  fun j hj => h j (by omega)

theorem Inputs.Alone.at {i : Inputs} (h : i.Alone) (k : Nat) : (i.at k).foreign = none := by
  unfold Inputs.at
  rw [List.getD_eq_getElem?_getD]
  cases hk : i.upcoming[k]? with
  | none => simpa using h.2
  | some d => simpa using h.1 d (List.mem_of_getElem? hk)

theorem Inputs.Alone.rest {i : Inputs} (h : i.Alone) : i.rest.Alone :=
  ⟨fun d hd => h.1 d (List.mem_of_mem_tail hd), h.2⟩

end Sys2Proof

namespace Sys2Proof.Machine

open Sys2Proof

/-! ## Running an operation -/

@[simp] theorem Ran.done_andThen {α β : Type} (v : α) (s : State) (f : α → State → Ran β) :
    (Ran.done v s).andThen f = f v s := rfl

@[simp] theorem Ran.stopped_andThen {α β : Type} (s : State) (f : α → State → Ran β) :
    (Ran.stopped s : Ran α).andThen f = .stopped s := rfl

@[simp] theorem Ran.done_state {α : Type} (v : α) (s : State) : (Ran.done v s).state = s := rfl

@[simp] theorem Ran.stopped_state {α : Type} (s : State) : (Ran.stopped s : Ran α).state = s := rfl

@[simp] theorem Ran.finish_done (v : RetVal) (s : State) : (Ran.done v s).finish = { s with ret := some v } := rfl

@[simp] theorem Ran.finish_stopped (s : State) : (Ran.stopped s : Ran RetVal).finish = s := rfl

theorem Ran.andThen_assoc {α β γ : Type} (r : Ran α) (f : α → State → Ran β) (g : β → State → Ran γ) :
    (r.andThen f).andThen g = r.andThen fun v s => (f v s).andThen g := by
  cases r <;> rfl

/-- What a sequence that was done is made of. -/
theorem Ran.andThen_done {α β : Type} {r : Ran α} {f : α → State → Ran β} {w : β} {t : State}
    (h : r.andThen f = .done w t) : ∃ v s, r = .done v s ∧ f v s = .done w t := by
  cases r with
  | done v s => exact ⟨v, s, rfl, h⟩
  | stopped s => cases h

theorem running_stopped {s : State} (h : s.Running) : s.stopped = false := by
  simp [State.stopped, h.1, h.2]

/-- A call of a running Main runs its operation. -/
theorem complete_running {s : State} (h : s.Running) (op : State → Ran RetVal) :
    complete op s = .next (op { s with ret := none }).finish := by
  simp [complete, running_stopped h]

/-! ## The controller's mark -/

@[simp] theorem Controller.settle_undefined (k : Controller) : k.settle.undefined = k.undefined := by
  unfold Controller.settle; split <;> rfl

@[simp] theorem Controller.settle_afterInit (k : Controller) : k.settle.afterInit = k.afterInit := by
  unfold Controller.settle; split <;> rfl

theorem Controller.settle_defined {k : Controller} (h : k.undefined = false) : k.settle = k := by
  simp [Controller.settle, h]

/-! ## Frames -/

theorem State.LcdOnly.refl (s : State) : s.LcdOnly s := rfl

theorem State.LcdOnly.trans {s t u : State} (h1 : s.LcdOnly t) (h2 : t.LcdOnly u) : s.LcdOnly u := by
  cases s; cases t; cases u
  simp only [State.LcdOnly, State.mk.injEq] at *
  simp_all

theorem State.LcdOnly.enterPhase {s t : State} (h : s.LcdOnly t) (p : LcdPhase) :
    ({ s with lcdPhase := p } : State).LcdOnly (t.enterPhase p) := by
  rw [State.LcdOnly] at h ⊢; rw [h]; rfl

theorem State.KeypadOnly.refl (s : State) : s.KeypadOnly s := ⟨rfl, rfl, fun _ => rfl⟩

theorem State.KeypadOnly.trans {s t u : State} (h1 : s.KeypadOnly t) (h2 : t.KeypadOnly u) : s.KeypadOnly u := by
  refine ⟨?_, h2.mark.trans h1.mark, fun h => (h2.ctl (h1.mark.trans h)).trans (h1.ctl h)⟩
  have f1 := h1.frame
  have f2 := h2.frame
  clear h1 h2
  cases s; cases t; cases u
  simp only [State.mk.injEq] at *
  simp_all

theorem State.LcdOnly.params {s t : State} (h : s.LcdOnly t) : t.params = s.params := by rw [h]
theorem State.LcdOnly.kpChip {s t : State} (h : s.LcdOnly t) : t.kpChip = s.kpChip := by rw [h]
theorem State.LcdOnly.lcdPhase {s t : State} (h : s.LcdOnly t) : t.lcdPhase = s.lcdPhase := by rw [h]
theorem State.LcdOnly.kpPhase {s t : State} (h : s.LcdOnly t) : t.kpPhase = s.kpPhase := by rw [h]
theorem State.LcdOnly.fatal {s t : State} (h : s.LcdOnly t) : t.fatal = s.fatal := by rw [h]
theorem State.LcdOnly.fatalInfo {s t : State} (h : s.LcdOnly t) : t.fatalInfo = s.fatalInfo := by rw [h]
theorem State.LcdOnly.refused {s t : State} (h : s.LcdOnly t) : t.refused = s.refused := by rw [h]
theorem State.LcdOnly.refusedReason {s t : State} (h : s.LcdOnly t) : t.refusedReason = s.refusedReason := by rw [h]
theorem State.LcdOnly.busOwner {s t : State} (h : s.LcdOnly t) : t.busOwner = s.busOwner := by rw [h]
theorem State.LcdOnly.scanning {s t : State} (h : s.LcdOnly t) : t.scanning = s.scanning := by rw [h]
theorem State.LcdOnly.ret {s t : State} (h : s.LcdOnly t) : t.ret = s.ret := by rw [h]
theorem State.LcdOnly.calls {s t : State} (h : s.LcdOnly t) : t.calls = s.calls := by rw [h]

theorem State.KeypadOnly.params {s t : State} (h : s.KeypadOnly t) : t.params = s.params := by rw [h.frame]
theorem State.KeypadOnly.lcdChip {s t : State} (h : s.KeypadOnly t) : t.lcdChip = s.lcdChip := by rw [h.frame]
theorem State.KeypadOnly.lcdPhase {s t : State} (h : s.KeypadOnly t) : t.lcdPhase = s.lcdPhase := by rw [h.frame]
theorem State.KeypadOnly.kpPhase {s t : State} (h : s.KeypadOnly t) : t.kpPhase = s.kpPhase := by rw [h.frame]
theorem State.KeypadOnly.fatal {s t : State} (h : s.KeypadOnly t) : t.fatal = s.fatal := by rw [h.frame]
theorem State.KeypadOnly.fatalInfo {s t : State} (h : s.KeypadOnly t) : t.fatalInfo = s.fatalInfo := by rw [h.frame]
theorem State.KeypadOnly.refused {s t : State} (h : s.KeypadOnly t) : t.refused = s.refused := by rw [h.frame]
theorem State.KeypadOnly.refusedReason {s t : State} (h : s.KeypadOnly t) : t.refusedReason = s.refusedReason := by rw [h.frame]
theorem State.KeypadOnly.busOwner {s t : State} (h : s.KeypadOnly t) : t.busOwner = s.busOwner := by rw [h.frame]
theorem State.KeypadOnly.scanning {s t : State} (h : s.KeypadOnly t) : t.scanning = s.scanning := by rw [h.frame]
theorem State.KeypadOnly.ret {s t : State} (h : s.KeypadOnly t) : t.ret = s.ret := by rw [h.frame]
theorem State.KeypadOnly.calls {s t : State} (h : s.KeypadOnly t) : t.calls = s.calls := by rw [h.frame]

theorem State.tick_spent (d : Nat) (s : State) : (s.tick d).now = s.now + d + s.inputs.spent 1 := by
  simp only [State.tick, Inputs.spent_one]; omega

/-! ## One field per update -/

@[simp] theorem State.raiseFatal_params (s : State) (c : FaultCode) (i : FaultInfo) : (s.raiseFatal c i).params = s.params := rfl
@[simp] theorem State.raiseFatal_lcdChip (s : State) (c : FaultCode) (i : FaultInfo) : (s.raiseFatal c i).lcdChip = s.lcdChip := rfl
@[simp] theorem State.raiseFatal_kpChip (s : State) (c : FaultCode) (i : FaultInfo) : (s.raiseFatal c i).kpChip = s.kpChip := rfl
@[simp] theorem State.raiseFatal_ctl (s : State) (c : FaultCode) (i : FaultInfo) : (s.raiseFatal c i).ctl = s.ctl := rfl
@[simp] theorem State.raiseFatal_lcdPhase (s : State) (c : FaultCode) (i : FaultInfo) : (s.raiseFatal c i).lcdPhase = s.lcdPhase := rfl
@[simp] theorem State.raiseFatal_kpPhase (s : State) (c : FaultCode) (i : FaultInfo) : (s.raiseFatal c i).kpPhase = s.kpPhase := rfl
@[simp] theorem State.raiseFatal_trace (s : State) (c : FaultCode) (i : FaultInfo) : (s.raiseFatal c i).trace = s.trace := rfl
@[simp] theorem State.raiseFatal_now (s : State) (c : FaultCode) (i : FaultInfo) : (s.raiseFatal c i).now = s.now := rfl
@[simp] theorem State.raiseFatal_fatal (s : State) (c : FaultCode) (i : FaultInfo) : (s.raiseFatal c i).fatal = some c := rfl
@[simp] theorem State.raiseFatal_fatalInfo (s : State) (c : FaultCode) (i : FaultInfo) : (s.raiseFatal c i).fatalInfo = some i := rfl
@[simp] theorem State.raiseFatal_refused (s : State) (c : FaultCode) (i : FaultInfo) : (s.raiseFatal c i).refused = s.refused := rfl
@[simp] theorem State.raiseFatal_refusedReason (s : State) (c : FaultCode) (i : FaultInfo) : (s.raiseFatal c i).refusedReason = s.refusedReason := rfl
@[simp] theorem State.raiseFatal_busOwner (s : State) (c : FaultCode) (i : FaultInfo) : (s.raiseFatal c i).busOwner = s.busOwner := rfl
@[simp] theorem State.raiseFatal_scanning (s : State) (c : FaultCode) (i : FaultInfo) : (s.raiseFatal c i).scanning = s.scanning := rfl
@[simp] theorem State.raiseFatal_ret (s : State) (c : FaultCode) (i : FaultInfo) : (s.raiseFatal c i).ret = s.ret := rfl
@[simp] theorem State.raiseFatal_calls (s : State) (c : FaultCode) (i : FaultInfo) : (s.raiseFatal c i).calls = s.calls := rfl
@[simp] theorem State.raiseFatal_inputs (s : State) (c : FaultCode) (i : FaultInfo) : (s.raiseFatal c i).inputs = s.inputs := rfl

@[simp] theorem State.refuse_params (s : State) (r : RefusalReason) : (s.refuse r).params = s.params := rfl
@[simp] theorem State.refuse_lcdChip (s : State) (r : RefusalReason) : (s.refuse r).lcdChip = s.lcdChip := rfl
@[simp] theorem State.refuse_kpChip (s : State) (r : RefusalReason) : (s.refuse r).kpChip = s.kpChip := rfl
@[simp] theorem State.refuse_ctl (s : State) (r : RefusalReason) : (s.refuse r).ctl = s.ctl := rfl
@[simp] theorem State.refuse_lcdPhase (s : State) (r : RefusalReason) : (s.refuse r).lcdPhase = s.lcdPhase := rfl
@[simp] theorem State.refuse_kpPhase (s : State) (r : RefusalReason) : (s.refuse r).kpPhase = s.kpPhase := rfl
@[simp] theorem State.refuse_trace (s : State) (r : RefusalReason) : (s.refuse r).trace = s.trace := rfl
@[simp] theorem State.refuse_now (s : State) (r : RefusalReason) : (s.refuse r).now = s.now := rfl
@[simp] theorem State.refuse_fatal (s : State) (r : RefusalReason) : (s.refuse r).fatal = s.fatal := rfl
@[simp] theorem State.refuse_fatalInfo (s : State) (r : RefusalReason) : (s.refuse r).fatalInfo = s.fatalInfo := rfl
@[simp] theorem State.refuse_refused (s : State) (r : RefusalReason) : (s.refuse r).refused = true := rfl
@[simp] theorem State.refuse_refusedReason (s : State) (r : RefusalReason) : (s.refuse r).refusedReason = some r := rfl
@[simp] theorem State.refuse_busOwner (s : State) (r : RefusalReason) : (s.refuse r).busOwner = s.busOwner := rfl
@[simp] theorem State.refuse_scanning (s : State) (r : RefusalReason) : (s.refuse r).scanning = s.scanning := rfl
@[simp] theorem State.refuse_ret (s : State) (r : RefusalReason) : (s.refuse r).ret = s.ret := rfl
@[simp] theorem State.refuse_calls (s : State) (r : RefusalReason) : (s.refuse r).calls = s.calls := rfl
@[simp] theorem State.refuse_inputs (s : State) (r : RefusalReason) : (s.refuse r).inputs = s.inputs := rfl

@[simp] theorem State.hold_params (s : State) (o : PublicOp) : (s.hold o).params = s.params := rfl
@[simp] theorem State.hold_lcdChip (s : State) (o : PublicOp) : (s.hold o).lcdChip = s.lcdChip := rfl
@[simp] theorem State.hold_kpChip (s : State) (o : PublicOp) : (s.hold o).kpChip = s.kpChip := rfl
@[simp] theorem State.hold_ctl (s : State) (o : PublicOp) : (s.hold o).ctl = s.ctl := rfl
@[simp] theorem State.hold_lcdPhase (s : State) (o : PublicOp) : (s.hold o).lcdPhase = s.lcdPhase := rfl
@[simp] theorem State.hold_kpPhase (s : State) (o : PublicOp) : (s.hold o).kpPhase = s.kpPhase := rfl
@[simp] theorem State.hold_trace (s : State) (o : PublicOp) : (s.hold o).trace = s.trace := rfl
@[simp] theorem State.hold_now (s : State) (o : PublicOp) : (s.hold o).now = s.now := rfl
@[simp] theorem State.hold_fatal (s : State) (o : PublicOp) : (s.hold o).fatal = s.fatal := rfl
@[simp] theorem State.hold_fatalInfo (s : State) (o : PublicOp) : (s.hold o).fatalInfo = s.fatalInfo := rfl
@[simp] theorem State.hold_refused (s : State) (o : PublicOp) : (s.hold o).refused = s.refused := rfl
@[simp] theorem State.hold_refusedReason (s : State) (o : PublicOp) : (s.hold o).refusedReason = s.refusedReason := rfl
@[simp] theorem State.hold_busOwner (s : State) (o : PublicOp) : (s.hold o).busOwner = some o := rfl
@[simp] theorem State.hold_scanning (s : State) (o : PublicOp) : (s.hold o).scanning = s.scanning := rfl
@[simp] theorem State.hold_ret (s : State) (o : PublicOp) : (s.hold o).ret = s.ret := rfl
@[simp] theorem State.hold_calls (s : State) (o : PublicOp) : (s.hold o).calls = s.calls := rfl
@[simp] theorem State.hold_inputs (s : State) (o : PublicOp) : (s.hold o).inputs = s.inputs := rfl

@[simp] theorem State.release_params (s : State) : (s.release).params = s.params := rfl
@[simp] theorem State.release_lcdChip (s : State) : (s.release).lcdChip = s.lcdChip := rfl
@[simp] theorem State.release_kpChip (s : State) : (s.release).kpChip = s.kpChip := rfl
@[simp] theorem State.release_ctl (s : State) : (s.release).ctl = s.ctl := rfl
@[simp] theorem State.release_lcdPhase (s : State) : (s.release).lcdPhase = s.lcdPhase := rfl
@[simp] theorem State.release_kpPhase (s : State) : (s.release).kpPhase = s.kpPhase := rfl
@[simp] theorem State.release_trace (s : State) : (s.release).trace = s.trace := rfl
@[simp] theorem State.release_now (s : State) : (s.release).now = s.now := rfl
@[simp] theorem State.release_fatal (s : State) : (s.release).fatal = s.fatal := rfl
@[simp] theorem State.release_fatalInfo (s : State) : (s.release).fatalInfo = s.fatalInfo := rfl
@[simp] theorem State.release_refused (s : State) : (s.release).refused = s.refused := rfl
@[simp] theorem State.release_refusedReason (s : State) : (s.release).refusedReason = s.refusedReason := rfl
@[simp] theorem State.release_busOwner (s : State) : (s.release).busOwner = none := rfl
@[simp] theorem State.release_scanning (s : State) : (s.release).scanning = s.scanning := rfl
@[simp] theorem State.release_ret (s : State) : (s.release).ret = s.ret := rfl
@[simp] theorem State.release_calls (s : State) : (s.release).calls = s.calls := rfl
@[simp] theorem State.release_inputs (s : State) : (s.release).inputs = s.inputs := rfl

@[simp] theorem State.tick_params (s : State) (n : Nat) : (s.tick n).params = s.params := rfl
@[simp] theorem State.tick_lcdChip (s : State) (n : Nat) : (s.tick n).lcdChip = s.lcdChip := rfl
@[simp] theorem State.tick_kpChip (s : State) (n : Nat) : (s.tick n).kpChip = s.kpChip := rfl
@[simp] theorem State.tick_ctl (s : State) (n : Nat) : (s.tick n).ctl = s.ctl.settle := rfl
@[simp] theorem State.tick_lcdPhase (s : State) (n : Nat) : (s.tick n).lcdPhase = s.lcdPhase := rfl
@[simp] theorem State.tick_kpPhase (s : State) (n : Nat) : (s.tick n).kpPhase = s.kpPhase := rfl
@[simp] theorem State.tick_trace (s : State) (n : Nat) : (s.tick n).trace = s.trace := rfl
@[simp] theorem State.tick_now (s : State) (n : Nat) : (s.tick n).now = s.now + n + (s.inputs.at 0).elapsed + (s.inputs.at 0).beat.getD 0 := rfl
@[simp] theorem State.tick_fatal (s : State) (n : Nat) : (s.tick n).fatal = s.fatal := rfl
@[simp] theorem State.tick_fatalInfo (s : State) (n : Nat) : (s.tick n).fatalInfo = s.fatalInfo := rfl
@[simp] theorem State.tick_refused (s : State) (n : Nat) : (s.tick n).refused = s.refused := rfl
@[simp] theorem State.tick_refusedReason (s : State) (n : Nat) : (s.tick n).refusedReason = s.refusedReason := rfl
@[simp] theorem State.tick_busOwner (s : State) (n : Nat) : (s.tick n).busOwner = s.busOwner := rfl
@[simp] theorem State.tick_scanning (s : State) (n : Nat) : (s.tick n).scanning = s.scanning := rfl
@[simp] theorem State.tick_ret (s : State) (n : Nat) : (s.tick n).ret = s.ret := rfl
@[simp] theorem State.tick_calls (s : State) (n : Nat) : (s.tick n).calls = s.calls := rfl
@[simp] theorem State.tick_inputs (s : State) (n : Nat) : (s.tick n).inputs = s.inputs.rest := rfl

@[simp] theorem State.heartbeat_params (s : State) : (s.heartbeat).params = s.params := rfl
@[simp] theorem State.heartbeat_lcdChip (s : State) : (s.heartbeat).lcdChip = s.lcdChip := rfl
@[simp] theorem State.heartbeat_kpChip (s : State) : (s.heartbeat).kpChip = s.kpChip := rfl
@[simp] theorem State.heartbeat_ctl (s : State) : (s.heartbeat).ctl = s.ctl.settle := rfl
@[simp] theorem State.heartbeat_lcdPhase (s : State) : (s.heartbeat).lcdPhase = s.lcdPhase := rfl
@[simp] theorem State.heartbeat_kpPhase (s : State) : (s.heartbeat).kpPhase = s.kpPhase := rfl
@[simp] theorem State.heartbeat_trace (s : State) : (s.heartbeat).trace = s.trace := rfl
@[simp] theorem State.heartbeat_now (s : State) : (s.heartbeat).now = s.now + (s.inputs.at 0).beat.getD 0 := rfl
@[simp] theorem State.heartbeat_fatal (s : State) : (s.heartbeat).fatal = s.fatal := rfl
@[simp] theorem State.heartbeat_fatalInfo (s : State) : (s.heartbeat).fatalInfo = s.fatalInfo := rfl
@[simp] theorem State.heartbeat_refused (s : State) : (s.heartbeat).refused = s.refused := rfl
@[simp] theorem State.heartbeat_refusedReason (s : State) : (s.heartbeat).refusedReason = s.refusedReason := rfl
@[simp] theorem State.heartbeat_busOwner (s : State) : (s.heartbeat).busOwner = s.busOwner := rfl
@[simp] theorem State.heartbeat_scanning (s : State) : (s.heartbeat).scanning = s.scanning := rfl
@[simp] theorem State.heartbeat_ret (s : State) : (s.heartbeat).ret = s.ret := rfl
@[simp] theorem State.heartbeat_calls (s : State) : (s.heartbeat).calls = s.calls := rfl
@[simp] theorem State.heartbeat_inputs (s : State) : (s.heartbeat).inputs = s.inputs.rest := rfl

@[simp] theorem State.dropDraw_params (s : State) : (s.dropDraw).params = s.params := rfl
@[simp] theorem State.dropDraw_lcdChip (s : State) : (s.dropDraw).lcdChip = s.lcdChip := rfl
@[simp] theorem State.dropDraw_kpChip (s : State) : (s.dropDraw).kpChip = s.kpChip := rfl
@[simp] theorem State.dropDraw_ctl (s : State) : (s.dropDraw).ctl = s.ctl := rfl
@[simp] theorem State.dropDraw_lcdPhase (s : State) : (s.dropDraw).lcdPhase = s.lcdPhase := rfl
@[simp] theorem State.dropDraw_kpPhase (s : State) : (s.dropDraw).kpPhase = s.kpPhase := rfl
@[simp] theorem State.dropDraw_trace (s : State) : (s.dropDraw).trace = s.trace := rfl
@[simp] theorem State.dropDraw_now (s : State) : (s.dropDraw).now = s.now := rfl
@[simp] theorem State.dropDraw_fatal (s : State) : (s.dropDraw).fatal = s.fatal := rfl
@[simp] theorem State.dropDraw_fatalInfo (s : State) : (s.dropDraw).fatalInfo = s.fatalInfo := rfl
@[simp] theorem State.dropDraw_refused (s : State) : (s.dropDraw).refused = s.refused := rfl
@[simp] theorem State.dropDraw_refusedReason (s : State) : (s.dropDraw).refusedReason = s.refusedReason := rfl
@[simp] theorem State.dropDraw_busOwner (s : State) : (s.dropDraw).busOwner = s.busOwner := rfl
@[simp] theorem State.dropDraw_scanning (s : State) : (s.dropDraw).scanning = s.scanning := rfl
@[simp] theorem State.dropDraw_ret (s : State) : (s.dropDraw).ret = s.ret := rfl
@[simp] theorem State.dropDraw_calls (s : State) : (s.dropDraw).calls = s.calls := rfl
@[simp] theorem State.dropDraw_inputs (s : State) : (s.dropDraw).inputs = s.inputs.rest := rfl

@[simp] theorem State.record_params (s : State) (b : BusCall) (e : Bool) : (s.record b e).params = s.params := rfl
@[simp] theorem State.record_lcdChip (s : State) (b : BusCall) (e : Bool) : (s.record b e).lcdChip = s.lcdChip := rfl
@[simp] theorem State.record_kpChip (s : State) (b : BusCall) (e : Bool) : (s.record b e).kpChip = s.kpChip := rfl
@[simp] theorem State.record_ctl (s : State) (b : BusCall) (e : Bool) : (s.record b e).ctl = s.ctl := rfl
@[simp] theorem State.record_lcdPhase (s : State) (b : BusCall) (e : Bool) : (s.record b e).lcdPhase = s.lcdPhase := rfl
@[simp] theorem State.record_kpPhase (s : State) (b : BusCall) (e : Bool) : (s.record b e).kpPhase = s.kpPhase := rfl
@[simp] theorem State.record_trace (s : State) (b : BusCall) (e : Bool) : (s.record b e).trace = s.trace ++ [{ call := b, err := e, time := s.now }] := rfl
@[simp] theorem State.record_now (s : State) (b : BusCall) (e : Bool) : (s.record b e).now = s.now := rfl
@[simp] theorem State.record_fatal (s : State) (b : BusCall) (e : Bool) : (s.record b e).fatal = s.fatal := rfl
@[simp] theorem State.record_fatalInfo (s : State) (b : BusCall) (e : Bool) : (s.record b e).fatalInfo = s.fatalInfo := rfl
@[simp] theorem State.record_refused (s : State) (b : BusCall) (e : Bool) : (s.record b e).refused = s.refused := rfl
@[simp] theorem State.record_refusedReason (s : State) (b : BusCall) (e : Bool) : (s.record b e).refusedReason = s.refusedReason := rfl
@[simp] theorem State.record_busOwner (s : State) (b : BusCall) (e : Bool) : (s.record b e).busOwner = s.busOwner := rfl
@[simp] theorem State.record_scanning (s : State) (b : BusCall) (e : Bool) : (s.record b e).scanning = s.scanning := rfl
@[simp] theorem State.record_ret (s : State) (b : BusCall) (e : Bool) : (s.record b e).ret = s.ret := rfl
@[simp] theorem State.record_calls (s : State) (b : BusCall) (e : Bool) : (s.record b e).calls = s.calls := rfl
@[simp] theorem State.record_inputs (s : State) (b : BusCall) (e : Bool) : (s.record b e).inputs = s.inputs := rfl

@[simp] theorem State.enterPhase_lcdPhase (s : State) (p : LcdPhase) : (s.enterPhase p).lcdPhase = p := rfl
@[simp] theorem State.enterPhase_ctl (s : State) (p : LcdPhase) :
    (s.enterPhase p).ctl = { s.ctl with afterInit := p == .ready } := rfl
@[simp] theorem State.enterPhase_params (s : State) (p : LcdPhase) : (s.enterPhase p).params = s.params := rfl
@[simp] theorem State.enterPhase_lcdChip (s : State) (p : LcdPhase) : (s.enterPhase p).lcdChip = s.lcdChip := rfl
@[simp] theorem State.enterPhase_kpChip (s : State) (p : LcdPhase) : (s.enterPhase p).kpChip = s.kpChip := rfl
@[simp] theorem State.enterPhase_kpPhase (s : State) (p : LcdPhase) : (s.enterPhase p).kpPhase = s.kpPhase := rfl
@[simp] theorem State.enterPhase_trace (s : State) (p : LcdPhase) : (s.enterPhase p).trace = s.trace := rfl
@[simp] theorem State.enterPhase_now (s : State) (p : LcdPhase) : (s.enterPhase p).now = s.now := rfl
@[simp] theorem State.enterPhase_fatal (s : State) (p : LcdPhase) : (s.enterPhase p).fatal = s.fatal := rfl
@[simp] theorem State.enterPhase_fatalInfo (s : State) (p : LcdPhase) : (s.enterPhase p).fatalInfo = s.fatalInfo := rfl
@[simp] theorem State.enterPhase_refused (s : State) (p : LcdPhase) : (s.enterPhase p).refused = s.refused := rfl
@[simp] theorem State.enterPhase_refusedReason (s : State) (p : LcdPhase) :
    (s.enterPhase p).refusedReason = s.refusedReason := rfl
@[simp] theorem State.enterPhase_busOwner (s : State) (p : LcdPhase) : (s.enterPhase p).busOwner = s.busOwner := rfl
@[simp] theorem State.enterPhase_scanning (s : State) (p : LcdPhase) : (s.enterPhase p).scanning = s.scanning := rfl
@[simp] theorem State.enterPhase_ret (s : State) (p : LcdPhase) : (s.enterPhase p).ret = s.ret := rfl
@[simp] theorem State.enterPhase_calls (s : State) (p : LcdPhase) : (s.enterPhase p).calls = s.calls := rfl
@[simp] theorem State.enterPhase_inputs (s : State) (p : LcdPhase) : (s.enterPhase p).inputs = s.inputs := rfl

@[simp] theorem State.command_params (s : State) (c : Cmd) : (s.command c).params = s.params := rfl
@[simp] theorem State.command_lcdChip (s : State) (c : Cmd) : (s.command c).lcdChip = s.lcdChip := rfl
@[simp] theorem State.command_kpChip (s : State) (c : Cmd) : (s.command c).kpChip = s.kpChip := rfl
@[simp] theorem State.command_ctl (s : State) (c : Cmd) : (s.command c).ctl = (s.ctl.run s.now c).settle := rfl
@[simp] theorem State.command_lcdPhase (s : State) (c : Cmd) : (s.command c).lcdPhase = s.lcdPhase := rfl
@[simp] theorem State.command_kpPhase (s : State) (c : Cmd) : (s.command c).kpPhase = s.kpPhase := rfl
@[simp] theorem State.command_trace (s : State) (c : Cmd) : (s.command c).trace = s.trace := rfl
@[simp] theorem State.command_now (s : State) (c : Cmd) : (s.command c).now = s.now := rfl
@[simp] theorem State.command_fatal (s : State) (c : Cmd) : (s.command c).fatal = s.fatal := rfl
@[simp] theorem State.command_fatalInfo (s : State) (c : Cmd) : (s.command c).fatalInfo = s.fatalInfo := rfl
@[simp] theorem State.command_refused (s : State) (c : Cmd) : (s.command c).refused = s.refused := rfl
@[simp] theorem State.command_refusedReason (s : State) (c : Cmd) : (s.command c).refusedReason = s.refusedReason := rfl
@[simp] theorem State.command_busOwner (s : State) (c : Cmd) : (s.command c).busOwner = s.busOwner := rfl
@[simp] theorem State.command_scanning (s : State) (c : Cmd) : (s.command c).scanning = s.scanning := rfl
@[simp] theorem State.command_ret (s : State) (c : Cmd) : (s.command c).ret = s.ret := rfl
@[simp] theorem State.command_calls (s : State) (c : Cmd) : (s.command c).calls = s.calls := rfl
@[simp] theorem State.command_inputs (s : State) (c : Cmd) : (s.command c).inputs = s.inputs := rfl

@[simp] theorem State.restart_params (s : State) : (s.restart).params = s.params := rfl
@[simp] theorem State.restart_lcdChip (s : State) : (s.restart).lcdChip = s.lcdChip := rfl
@[simp] theorem State.restart_kpChip (s : State) : (s.restart).kpChip = s.kpChip := rfl
@[simp] theorem State.restart_ctl (s : State) : (s.restart).ctl = s.ctl := rfl
@[simp] theorem State.restart_lcdPhase (s : State) : (s.restart).lcdPhase = .unpowered := rfl
@[simp] theorem State.restart_kpPhase (s : State) : (s.restart).kpPhase = .uninit := rfl
@[simp] theorem State.restart_trace (s : State) : (s.restart).trace = [] := rfl
@[simp] theorem State.restart_now (s : State) : (s.restart).now = s.now := rfl
@[simp] theorem State.restart_fatal (s : State) : (s.restart).fatal = none := rfl
@[simp] theorem State.restart_fatalInfo (s : State) : (s.restart).fatalInfo = none := rfl
@[simp] theorem State.restart_refused (s : State) : (s.restart).refused = s.refused := rfl
@[simp] theorem State.restart_refusedReason (s : State) : (s.restart).refusedReason = s.refusedReason := rfl
@[simp] theorem State.restart_busOwner (s : State) : (s.restart).busOwner = none := rfl
@[simp] theorem State.restart_scanning (s : State) : (s.restart).scanning = none := rfl
@[simp] theorem State.restart_ret (s : State) : (s.restart).ret = none := rfl
@[simp] theorem State.restart_calls (s : State) : (s.restart).calls = s.calls := rfl
@[simp] theorem State.restart_inputs (s : State) : (s.restart).inputs = s.inputs := rfl

@[simp] theorem State.chipWrite_params (c : ChipId) (r : ChipReg) (v : Byte) (d : Draw) (s : State) :
    (s.chipWrite c r v d).params = s.params := by cases c <;> rfl
@[simp] theorem State.chipWrite_lcdPhase (c : ChipId) (r : ChipReg) (v : Byte) (d : Draw) (s : State) :
    (s.chipWrite c r v d).lcdPhase = s.lcdPhase := by cases c <;> rfl
@[simp] theorem State.chipWrite_kpPhase (c : ChipId) (r : ChipReg) (v : Byte) (d : Draw) (s : State) :
    (s.chipWrite c r v d).kpPhase = s.kpPhase := by cases c <;> rfl
@[simp] theorem State.chipWrite_trace (c : ChipId) (r : ChipReg) (v : Byte) (d : Draw) (s : State) :
    (s.chipWrite c r v d).trace = s.trace := by cases c <;> rfl
@[simp] theorem State.chipWrite_now (c : ChipId) (r : ChipReg) (v : Byte) (d : Draw) (s : State) :
    (s.chipWrite c r v d).now = s.now := by cases c <;> rfl
@[simp] theorem State.chipWrite_fatal (c : ChipId) (r : ChipReg) (v : Byte) (d : Draw) (s : State) :
    (s.chipWrite c r v d).fatal = s.fatal := by cases c <;> rfl
@[simp] theorem State.chipWrite_fatalInfo (c : ChipId) (r : ChipReg) (v : Byte) (d : Draw) (s : State) :
    (s.chipWrite c r v d).fatalInfo = s.fatalInfo := by cases c <;> rfl
@[simp] theorem State.chipWrite_refused (c : ChipId) (r : ChipReg) (v : Byte) (d : Draw) (s : State) :
    (s.chipWrite c r v d).refused = s.refused := by cases c <;> rfl
@[simp] theorem State.chipWrite_refusedReason (c : ChipId) (r : ChipReg) (v : Byte) (d : Draw) (s : State) :
    (s.chipWrite c r v d).refusedReason = s.refusedReason := by cases c <;> rfl
@[simp] theorem State.chipWrite_busOwner (c : ChipId) (r : ChipReg) (v : Byte) (d : Draw) (s : State) :
    (s.chipWrite c r v d).busOwner = s.busOwner := by cases c <;> rfl
@[simp] theorem State.chipWrite_scanning (c : ChipId) (r : ChipReg) (v : Byte) (d : Draw) (s : State) :
    (s.chipWrite c r v d).scanning = s.scanning := by cases c <;> rfl
@[simp] theorem State.chipWrite_ret (c : ChipId) (r : ChipReg) (v : Byte) (d : Draw) (s : State) :
    (s.chipWrite c r v d).ret = s.ret := by cases c <;> rfl
@[simp] theorem State.chipWrite_calls (c : ChipId) (r : ChipReg) (v : Byte) (d : Draw) (s : State) :
    (s.chipWrite c r v d).calls = s.calls := by cases c <;> rfl
@[simp] theorem State.chipWrite_inputs (c : ChipId) (r : ChipReg) (v : Byte) (d : Draw) (s : State) :
    (s.chipWrite c r v d).inputs = s.inputs := by cases c <;> rfl

@[simp] theorem State.foreignCall_params (g : ForeignCall) (d : Draw) (s : State) :
    (s.foreignCall g d).params = s.params := by unfold State.foreignCall; split <;> (try split) <;> simp
@[simp] theorem State.foreignCall_lcdPhase (g : ForeignCall) (d : Draw) (s : State) :
    (s.foreignCall g d).lcdPhase = s.lcdPhase := by unfold State.foreignCall; split <;> (try split) <;> simp
@[simp] theorem State.foreignCall_kpPhase (g : ForeignCall) (d : Draw) (s : State) :
    (s.foreignCall g d).kpPhase = s.kpPhase := by unfold State.foreignCall; split <;> (try split) <;> simp
@[simp] theorem State.foreignCall_trace (g : ForeignCall) (d : Draw) (s : State) :
    (s.foreignCall g d).trace = s.trace := by unfold State.foreignCall; split <;> (try split) <;> simp
@[simp] theorem State.foreignCall_now (g : ForeignCall) (d : Draw) (s : State) :
    (s.foreignCall g d).now = s.now := by unfold State.foreignCall; split <;> (try split) <;> simp
@[simp] theorem State.foreignCall_fatal (g : ForeignCall) (d : Draw) (s : State) :
    (s.foreignCall g d).fatal = s.fatal := by unfold State.foreignCall; split <;> (try split) <;> simp
@[simp] theorem State.foreignCall_fatalInfo (g : ForeignCall) (d : Draw) (s : State) :
    (s.foreignCall g d).fatalInfo = s.fatalInfo := by unfold State.foreignCall; split <;> (try split) <;> simp
@[simp] theorem State.foreignCall_refused (g : ForeignCall) (d : Draw) (s : State) :
    (s.foreignCall g d).refused = s.refused := by unfold State.foreignCall; split <;> (try split) <;> simp
@[simp] theorem State.foreignCall_refusedReason (g : ForeignCall) (d : Draw) (s : State) :
    (s.foreignCall g d).refusedReason = s.refusedReason := by unfold State.foreignCall; split <;> (try split) <;> simp
@[simp] theorem State.foreignCall_busOwner (g : ForeignCall) (d : Draw) (s : State) :
    (s.foreignCall g d).busOwner = s.busOwner := by unfold State.foreignCall; split <;> (try split) <;> simp
@[simp] theorem State.foreignCall_scanning (g : ForeignCall) (d : Draw) (s : State) :
    (s.foreignCall g d).scanning = s.scanning := by unfold State.foreignCall; split <;> (try split) <;> simp
@[simp] theorem State.foreignCall_ret (g : ForeignCall) (d : Draw) (s : State) :
    (s.foreignCall g d).ret = s.ret := by unfold State.foreignCall; split <;> (try split) <;> simp
@[simp] theorem State.foreignCall_calls (g : ForeignCall) (d : Draw) (s : State) :
    (s.foreignCall g d).calls = s.calls := by unfold State.foreignCall; split <;> (try split) <;> simp
@[simp] theorem State.foreignCall_inputs (g : ForeignCall) (d : Draw) (s : State) :
    (s.foreignCall g d).inputs = s.inputs := by unfold State.foreignCall; split <;> (try split) <;> simp

end Sys2Proof.Machine
end

