-- ==== Sys2Proof/Laws/Controller.lean ====
section
/-! SUPPORT. What the controller does on a sample of its lines, and what its instructions depend on. -/

namespace Sys2Proof.Machine

open Sys2Proof

/-! ## Samples (R500 to R503) -/

/-- The controller's record after a sample that makes no Enable edge. -/
def Lcd.see (l : Lcd) (t : Nat) (new : Lines) : Lcd :=
  { l with
    tLines := if new.rs ≠ l.rs ∨ new.db ≠ l.db then t else l.tLines
    rs := new.rs, en := new.en, db := new.db }

/-- When an Enable rise meets R501. -/
theorem riseViolates_eq_false {t : Nat} {l : Lcd} (h1 : l.tLines + Config.T_AS ≤ t)
    (h2 : ∀ tr, l.tRise = some tr → tr + Config.T_CYC ≤ t) : riseViolates t l = false := by
  have h1' : ¬ t < l.tLines + Config.T_AS := by omega
  cases htr : l.tRise with
  | none => simp [riseViolates, h1', htr]
  | some tr =>
    have h2' : ¬ t < tr + Config.T_CYC := by have := h2 tr htr; omega
    simp [riseViolates, h1', htr, h2']

/-- When an Enable fall meets R502. -/
theorem fallViolates_eq_false {t tr : Nat} {l : Lcd} (h0 : l.tRise = some tr) (h1 : tr + Config.T_PW ≤ t)
    (h2 : l.tLines ≤ tr) (h3 : l.busyUntil ≤ t) : fallViolates t l = false := by
  have h1' : ¬ t < tr + Config.T_PW := by omega
  have h2' : ¬ tr < l.tLines := by omega
  have h3' : ¬ t < l.busyUntil := by omega
  simp [fallViolates, h0, h1', h2', h3']

/-- With EN low before and after, a sample only sees the levels. -/
theorem sample_low {k : Controller} (hu : k.undefined = false) (he : k.lcd.en = false) (t : Nat) (lo : Nibble)
    {new : Lines} (hn : new.en = false) : k.sample t lo new = { k with lcd := k.lcd.see t new } := by
  obtain ⟨l, u, e, g, i⟩ := k
  simp only at hu he
  subst hu
  simp [Controller.sample, Controller.edge, Controller.settle, Lcd.see, he, hn]

/-- An Enable rise that meets the bounds of R501 and changes no other line records its time. -/
theorem sample_rise {k : Controller} (hu : k.undefined = false) (he : k.lcd.en = false) {t : Nat} (lo : Nibble)
    {new : Lines} (hn : new.en = true) (hr : new.rs = k.lcd.rs) (hd : new.db = k.lcd.db)
    (hv : riseViolates t k.lcd = false) :
    k.sample t lo new = { k with lcd := { k.lcd with tRise := some t, en := true } } := by
  obtain ⟨l, u, e, g, i⟩ := k
  obtain ⟨ne, nr, nd⟩ := new
  simp only at hu he hn hr hd hv
  cases l
  simp only at he
  subst hu hn hr hd he
  simp [Controller.sample, Controller.edge, Controller.settle, Controller.rise, hv]

/-- An Enable fall that meets the bounds of R502 and changes no other line latches its levels. -/
theorem sample_fall {k : Controller} (hu : k.undefined = false) (he : k.lcd.en = true) {t : Nat} (lo : Nibble)
    {new : Lines} (hn : new.en = false) (hr : new.rs = k.lcd.rs) (hd : new.db = k.lcd.db)
    (hv : fallViolates t k.lcd = false) :
    k.sample t lo new = Controller.settle
      { k.transfer t lo k.lcd.rs k.lcd.db with
        lcd := { (k.transfer t lo k.lcd.rs k.lcd.db).lcd with rs := k.lcd.rs, en := false, db := k.lcd.db } } := by
  obtain ⟨l, u, e, g, i⟩ := k
  obtain ⟨ne, nr, nd⟩ := new
  simp only at hu he hn hr hd hv
  cases l
  simp only at he
  subst hu hn hr hd he
  simp [Controller.sample, Controller.edge, Controller.fall, hv]

/-! ## What an instruction depends on and leaves alone (R509 to R519) -/

/-- The newline's address is taken in every mode (R517, R530). -/
@[simp] theorem takesAddr_newline (n i : Bool) : takesAddr n i 64#7 = true := by revert n i; decide

/-- An instruction's effect depends on the controller's view alone. -/
theorem cmdEffect_view {k k' : Controller} (h : k.view = k'.view) (c : Cmd) :
    (cmdEffect c k).view = (cmdEffect c k').view := by
  obtain ⟨l, u, e, g, i⟩ := k
  obtain ⟨l', u', e', g', i'⟩ := k'
  cases l
  cases l'
  simp only [Controller.view, Lcd.screen, Controller.mk.injEq, Lcd.mk.injEq, true_and, and_true] at h
  obtain ⟨⟨rfl, rfl, rfl, rfl, rfl, rfl, rfl, rfl, rfl, rfl, rfl⟩, rfl, rfl, rfl, rfl⟩ := h
  cases c <;>
    simp only [cmdEffect, cmdNopInvalid, cmdClearDisplay, cmdReturnHome, cmdEntryModeSet, cmdDisplayControl,
      cmdCursorDisplayShift, cmdFunctionSet, cmdSetCgramAddr, cmdSetDdramAddr, cmdReadBusyAddr, cmdWriteData,
      cmdReadData, Controller.undefine, Controller.moveAc, Controller.storeAtAc] <;>
    (repeat' split) <;> simp_all [Controller.view, Lcd.screen]

/-- An instruction leaves the lines, their times and the busy time alone. -/
theorem cmdEffect_lines (c : Cmd) (k : Controller) :
    (cmdEffect c k).lcd.en = k.lcd.en ∧ (cmdEffect c k).lcd.rs = k.lcd.rs ∧ (cmdEffect c k).lcd.db = k.lcd.db ∧
      (cmdEffect c k).lcd.tRise = k.lcd.tRise ∧ (cmdEffect c k).lcd.tLines = k.lcd.tLines ∧
      (cmdEffect c k).lcd.busyUntil = k.lcd.busyUntil := by
  cases c <;>
    simp only [cmdEffect, cmdNopInvalid, cmdClearDisplay, cmdReturnHome, cmdEntryModeSet, cmdDisplayControl,
      cmdCursorDisplayShift, cmdFunctionSet, cmdSetCgramAddr, cmdSetDdramAddr, cmdReadBusyAddr, cmdWriteData,
      cmdReadData, Controller.undefine, Controller.moveAc, Controller.storeAtAc] <;>
    (repeat' split) <;> simp_all

/-- In 4-bit mode an instruction leaves the data length and the nibble phase alone. -/
theorem cmdEffect_fourBit (c : Cmd) {k : Controller} (h : k.lcd.dl = .four) :
    (cmdEffect c k).lcd.dl = .four ∧ (cmdEffect c k).lcd.phase = k.lcd.phase := by
  cases c <;>
    simp only [cmdEffect, cmdNopInvalid, cmdClearDisplay, cmdReturnHome, cmdEntryModeSet, cmdDisplayControl,
      cmdCursorDisplayShift, cmdFunctionSet, cmdSetCgramAddr, cmdSetDdramAddr, cmdReadBusyAddr, cmdWriteData,
      cmdReadData, Controller.undefine, Controller.moveAc, Controller.storeAtAc] <;>
    (repeat' split) <;> simp_all

/-- An instruction never clears LCD_UNDEFINED (R123). -/
theorem cmdEffect_sticky (c : Cmd) {k : Controller} (h : k.undefined = true) : (cmdEffect c k).undefined = true := by
  cases c <;>
    simp only [cmdEffect, cmdNopInvalid, cmdClearDisplay, cmdReturnHome, cmdEntryModeSet, cmdDisplayControl,
      cmdCursorDisplayShift, cmdFunctionSet, cmdSetCgramAddr, cmdSetDdramAddr, cmdReadBusyAddr, cmdWriteData,
      cmdReadData, Controller.undefine, Controller.moveAc, Controller.storeAtAc] <;>
    (repeat' split) <;> simp_all

/-- No instruction writes the mark of a finished init (log entry 16). -/
@[simp] theorem cmdEffect_afterInit (c : Cmd) (k : Controller) : (cmdEffect c k).afterInit = k.afterInit := by
  cases c <;>
    simp only [cmdEffect, cmdNopInvalid, cmdClearDisplay, cmdReturnHome, cmdEntryModeSet, cmdDisplayControl,
      cmdCursorDisplayShift, cmdFunctionSet, cmdSetCgramAddr, cmdSetDdramAddr, cmdReadBusyAddr, cmdWriteData,
      cmdReadData, Controller.undefine, Controller.moveAc, Controller.storeAtAc] <;>
    (repeat' split) <;> rfl

/-- An instruction keeps DDRAM's canonical form. -/
theorem cmdEffect_wf (c : Cmd) {k : Controller} (h : Memory.wf k.lcd.ddram) : Memory.wf (cmdEffect c k).lcd.ddram := by
  have hnil : Memory.wf [] := List.Pairwise.nil
  cases c <;>
    simp only [cmdEffect, cmdNopInvalid, cmdClearDisplay, cmdReturnHome, cmdEntryModeSet, cmdDisplayControl,
      cmdCursorDisplayShift, cmdFunctionSet, cmdSetCgramAddr, cmdSetDdramAddr, cmdReadBusyAddr, cmdWriteData,
      cmdReadData, Controller.undefine, Controller.moveAc, Controller.storeAtAc] <;>
    (repeat' split) <;>
    first
      | exact h
      | exact Memory.fill_wf h _ _
      | exact Memory.write_wf h _ _
      | exact hnil

end Sys2Proof.Machine
end

