-- ==== Sys2Proof/Laws/Transport.lean ====
section
/-! SUPPORT. What the primitives and the register operations do: once under quiet inputs, as an equation, and once for
every draw, as what they leave alone. -/

namespace Sys2Proof.Machine

open Sys2Proof

/-! ## Targets -/

@[simp] theorem chipAt_lcd (p : Params) : chipAt p p.lcdAddr = some .lcd := by simp [chipAt]

theorem chipAt_kp {p : Params} (h : p.distinct) : chipAt p p.kpAddr = some .kp := by
  simp [chipAt, Ne.symm h.1]

@[simp] theorem regAt_gpio (p : Params) : regAt p p.regGpio = some .gpio := by simp [regAt]

theorem regAt_dir {p : Params} (h : p.distinct) : regAt p p.regDir = some .dir := by
  simp [regAt, Ne.symm h.2.1]

/-! ## Under quiet inputs -/

/-- Without a second bus user's call, a primitive lets its time pass and acts. -/
theorem primitive_alone {α : Type} {s : State} (h : (s.inputs.at 0).foreign = none) (rmw : Option ChipId) (least : Nat)
    (act : Draw → State → Ran α) : primitive rmw least act s = act (s.inputs.at 0) (s.tick least) := by
  simp [primitive, h]

theorem delayUs_alone {s : State} (h : (s.inputs.at 0).foreign = none) (d : Nat) :
    delayUs d s = .done () (s.tick d) := by
  simp [delayUs, primitive_alone h]

/-- A completed register read returns PINS and adds its entry to TRACE (R401, R404, R411). -/
theorem regRead_ok {s : State} {a : BusAddr} {c : ChipId} (ha : chipAt s.params a = some c)
    (ho : (s.inputs.at 0).ok = true) (hf : (s.inputs.at 0).foreign = none) :
    regRead a s = .done ((s.tick 0).pins (s.inputs.at 0) c)
      ((s.tick 0).record (.wr a [s.params.regGpio] [(s.tick 0).pins (s.inputs.at 0) c]) false) := by
  simp [regRead, busReadCall, ha, primitive_alone hf, ho]

/-- A completed register write adds its entry to TRACE and puts the value into OUT (R400, R405, R409). -/
theorem regWrite_ok {s : State} {a : BusAddr} {c : ChipId} (ha : chipAt s.params a = some c)
    (ho : (s.inputs.at 0).ok = true) (hf : (s.inputs.at 0).foreign = none) (rmw : Option ChipId) (v : Byte) :
    regWrite rmw a v s = .done ()
      (((s.tick 0).record (.w a [s.params.regGpio, v]) false).chipWrite c .gpio v (s.inputs.at 0)) := by
  simp [regWrite, busWriteCall, ha, primitive_alone hf, ho]

/-! ## A read-modify-write on the LCD chip, all of whose pins are outputs (R406, R407) -/

/-- The state after a completed read-modify-write that leaves `v` in the LCD chip's register. -/
def lcdRmwState (s : State) (v : Byte) : State :=
  { s with
    lcdChip := { out := v, dir := 0 }
    ctl := s.ctl.sample (s.now + s.inputs.spent 2) (s.inputs.at 1).lo
      { en := v.getLsbD s.params.pinEN, rs := v.getLsbD s.params.pinRS, db := dataNibble s.params v }
    trace := s.trace ++
      [{ call := .wr s.params.lcdAddr [s.params.regGpio] [s.lcdChip.out], err := false, time := s.now + s.inputs.spent 1 },
       { call := .w s.params.lcdAddr [s.params.regGpio, v], err := false, time := s.now + s.inputs.spent 2 }]
    now := s.now + s.inputs.spent 2
    inputs := s.inputs.drop 2 }

theorem lcdRmw_ok {s : State} (hq : s.inputs.Quiet 2) (hd : s.lcdChip.dir = 0) (hu : s.ctl.undefined = false)
    (f : Byte → Byte) :
    ((regRead s.params.lcdAddr s).andThen fun v t => regWrite (chipAt t.params s.params.lcdAddr) s.params.lcdAddr (f v) t)
      = .done () (lcdRmwState s (f s.lcdChip.out)) := by
  obtain ⟨h0o, h0f⟩ := hq 0 (by omega)
  obtain ⟨h1o, h1f⟩ := hq 1 (by omega)
  have hset := Controller.settle_defined hu
  have hpins : (s.tick 0).pins (s.inputs.at 0) .lcd = s.lcdChip.out := by
    simp [State.pins, State.chip, State.ext, hd, and_full]
  rw [regRead_ok (chipAt_lcd _) h0o h0f, hpins, Ran.done_andThen]
  rw [regWrite_ok (c := .lcd) (by simp) (by simpa using h1o) (by simpa using h1f)]
  obtain ⟨params, ⟨out, dir⟩, kp, ctl, lp, kpp, tr, now, fa, fi, re, rr, bo, sc, ret, calls, inputs⟩ := s
  simp only at hd hset ⊢
  subst hd
  simp [lcdRmwState, State.chipWrite, Chip.set, State.tick, State.record, hset, Inputs.spent,
    Inputs.rest_eq_drop, Nat.add_assoc]
  rw [lcdLines_outputs]
  simp

/-- The same whatever the controller makes of the lines: the calls, the register, the time and the frame. -/
theorem lcdRmw_frame {s : State} (hq : s.inputs.Quiet 2) (hd : s.lcdChip.dir = 0) (f : Byte → Byte) :
    ∃ t, ((regRead s.params.lcdAddr s).andThen fun v t =>
        regWrite (chipAt t.params s.params.lcdAddr) s.params.lcdAddr (f v) t) = .done () t ∧
      s.LcdOnly t ∧ t.lcdChip = { out := f s.lcdChip.out, dir := 0 } ∧ t.inputs = s.inputs.drop 2 ∧
      t.now = s.now + s.inputs.spent 2 ∧ t.trace = s.trace ++
        [{ call := .wr s.params.lcdAddr [s.params.regGpio] [s.lcdChip.out], err := false,
           time := s.now + s.inputs.spent 1 },
         { call := .w s.params.lcdAddr [s.params.regGpio, f s.lcdChip.out], err := false,
           time := s.now + s.inputs.spent 2 }] := by
  obtain ⟨h0o, h0f⟩ := hq 0 (by omega)
  obtain ⟨h1o, h1f⟩ := hq 1 (by omega)
  have hpins : (s.tick 0).pins (s.inputs.at 0) .lcd = s.lcdChip.out := by
    simp [State.pins, State.chip, State.ext, hd, and_full]
  rw [regRead_ok (chipAt_lcd _) h0o h0f, hpins, Ran.done_andThen]
  rw [regWrite_ok (c := .lcd) (by simp) (by simpa using h1o) (by simpa using h1f)]
  refine ⟨_, rfl, ?_, ?_, ?_, ?_, ?_⟩
  · simp [State.LcdOnly, State.chipWrite, State.tick, State.record]
  · simp [State.chipWrite, Chip.set, hd]
  · simp [Inputs.rest_eq_drop]
  · simp [Inputs.spent, Nat.add_assoc]
  · simp [Inputs.spent, Nat.add_assoc]

theorem setBits_lcd {s : State} (hq : s.inputs.Quiet 2) (hd : s.lcdChip.dir = 0) (hu : s.ctl.undefined = false)
    (m : Byte) : setBits s.params.lcdAddr m s = .done () (lcdRmwState s (s.lcdChip.out ||| m)) :=
  lcdRmw_ok hq hd hu fun v => v ||| m

theorem clearBits_lcd {s : State} (hq : s.inputs.Quiet 2) (hd : s.lcdChip.dir = 0) (hu : s.ctl.undefined = false)
    (m : Byte) : clearBits s.params.lcdAddr m s = .done () (lcdRmwState s (s.lcdChip.out &&& ~~~m)) :=
  lcdRmw_ok hq hd hu fun v => v &&& ~~~m

end Sys2Proof.Machine
end

