-- ==== Sys2Proof/Laws/Nibble.lean ====
section
/-! SUPPORT. The one specification of `write_nibble`: from a settled interface and under quiet inputs it is done, with
the trace of R606, one Enable pulse that meets the bounds of R501 to R503 (R602), and one latch (R610). -/

namespace Sys2Proof.Machine

open Sys2Proof

/-- `u` of R606: the register with every LCD line cleared. -/
def lowered (s : State) : Byte := s.lcdChip.out &&& ~~~(lcdAllMask s.params)

/-- `u | s` of R606: RS and the nibble asserted. -/
def asserted (s : State) (rs : Bool) (n : Nibble) : Byte := lowered s ||| assertMask s.params rs n

/-- The completion instant of the Enable rise of a nibble write (its write is the seventh primitive). -/
def riseAt (s : State) : Nat := s.now + Config.T_AS + s.inputs.spent 7

/-- The completion instant of its Enable fall (the tenth primitive). -/
def fallAt (s : State) : Nat := s.now + Config.T_AS + Config.T_PW + s.inputs.spent 10

/-- The controller's record after steps (1) and (2): it has seen the lines fall and RS and the nibble asserted. -/
def presented (s : State) (rs : Bool) (n : Nibble) : Lcd :=
  (s.ctl.lcd.see (s.now + s.inputs.spent 2) { en := false, rs := false, db := 0 }).see (s.now + s.inputs.spent 4)
    { en := false, rs := rs, db := n }

/-- The controller while Enable is high, just before the latch. -/
def pulsed (s : State) (rs : Bool) (n : Nibble) : Controller :=
  { s.ctl with lcd := { presented s rs n with tRise := some (riseAt s), en := true } }

/-- The controller with its levels set: RS and the nibble asserted, EN low (R500 (5)). -/
def relined (rs : Bool) (n : Nibble) (k : Controller) : Controller :=
  { k with lcd := { k.lcd with rs := rs, en := false, db := n } }

/-- The controller after the latch of `(rs, n)` (R502, R504 to R506), its lines as they then are. -/
def latched (s : State) (rs : Bool) (n : Nibble) : Controller :=
  relined rs n ((pulsed s rs n).transfer (fallAt s) (s.inputs.at 9).lo rs n)

/-- The eight entries of R606, with their completion times. -/
def nibbleTrace (s : State) (rs : Bool) (n : Nibble) : List TraceEntry :=
  let a := s.params.lcdAddr
  let g := s.params.regGpio
  let hi := asserted s rs n ||| pinMask s.params.pinEN
  [ { call := .wr a [g] [s.lcdChip.out], err := false, time := s.now + s.inputs.spent 1 },
    { call := .w a [g, lowered s], err := false, time := s.now + s.inputs.spent 2 },
    { call := .wr a [g] [lowered s], err := false, time := s.now + s.inputs.spent 3 },
    { call := .w a [g, asserted s rs n], err := false, time := s.now + s.inputs.spent 4 },
    { call := .wr a [g] [asserted s rs n], err := false, time := s.now + Config.T_AS + s.inputs.spent 6 },
    { call := .w a [g, hi], err := false, time := riseAt s },
    { call := .wr a [g] [hi], err := false, time := s.now + Config.T_AS + Config.T_PW + s.inputs.spent 9 },
    { call := .w a [g, asserted s rs n], err := false, time := fallAt s } ]

/-- The state after a completed nibble write. -/
def nibbleState (s : State) (rs : Bool) (n : Nibble) : State :=
  { s with
    lcdChip := { out := asserted s rs n, dir := 0 }
    ctl := (latched s rs n).settle.settle
    trace := s.trace ++ nibbleTrace s rs n
    now := s.now + (Config.T_AS + Config.T_PW + Config.T_REC) + s.inputs.spent 11
    inputs := s.inputs.drop 11 }

theorem spent_mono (i : Inputs) {m n : Nat} (h : m ≤ n) : i.spent m ≤ i.spent n := by
  induction n with
  | zero => simp_all
  | succ n ih =>
    rcases Nat.lt_or_ge m (n + 1) with h' | h'
    · exact Nat.le_trans (ih (by omega)) (Nat.le_add_right _ _)
    · exact Nat.le_of_eq (by congr 1; omega)

theorem ite_le_of {c : Prop} [Decidable c] {a b t : Nat} (ha : a ≤ t) (hb : b ≤ t) : (if c then a else b) ≤ t := by
  by_cases h : c <;> simp [h, ha, hb]

theorem see_see_tLines_le {l : Lcd} {t1 t2 : Nat} {a b : Lines} (h : l.tLines ≤ t2) (h12 : t1 ≤ t2) :
    ((l.see t1 a).see t2 b).tLines ≤ t2 := by
  exact ite_le_of (Nat.le_refl _) (ite_le_of h12 h)

section
variable {s : State} (hs : s.Settled) (rs : Bool) (n : Nibble)
include hs

/-- The rise meets the setup and the cycle time (R602 (a), (c)). -/
theorem pulse_rise_ok : riseViolates (riseAt s) (presented s rs n) = false := by
  have hAS : Config.T_AS = 40 := rfl
  have hPW : Config.T_PW = 230 := rfl
  have hCYC : Config.T_CYC = 500 := rfl
  have h2 := spent_mono s.inputs (show 2 ≤ 4 by omega)
  have h4 := spent_mono s.inputs (show 4 ≤ 7 by omega)
  have hl := hs.lines
  have htl : (presented s rs n).tLines ≤ s.now + s.inputs.spent 4 := see_see_tLines_le (by omega) (by omega)
  refine riseViolates_eq_false ?_ fun tr htr => ?_
  · simp only [riseAt]; omega
  · have := hs.cycle tr htr
    simp only [riseAt]; omega

/-- The fall meets the pulse width, the stability of the lines and the busy time (R602 (b), (e)). -/
theorem pulse_fall_ok : fallViolates (fallAt s) (pulsed s rs n).lcd = false := by
  have hAS : Config.T_AS = 40 := rfl
  have hPW : Config.T_PW = 230 := rfl
  have hCYC : Config.T_CYC = 500 := rfl
  have h2 := spent_mono s.inputs (show 2 ≤ 4 by omega)
  have h4 := spent_mono s.inputs (show 4 ≤ 7 by omega)
  have h7 := spent_mono s.inputs (show 7 ≤ 10 by omega)
  have hl := hs.lines
  have hb := hs.busy
  have htl : (presented s rs n).tLines ≤ s.now + s.inputs.spent 4 := see_see_tLines_le (by omega) (by omega)
  refine fallViolates_eq_false (tr := riseAt s) rfl ?_ ?_ ?_
  · simp only [riseAt, fallAt]; omega
  · exact Nat.le_trans htl (by simp only [riseAt]; omega)
  · exact Nat.le_trans hb (by simp only [fallAt]; omega)

/-- What `write_nibble` does from a settled interface (R600, R601, R606, R610). -/
theorem writeNibble_settled (hq : s.inputs.Quiet 11) : writeNibble rs n s = .done () (nibbleState s rs n) := by
  have hp := hs.params
  have hu := hs.defined
  -- step (1)
  have q1 : clearBits s.params.lcdAddr (lcdAllMask s.params) s = .done () (lcdRmwState s (lowered s)) :=
    clearBits_lcd (hq.mono (by omega)) hs.outputs hu _
  have k1 : (lcdRmwState s (lowered s)).ctl =
      { s.ctl with lcd := s.ctl.lcd.see (s.now + s.inputs.spent 2) { en := false, rs := false, db := 0 } } := by
    simp only [lcdRmwState, lowered, cleared_en, cleared_rs, cleared_data]
    exact sample_low hu hs.viewEn _ _ rfl
  generalize hs1 : lcdRmwState s (lowered s) = s1 at *
  have p1 : s1.params = s.params := by subst hs1; rfl
  have f1 : s.LcdOnly s1 := by subst hs1; exact rfl
  have i1 : s1.inputs = s.inputs.drop 2 := by subst hs1; rfl
  have n1 : s1.now = s.now + s.inputs.spent 2 := by subst hs1; rfl
  have c1 : s1.lcdChip = { out := lowered s, dir := 0 } := by subst hs1; rfl
  have t1 : s1.trace = s.trace ++ (nibbleTrace s rs n).take 2 := by subst hs1; rfl
  have u1 : s1.ctl.undefined = false := by rw [k1]; exact hu
  -- step (2)
  have q2 : setBits s.params.lcdAddr (assertMask s.params rs n) s1 = .done () (lcdRmwState s1 (asserted s rs n)) := by
    have := setBits_lcd (s := s1) (by rw [i1]; exact hq.drop 2 (by omega)) (by rw [c1]) u1 (assertMask s.params rs n)
    rwa [p1, c1] at this
  have sp4 : s.inputs.spent 2 + (s.inputs.drop 2).spent 2 = s.inputs.spent 4 := by
    rw [Nat.add_comm]; exact Inputs.spent_drop _ _ _
  have k2 : (lcdRmwState s1 (asserted s rs n)).ctl =
      { s.ctl with lcd := presented s rs n } := by
    have e1 : (asserted s rs n).getLsbD s.params.pinEN = false := asserted_en hp _ _ _
    have e2 : (asserted s rs n).getLsbD s.params.pinRS = rs := asserted_rs hp _ _ _
    have e3 : dataNibble s.params (asserted s rs n) = n := asserted_data hp _ _ _
    simp only [lcdRmwState, p1, e1, e2, e3, i1, n1]
    rw [sample_low u1 (by rw [k1]; rfl) _ _ rfl, k1, Nat.add_assoc, sp4]
    rfl
  generalize hs2 : lcdRmwState s1 (asserted s rs n) = s2 at *
  have p2 : s2.params = s.params := by subst hs2; exact p1
  have f2 : s.LcdOnly s2 := by subst hs2; exact f1.trans rfl
  have i2 : s2.inputs = s.inputs.drop 4 := by subst hs2; simp [lcdRmwState, i1]
  have n2 : s2.now = s.now + s.inputs.spent 4 := by subst hs2; simp only [lcdRmwState, n1, i1]; omega
  have c2 : s2.lcdChip = { out := asserted s rs n, dir := 0 } := by subst hs2; rfl
  have t2 : s2.trace = s.trace ++ (nibbleTrace s rs n).take 4 := by
    subst hs2
    have a1 : s.inputs.spent 3 = _ := s.inputs.spent_add 2 1
    have a2 : s.inputs.spent 4 = _ := s.inputs.spent_add 2 2
    simp only [lcdRmwState, t1, n1, i1, p1, c1, nibbleTrace, List.append_assoc, List.take_succ_cons, List.take_zero,
      List.cons_append, List.nil_append, Nat.add_assoc, a1, a2]
  have u2 : s2.ctl.undefined = false := by rw [k2]; exact hu
  -- step (3)
  have q3 : delayUs Config.T_AS s2 = .done () (s2.tick Config.T_AS) :=
    delayUs_alone (by rw [i2]; simpa using (hq 4 (by omega)).2) _
  generalize hs3 : s2.tick Config.T_AS = s3 at *
  have p3 : s3.params = s.params := by subst hs3; exact p2
  have f3 : s.LcdOnly s3 := by subst hs3; exact f2.trans rfl
  have i3 : s3.inputs = s.inputs.drop 5 := by subst hs3; simp [State.tick, i2, Inputs.rest_eq_drop]
  have n3 : s3.now = s.now + Config.T_AS + s.inputs.spent 5 := by
    subst hs3
    have : s.inputs.spent 5 = _ := s.inputs.spent_add 4 1
    rw [State.tick_spent, n2, i2]; omega
  have c3 : s3.lcdChip = { out := asserted s rs n, dir := 0 } := by subst hs3; exact c2
  have k3 : s3.ctl = { s.ctl with lcd := presented s rs n } := by
    subst hs3; simp only [State.tick]; rw [Controller.settle_defined u2, k2]
  have t3 : s3.trace = s.trace ++ (nibbleTrace s rs n).take 4 := by subst hs3; exact t2
  have u3 : s3.ctl.undefined = false := by rw [k3]; exact hu
  -- step (4)
  have q4 : setBits s.params.lcdAddr (pinMask s.params.pinEN) s3 =
      .done () (lcdRmwState s3 (asserted s rs n ||| pinMask s.params.pinEN)) := by
    have := setBits_lcd (s := s3) (by rw [i3]; exact hq.drop 5 (by omega)) (by rw [c3]) u3 (pinMask s.params.pinEN)
    rwa [p3, c3] at this
  have sp7 : s.inputs.spent 5 + (s.inputs.drop 5).spent 2 = s.inputs.spent 7 := by
    rw [Nat.add_comm]; exact Inputs.spent_drop _ _ _
  have e2 : (asserted s rs n).getLsbD s.params.pinRS = rs := asserted_rs hp _ _ _
  have e3 : dataNibble s.params (asserted s rs n) = n := asserted_data hp _ _ _
  have k4 : (lcdRmwState s3 (asserted s rs n ||| pinMask s.params.pinEN)).ctl = pulsed s rs n := by
    have ht : s3.now + s3.inputs.spent 2 = riseAt s := by rw [n3, i3, riseAt]; omega
    simp only [lcdRmwState, ht, p3, raised_en, raised_rs hp, raised_data hp, e2, e3]
    rw [sample_rise u3 (by rw [k3]; rfl) _ rfl (by rw [k3]; rfl) (by rw [k3]; rfl)
      (by rw [k3]; exact pulse_rise_ok hs rs n), k3]
    rfl
  generalize hs4 : lcdRmwState s3 (asserted s rs n ||| pinMask s.params.pinEN) = s4 at *
  have p4 : s4.params = s.params := by subst hs4; exact p3
  have f4 : s.LcdOnly s4 := by subst hs4; exact f3.trans rfl
  have i4 : s4.inputs = s.inputs.drop 7 := by subst hs4; simp [lcdRmwState, i3]
  have n4 : s4.now = riseAt s := by subst hs4; simp only [lcdRmwState, n3, i3, riseAt]; omega
  have c4 : s4.lcdChip = { out := asserted s rs n ||| pinMask s.params.pinEN, dir := 0 } := by subst hs4; rfl
  have t4 : s4.trace = s.trace ++ (nibbleTrace s rs n).take 6 := by
    subst hs4
    have a1 : s.inputs.spent 6 = _ := s.inputs.spent_add 5 1
    have a2 : s.inputs.spent 7 = _ := s.inputs.spent_add 5 2
    simp only [lcdRmwState, t3, n3, i3, p3, c3, nibbleTrace, riseAt, List.append_assoc, List.take_succ_cons,
      List.take_zero, List.cons_append, List.nil_append, Nat.add_assoc, a1, a2]
  have u4 : s4.ctl.undefined = false := by rw [k4]; exact hu
  -- step (5)
  have q5 : delayUs Config.T_PW s4 = .done () (s4.tick Config.T_PW) :=
    delayUs_alone (by rw [i4]; simpa using (hq 7 (by omega)).2) _
  generalize hs5 : s4.tick Config.T_PW = s5 at *
  have p5 : s5.params = s.params := by subst hs5; exact p4
  have f5 : s.LcdOnly s5 := by subst hs5; exact f4.trans rfl
  have i5 : s5.inputs = s.inputs.drop 8 := by subst hs5; simp [State.tick, i4, Inputs.rest_eq_drop]
  have n5 : s5.now = s.now + Config.T_AS + Config.T_PW + s.inputs.spent 8 := by
    subst hs5
    have : s.inputs.spent 8 = _ := s.inputs.spent_add 7 1
    rw [State.tick_spent, n4, i4, riseAt]; omega
  have c5 : s5.lcdChip = { out := asserted s rs n ||| pinMask s.params.pinEN, dir := 0 } := by subst hs5; exact c4
  have k5 : s5.ctl = pulsed s rs n := by
    subst hs5; simp only [State.tick]; rw [Controller.settle_defined u4, k4]
  have t5 : s5.trace = s.trace ++ (nibbleTrace s rs n).take 6 := by subst hs5; exact t4
  have u5 : s5.ctl.undefined = false := by rw [k5]; exact hu
  -- step (6)
  have e1 : (asserted s rs n).getLsbD s.params.pinEN = false := asserted_en hp _ _ _
  have q6 : clearBits s.params.lcdAddr (pinMask s.params.pinEN) s5 =
      .done () (lcdRmwState s5 (asserted s rs n)) := by
    have := clearBits_lcd (s := s5) (by rw [i5]; exact hq.drop 8 (by omega)) (by rw [c5]) u5 (pinMask s.params.pinEN)
    rw [p5, c5] at this
    rw [this, raise_then_lower _ _ e1]
  have sp10 : s.inputs.spent 8 + (s.inputs.drop 8).spent 2 = s.inputs.spent 10 := by
    rw [Nat.add_comm]; exact Inputs.spent_drop _ _ _
  have k6 : (lcdRmwState s5 (asserted s rs n)).ctl = (latched s rs n).settle := by
    have ht : s5.now + s5.inputs.spent 2 = fallAt s := by rw [n5, i5, fallAt]; omega
    simp only [lcdRmwState, ht, p5, e1, e2, e3]
    rw [sample_fall u5 (by rw [k5]; rfl) _ rfl (by rw [k5]; rfl) (by rw [k5]; rfl)
      (by rw [k5]; exact pulse_fall_ok hs rs n), k5]
    simp only [i5, Inputs.drop_at]
    rfl
  generalize hs6 : lcdRmwState s5 (asserted s rs n) = s6 at *
  have p6 : s6.params = s.params := by subst hs6; exact p5
  have f6 : s.LcdOnly s6 := by subst hs6; exact f5.trans rfl
  have i6 : s6.inputs = s.inputs.drop 10 := by subst hs6; simp [lcdRmwState, i5]
  have n6 : s6.now = fallAt s := by subst hs6; simp only [lcdRmwState, n5, i5, fallAt]; omega
  have t6 : s6.trace = s.trace ++ nibbleTrace s rs n := by
    subst hs6
    have a1 : s.inputs.spent 9 = _ := s.inputs.spent_add 8 1
    have a2 : s.inputs.spent 10 = _ := s.inputs.spent_add 8 2
    simp only [lcdRmwState, t5, n5, i5, p5, c5, nibbleTrace, riseAt, fallAt, List.append_assoc, List.take_succ_cons,
      List.take_zero, List.cons_append, List.nil_append, Nat.add_assoc, a1, a2]
  have c6 : s6.lcdChip = { out := asserted s rs n, dir := 0 } := by subst hs6; rfl
  -- step (7)
  have q7 : delayUs Config.T_REC s6 = .done () (s6.tick Config.T_REC) :=
    delayUs_alone (by rw [i6]; simpa using (hq 10 (by omega)).2) _
  simp only [writeNibble, pulseEnable, q1, q2, q3, q4, q5, q6, q7, p1, p3, p5, Ran.done_andThen]
  congr 1
  have n7 : (s6.tick Config.T_REC).now = s.now + (Config.T_AS + Config.T_PW + Config.T_REC) + s.inputs.spent 11 := by
    have : s.inputs.spent 11 = _ := s.inputs.spent_add 10 1
    rw [State.tick_spent, n6, i6, fallAt]; omega
  have i7 : (s6.tick Config.T_REC).inputs = s.inputs.drop 11 := by simp [State.tick, i6, Inputs.rest_eq_drop]
  have k7 : (s6.tick Config.T_REC).ctl = (latched s rs n).settle.settle := by simp only [State.tick, k6]
  have f7 : s.LcdOnly (s6.tick Config.T_REC) := f6.trans rfl
  rw [State.LcdOnly, n7, i7, k7] at f7
  rw [f7]
  simp only [State.tick, c6, t6]
  rfl

end

end Sys2Proof.Machine
end

