-- ==== Sys2Proof/Laws/Byte.lean ====
section
/-! SUPPORT. The specification of `send_byte` (R603): two nibbles, one instruction executed. -/

namespace Sys2Proof.Machine

open Sys2Proof

/-! ## Transfers (R504 to R506) -/

/-- A transfer leaves the lines and their times alone. -/
theorem transfer_lines (t : Nat) (lo : Nibble) (r : Bool) (n : Nibble) (k : Controller) :
    (k.transfer t lo r n).lcd.en = k.lcd.en ∧ (k.transfer t lo r n).lcd.tRise = k.lcd.tRise ∧
      (k.transfer t lo r n).lcd.tLines = k.lcd.tLines := by
  simp only [Controller.transfer, Controller.execute, Controller.run]
  split
  · exact ⟨(cmdEffect_lines _ _).1, (cmdEffect_lines _ _).2.2.2.1, (cmdEffect_lines _ _).2.2.2.2.1⟩
  · split
    · exact ⟨rfl, rfl, rfl⟩
    · split
      · exact ⟨(cmdEffect_lines _ _).1, (cmdEffect_lines _ _).2.2.2.1, (cmdEffect_lines _ _).2.2.2.2.1⟩
      · exact ⟨rfl, rfl, rfl⟩

/-- A high nibble in 4-bit mode is kept (R505). -/
theorem transfer_hi {k : Controller} (hd : k.lcd.dl = .four) (hp : k.lcd.phase = .hi) (t : Nat) (lo : Nibble) (r : Bool)
    (n : Nibble) : k.transfer t lo r n = { k with lcd := { k.lcd with pendHi := n, pendRs := r, phase := .lo } } := by
  simp [Controller.transfer, hd, hp]

/-- A low nibble in 4-bit mode under the same RS executes the byte (R506). -/
theorem transfer_lo {k : Controller} (hd : k.lcd.dl = .four) (hp : k.lcd.phase = .lo) {r : Bool} {h n : Nibble}
    (hr : k.lcd.pendRs = r) (hh : k.lcd.pendHi = h) {c : Cmd} (hc : decodeCmd (busWord r (nibblePair h n)) = c)
    (t : Nat) (lo : Nibble) :
    k.transfer t lo r n = Controller.run t c { k with lcd := { k.lcd with phase := .hi } } := by
  subst hr hh hc
  simp [Controller.transfer, Controller.execute, hd, hp]

@[simp] theorem Controller.view_undefined (k : Controller) : k.view.undefined = k.undefined := rfl

theorem undefined_of_view {k k' : Controller} (h : k.view = k'.view) : k.undefined = k'.undefined := by
  rw [← k.view_undefined, h, k'.view_undefined]

theorem relined_view (rs : Bool) (n : Nibble) (k : Controller) : (relined rs n k).view = k.view := rfl

theorem run_view (t : Nat) (c : Cmd) (k : Controller) : (k.run t c).view = (cmdEffect c k).view := by
  unfold Controller.run
  generalize cmdEffect c k = d
  rfl

theorem run_busy (t : Nat) (c : Cmd) (k : Controller) : (k.run t c).lcd.busyUntil = t + execTime c := rfl

/-! ## The state after a nibble -/

theorem nibbleState_ctl {s : State} (rs : Bool) (n : Nibble) (hd : (latched s rs n).undefined = false) : (nibbleState s rs n).ctl = latched s rs n := by
  simp only [nibbleState]
  rw [Controller.settle_defined (by simpa using hd), Controller.settle_defined hd]

section
variable {s : State} (hs : s.Settled) (rs : Bool) (n : Nibble)
include hs

/-- The interface is wired again after a nibble whose transfer leaves the controller defined. -/
theorem nibbleState_wired (hd : (latched s rs n).undefined = false) : (nibbleState s rs n).Wired := by
  have hk := nibbleState_ctl rs n hd
  have hp := hs.params
  have hline := transfer_lines (fallAt s) (s.inputs.at 9).lo rs n (pulsed s rs n)
  have h4 := spent_mono s.inputs (show 4 ≤ 11 by omega)
  have h7 := spent_mono s.inputs (show 7 ≤ 11 by omega)
  have hAS : Config.T_AS = 40 := rfl
  have hPW : Config.T_PW = 230 := rfl
  have hREC : Config.T_REC = 270 := rfl
  have hCYC : Config.T_CYC = 500 := rfl
  have h2 := spent_mono s.inputs (show 2 ≤ 4 by omega)
  have htl : (presented s rs n).tLines ≤ s.now + s.inputs.spent 4 :=
    see_see_tLines_le (by have := hs.lines; omega) (by omega)
  have hnow : (nibbleState s rs n).now = s.now + (Config.T_AS + Config.T_PW + Config.T_REC) + s.inputs.spent 11 := rfl
  constructor
  · exact hp
  · rfl
  · exact asserted_en hp _ _ _
  · rw [hk]; rfl
  · rw [hk]; exact (asserted_rs hp _ _ _).symm
  · rw [hk]; exact (asserted_data hp _ _ _).symm
  · rw [hk, hnow]
    have : (latched s rs n).lcd.tLines = (presented s rs n).tLines := hline.2.2
    omega
  · intro tr htr
    rw [hk] at htr
    have : (latched s rs n).lcd.tRise = some (riseAt s) := hline.2.1
    rw [this] at htr
    cases htr
    rw [hnow, riseAt]; omega
  · rw [hk]; exact hd

/-- A high nibble in 4-bit mode: the controller waits for the low one, and its view is as before. -/
theorem nibble_hi (hf : s.FourBit) :
    (nibbleState s rs n).Settled ∧ (nibbleState s rs n).ctl.view = s.ctl.view ∧
      (nibbleState s rs n).ctl.lcd.dl = .four ∧ (nibbleState s rs n).ctl.lcd.phase = .lo ∧
      (nibbleState s rs n).ctl.lcd.pendHi = n ∧ (nibbleState s rs n).ctl.lcd.pendRs = rs := by
  have ht := transfer_hi (k := pulsed s rs n) hf.1 hf.2 (fallAt s) (s.inputs.at 9).lo rs n
  have hl : latched s rs n = { pulsed s rs n with
      lcd := { (pulsed s rs n).lcd with pendHi := n, pendRs := rs, phase := .lo, rs := rs, en := false, db := n } } := by
    simp only [latched, relined, ht]
  have hd : (latched s rs n).undefined = false := by rw [hl]; exact hs.defined
  have hk := nibbleState_ctl rs n hd
  refine ⟨{ toWired := nibbleState_wired hs rs n hd, busy := ?_ }, ?_, ?_, ?_, ?_, ?_⟩ <;> rw [hk, hl]
  · have : (nibbleState s rs n).now = s.now + (Config.T_AS + Config.T_PW + Config.T_REC) + s.inputs.spent 11 := rfl
    rw [this]
    exact Nat.le_trans hs.busy (by omega)
  · rfl
  · exact hf.1

/-- A low nibble in 4-bit mode: the byte is executed. -/
theorem nibble_lo (hdl : s.ctl.lcd.dl = .four) (hph : s.ctl.lcd.phase = .lo) (hrs : s.ctl.lcd.pendRs = rs)
    {c : Cmd} (hc : decodeCmd (busWord rs (nibblePair s.ctl.lcd.pendHi n)) = c) :
    (nibbleState s rs n).ctl.undefined = (cmdEffect c s.ctl).undefined ∧
      ((cmdEffect c s.ctl).undefined = false →
        (nibbleState s rs n).Wired ∧ (nibbleState s rs n).ctl.view = (cmdEffect c s.ctl).view ∧
          (nibbleState s rs n).FourBit ∧ (nibbleState s rs n).ctl.lcd.busyUntil = fallAt s + execTime c) := by
  obtain ⟨k, hk, hkv, hkd, hkp⟩ : ∃ k : Controller, latched s rs n = relined rs n (k.run (fallAt s) c) ∧
      k.view = s.ctl.view ∧ k.lcd.dl = .four ∧ k.lcd.phase = .hi := by
    refine ⟨{ pulsed s rs n with lcd := { (pulsed s rs n).lcd with phase := .hi } }, ?_, rfl, hdl, rfl⟩
    rw [latched, transfer_lo (k := pulsed s rs n) hdl hph hrs rfl hc]
  have hcv := cmdEffect_view hkv c
  have hlv : (latched s rs n).view = (cmdEffect c s.ctl).view := by rw [hk, ← hcv, relined_view, run_view]
  have hlu : (latched s rs n).undefined = (cmdEffect c s.ctl).undefined := undefined_of_view hlv
  refine ⟨by simp only [nibbleState, Controller.settle_undefined]; exact hlu, fun hd => ?_⟩
  have hd' := hlu.trans hd
  have hfb := cmdEffect_fourBit c hkd
  have hctl := nibbleState_ctl rs n hd'
  refine ⟨nibbleState_wired hs rs n hd', by rw [hctl, hlv], ?_, ?_⟩
  · rw [State.FourBit, hctl, hk]
    exact ⟨hfb.1, hfb.2.trans hkp⟩
  · rw [hctl, hk]
    exact run_busy (fallAt s) c k

end

/-! ## send_byte -/

/-- The byte's two nibbles put together again. -/
theorem nibblePair_split (b : Byte) : nibblePair (hiNibble b) (loNibble b) = b := by
  simp only [nibblePair, hiNibble, loNibble]
  revert b; decide

/-- Clearing the LCD lines drops what a nibble asserted (R607, R608). -/
theorem lowered_asserted {s : State} (rs : Bool) (n : Nibble) :
    asserted s rs n &&& ~~~(lcdAllMask s.params) = lowered s := by
  apply BitVec.eq_of_getLsbD_eq
  intro j hj
  simp only [asserted, lowered, assertMask, dataMask, lcdAllMask, dataMaskAll]
  simp
  by_cases h0 : (s.params.pinRS : Nat) = j <;> by_cases h1 : (s.params.pinD4 : Nat) = j <;>
    by_cases h2 : (s.params.pinD5 : Nat) = j <;> by_cases h3 : (s.params.pinD6 : Nat) = j <;>
    by_cases h4 : (s.params.pinD7 : Nat) = j <;> simp [h0, h1, h2, h3, h4]

/-- What `send_byte` does from a settled 4-bit interface: 16 transport calls, and the instruction `(rs, b)` executed
once (R603). -/
theorem sendByte_settled {s : State} (hs : s.Settled) (hf : s.FourBit) (hq : s.inputs.Quiet 22) (rs : Bool) (b : Byte)
    {c : Cmd} (hc : decodeCmd (busWord rs b) = c) :
    ∃ t, sendByte rs b s = .done () t ∧ s.LcdOnly t ∧ t.inputs = s.inputs.drop 22 ∧
      t.now = s.now + 1080 + s.inputs.spent 22 ∧
      t.lcdChip = { out := lowered s ||| assertMask s.params rs (loNibble b), dir := 0 } ∧
      t.trace = s.trace ++ (nibbleTrace s rs (hiNibble b) ++ nibbleTrace (nibbleState s rs (hiNibble b)) rs (loNibble b)) ∧
      t.ctl.undefined = (cmdEffect c s.ctl).undefined ∧
      ((cmdEffect c s.ctl).undefined = false →
        t.Wired ∧ t.ctl.view = (cmdEffect c s.ctl).view ∧ t.FourBit ∧ t.ctl.lcd.busyUntil + 270 ≤ t.now + execTime c) := by
  obtain ⟨hs1, hv1, hd1, hp1, hh1, hr1⟩ := nibble_hi hs rs (hiNibble b) hf
  have hn1 := writeNibble_settled hs rs (hiNibble b) (hq.mono (by omega))
  have hi1 : (nibbleState s rs (hiNibble b)).inputs = s.inputs.drop 11 := rfl
  have hn2 := writeNibble_settled hs1 rs (loNibble b) (by rw [hi1]; exact hq.drop 11 (by omega))
  have hc2 : decodeCmd (busWord rs (nibblePair (nibbleState s rs (hiNibble b)).ctl.lcd.pendHi (loNibble b))) = c := by
    rw [hh1, nibblePair_split, hc]
  obtain ⟨hu2, hlo⟩ := nibble_lo hs1 rs (loNibble b) hd1 hp1 hr1 hc2
  have hcv := cmdEffect_view hv1 c
  have hcu := undefined_of_view hcv
  have hsp : s.inputs.spent 22 = s.inputs.spent 11 + (s.inputs.drop 11).spent 11 := s.inputs.spent_add 11 11
  have hnow1 : (nibbleState s rs (hiNibble b)).now = s.now + 540 + s.inputs.spent 11 := rfl
  have hnow2 : (nibbleState (nibbleState s rs (hiNibble b)) rs (loNibble b)).now =
      (nibbleState s rs (hiNibble b)).now + 540 + (s.inputs.drop 11).spent 11 := rfl
  refine ⟨nibbleState (nibbleState s rs (hiNibble b)) rs (loNibble b), ?_, rfl, ?_, ?_, ?_, ?_, ?_, fun hd => ?_⟩
  · rw [sendByte, hn1, Ran.done_andThen, hn2]
  · show (s.inputs.drop 11).drop 11 = _
    simp
  · rw [hnow2, hnow1, hsp]; omega
  · show Chip.mk ((nibbleState s rs (hiNibble b)).lcdChip.out &&& _ ||| _) 0 = _
    have := lowered_asserted (s := s) rs (hiNibble b)
    rw [show (nibbleState s rs (hiNibble b)).lcdChip.out = asserted s rs (hiNibble b) from rfl]
    rw [show (nibbleState s rs (hiNibble b)).params = s.params from rfl, this]
  · show (s.trace ++ _) ++ _ = _
    rw [List.append_assoc]
  · rw [hu2, hcu]
  · obtain ⟨hw, hv, hfb, hbusy⟩ := hlo (hcu.trans hd)
    refine ⟨hw, hv.trans hcv, hfb, ?_⟩
    rw [hbusy, hnow2, fallAt, hi1]
    have := spent_mono (s.inputs.drop 11) (show 10 ≤ 11 by omega)
    have hAS : Config.T_AS = 40 := rfl
    have hPW : Config.T_PW = 230 := rfl
    omega

end Sys2Proof.Machine
end

