-- ==== Sys2Proof/Laws/Closure.lean ====
section
/-! SUPPORT. What an operation can do, said once. An operation is a sequence of primitives; if a relation `D` between the
state before and the state after holds of every primitive that is done, and `S` of every way to stop, and they compose,
then `D` or `S` holds of every operation, whatever the draws. -/

namespace Sys2Proof.Machine

open Sys2Proof

/-- The ways a state can change inside an operation whose transport calls go to the chips of `C`. `D` speaks of what is
done, `S` of what stops Main. -/
structure Closed (C : ChipId → Prop) (D S : State → State → Prop) : Prop where
  refl : ∀ s, D s s
  trans : ∀ {s t u}, D s t → D t u → D s u
  transS : ∀ {s t u}, D s t → S t u → S s u
  params : ∀ {s t}, D s t → t.params = s.params
  delay : ∀ s d, D s (s.tick d)
  foreign : ∀ s f, (s.inputs.at 0).foreign = some f → D s (s.foreignCall f (s.inputs.at 0))
  race : ∀ s f i, (s.inputs.at 0).foreign = some f → S s ((s.foreignCall f (s.inputs.at 0)).dropDraw.raiseFatal .race i)
  wrote : ∀ s c b r v, C c → D s (((s.tick 0).record b false).chipWrite c r v (s.inputs.at 0))
  writeFailed : ∀ s b i, S s (((s.tick 0).record b true).raiseFatal .bus i)
  writeTook : ∀ s c b r v i, C c → S s ((((s.tick 0).record b true).chipWrite c r v (s.inputs.at 0)).raiseFatal .bus i)
  didRead : ∀ s b, D s ((s.tick 0).record b false)
  readFailed : ∀ s b i, S s (((s.tick 0).record b true).raiseFatal .bus i)
  newlines : ∀ s i, S s (s.raiseFatal .cvNewlines i)
  lineLen : ∀ s i, S s (s.raiseFatal .cvLineLen i)
  refused : ∀ s r, S s (s.refuse r)

/-- The relation holds of how an operation went. -/
def Ran.Goes {α : Type} (D S : State → State → Prop) (s : State) : Ran α → Prop
  | .done _ t => D s t
  | .stopped t => S s t

theorem primitive_andThen {α β : Type} (m : Option ChipId) (l : Nat) (act : Draw → State → Ran α)
    (f : α → State → Ran β) (s : State) : (primitive m l act s).andThen f =
      primitive m l (fun d s => (act d s).andThen f) s := by
  unfold primitive
  dsimp only
  split
  · rfl
  · split <;> rfl

theorem lcd_allowed {C : ChipId → Prop} (hl : C .lcd) (s : State) :
    ∀ c, chipAt s.params s.params.lcdAddr = some c → C c := by
  intro c hc
  rw [chipAt_lcd] at hc
  cases hc
  exact hl

theorem kp_allowed {C : ChipId → Prop} (hk : C .kp) {s : State} (hw : s.params.distinct) :
    ∀ c, chipAt s.params s.params.kpAddr = some c → C c := by
  intro c hc
  rw [chipAt_kp hw] at hc
  cases hc
  exact hk

section
variable {C : ChipId → Prop} {D S : State → State → Prop} (h : Closed C D S)
include h

theorem Closed.andThen {α β : Type} {r : Ran α} {f : α → State → Ran β} {s : State} (hr : r.Goes D S s)
    (hf : ∀ v t, r = .done v t → (f v t).Goes D S t) : (r.andThen f).Goes D S s := by
  cases r with
  | stopped t => exact hr
  | done v t =>
    have := hf v t rfl
    rw [Ran.done_andThen]
    cases hg : f v t with
    | done w u => rw [hg] at this; exact h.trans hr this
    | stopped u => rw [hg] at this; exact h.transS hr this

theorem Closed.before {α : Type} {r : Ran α} {s t : State} (hst : D s t) (hr : r.Goes D S t) : r.Goes D S s := by
  cases r with
  | done v u => exact h.trans hst hr
  | stopped u => exact h.transS hst hr

theorem Closed.primitive {α : Type} (rmw : Option ChipId) (least : Nat) (act : Draw → State → Ran α) (s : State)
    (ha : ∀ u : State, u.params = s.params → (act (u.inputs.at 0) (u.tick least)).Goes D S u) :
    (primitive rmw least act s).Goes D S s := by
  unfold Machine.primitive
  cases hf : (s.inputs.at 0).foreign with
  | none => simpa [hf] using ha s rfl
  | some f =>
    simp only [hf]
    split
    · exact h.race s f _ hf
    · have := ha (s.foreignCall f (s.inputs.at 0)) (by simp)
      rw [State.foreignCall_inputs] at this
      exact h.before (h.foreign s f hf) this

theorem Closed.delayUs (d : Nat) (s : State) : (delayUs d s).Goes D S s :=
  h.primitive none d _ s fun u _ => h.delay u d

theorem Closed.regRead (a : BusAddr) (s : State) : (regRead a s).Goes D S s := by
  unfold Machine.regRead busReadCall
  split
  · next c hc hr =>
    rw [primitive_andThen]
    refine h.primitive _ 0 _ s fun u hu => ?_
    by_cases ho : (u.inputs.at 0).ok
    · simp only [ho, if_true, Ran.done_andThen, Bool.not_true]
      exact h.didRead u _
    · simp only [ho, Ran.done_andThen, Bool.not_false, Bool.false_eq_true, if_false]
      exact h.readFailed u _ _
  · exact h.refused s _

/-- A bus write whose failure is fatal: the shape of `write` and `configure_direction`. -/
theorem Closed.busWrite (m : Option ChipId) (a : BusAddr) (reg v : Byte) (info : FaultInfo) (s : State)
    (hc : ∀ c, chipAt s.params a = some c → C c) :
    ((busWriteCall m a reg v s).andThen fun ok s => if ok then .done () s else fatal .bus info s).Goes D S s := by
  unfold busWriteCall
  split
  · next c r hca hra =>
    rw [primitive_andThen]
    refine h.primitive _ 0 _ s fun u hu => ?_
    by_cases ho : (u.inputs.at 0).ok
    · simp only [ho, Ran.done_andThen, Bool.not_true, Bool.true_or, if_true]
      exact h.wrote u c _ r v (hc c hca)
    · by_cases ht : (u.inputs.at 0).took
      · simp only [ho, ht, Ran.done_andThen, Bool.not_false, Bool.or_true, if_true, Bool.false_eq_true, if_false]
        exact h.writeTook u c _ r v _ (hc c hca)
      · simp only [ho, ht, Ran.done_andThen, Bool.not_false, Bool.or_self, Bool.false_eq_true, if_false]
        exact h.writeFailed u _ _
  · exact h.refused s _

theorem Closed.regWrite (m : Option ChipId) (a : BusAddr) (v : Byte) (s : State)
    (hc : ∀ c, chipAt s.params a = some c → C c) : (regWrite m a v s).Goes D S s :=
  h.busWrite m a _ v _ s hc

theorem Closed.setBits (a : BusAddr) (m : Byte) (s : State) (hc : ∀ c, chipAt s.params a = some c → C c) :
    (setBits a m s).Goes D S s := by
  refine h.andThen (h.regRead a s) fun v t ht => h.regWrite _ a _ t ?_
  have := h.regRead a s
  rw [ht] at this
  rwa [h.params this]

theorem Closed.clearBits (a : BusAddr) (m : Byte) (s : State) (hc : ∀ c, chipAt s.params a = some c → C c) :
    (clearBits a m s).Goes D S s := by
  refine h.andThen (h.regRead a s) fun v t ht => h.regWrite _ a _ t ?_
  have := h.regRead a s
  rw [ht] at this
  rwa [h.params this]

theorem Closed.configureDirection (a : BusAddr) (m : Byte) (s : State) (hc : ∀ c, chipAt s.params a = some c → C c) :
    (configureDirection a m s).Goes D S s := by
  unfold Machine.configureDirection
  split
  · exact h.busWrite _ a _ m _ s hc
  · exact h.refused s _

theorem Closed.repeatOp {op : State → Ran Unit} (ho : ∀ s, (op s).Goes D S s) (n : Nat) (s : State) :
    (repeatOp op n s).Goes D S s := by
  induction n generalizing s with
  | zero => exact h.refl s
  | succ n ih => exact h.andThen (ho s) fun _ t _ => ih t

theorem Closed.validate (text : List Char) (s : State) : (validate text s).Goes D S s := by
  unfold Machine.validate
  split
  · split
    · split
      · exact h.refl s
      · exact h.lineLen s _
    · exact h.newlines s _
  · exact h.refused s _

/-- An operation after which a phase moves. -/
theorem Closed.thenPhase {α : Type} {op : State → Ran α} {s : State} (ho : (op s).Goes D S s) (p : LcdPhase)
    (hp : ∀ s : State, D s (s.enterPhase p)) :
    ((op s).andThen fun _ s => .done () (s.enterPhase p)).Goes D S s :=
  h.andThen ho fun _ t _ => hp t

theorem Closed.params_done {α : Type} {r : Ran α} {s t : State} {v : α} (hr : r.Goes D S s) (e : r = .done v t) :
    t.params = s.params := by
  subst e
  exact h.params hr

/-! ## The LCD driver -/

section
variable (hl : C .lcd)
include hl

theorem Closed.writeNibble (rs : Bool) (n : Nibble) (s : State) : (writeNibble rs n s).Goes D S s := by
  refine h.andThen (h.clearBits _ _ s (lcd_allowed hl s)) fun _ t _ => ?_
  refine h.andThen (h.setBits _ _ t (lcd_allowed hl t)) fun _ t _ => ?_
  refine h.andThen (h.delayUs _ t) fun _ t _ => ?_
  refine h.andThen (h.setBits _ _ t (lcd_allowed hl t)) fun _ t _ => ?_
  refine h.andThen (h.delayUs _ t) fun _ t _ => ?_
  refine h.andThen (h.clearBits _ _ t (lcd_allowed hl t)) fun _ t _ => ?_
  exact h.delayUs _ t

theorem Closed.sendByte (rs : Bool) (b : Byte) (s : State) : (sendByte rs b s).Goes D S s :=
  h.andThen (h.writeNibble hl _ _ s) fun _ t _ => h.writeNibble hl _ _ t

theorem Closed.clearDisplayBody (s : State) : (clearDisplayBody s).Goes D S s :=
  h.andThen (h.sendByte hl _ _ s) fun _ t _ => h.delayUs _ t

theorem Closed.sendText (text : List Char) (s : State) : (sendText text s).Goes D S s := by
  induction text generalizing s with
  | nil => exact h.refl s
  | cons c t ih =>
    unfold Machine.sendText
    refine h.andThen ?_ fun _ u _ => ih u
    split
    · exact h.sendByte hl _ _ s
    · exact h.sendByte hl _ _ s

theorem Closed.writeStringBody (text : List Char) (s : State) : (writeStringBody text s).Goes D S s :=
  h.andThen (h.validate text s) fun _ t _ => h.sendText hl text t

theorem Closed.writeDigits (ds : List Nat) (s : State) : (writeDigits ds s).Goes D S s := by
  induction ds generalizing s with
  | nil => exact h.refl s
  | cons d ds ih => exact h.andThen (h.writeStringBody hl _ s) fun _ t _ => ih t

theorem Closed.shiftCursorBody (dir : Direction) (n : Nat) (s : State) : (shiftCursorBody dir n s).Goes D S s :=
  h.repeatOp (fun t => h.sendByte hl _ _ t) n s

theorem Closed.backspaceBody (n : Nat) (s : State) : (backspaceBody n s).Goes D S s := by
  refine h.repeatOp (fun t => ?_) n s
  refine h.andThen (h.sendByte hl _ _ t) fun _ t _ => ?_
  exact h.andThen (h.sendByte hl _ _ t) fun _ t _ => h.sendByte hl _ _ t

theorem Closed.greetingBody (s : State) : (greetingBody s).Goes D S s :=
  h.andThen (h.clearDisplayBody hl s) fun _ t _ => h.writeStringBody hl _ t

theorem Closed.initStep2 (hp : ∀ (s : State) p, D s (s.enterPhase p)) (s : State) :
    (initStep2 s).Goes D S s := h.thenPhase (h.writeNibble hl _ _ s) _ fun t => hp t _

theorem Closed.lcdInitBody (hp : ∀ (s : State) p, D s (s.enterPhase p)) (s : State) :
    (lcdInitBody s).Goes D S s := by
  refine h.andThen (h.andThen (h.delayUs _ s) fun _ t _ => ?_) fun _ t _ => ?_
  · exact h.thenPhase (h.configureDirection _ _ t (lcd_allowed hl t)) _ fun u => hp u _
  refine h.andThen (h.initStep2 hl hp t) fun _ t _ => ?_
  refine h.andThen (h.thenPhase (h.sendByte hl _ _ t) _ fun u => hp u _) fun _ t _ => ?_
  refine h.andThen (h.thenPhase (h.sendByte hl _ _ t) _ fun u => hp u _) fun _ t _ => ?_
  exact h.thenPhase (h.sendByte hl _ _ t) _ fun u => hp u _

end

/-! ## The keypad scanner -/

theorem Closed.driveColumn (c : Column) {s : State} (hw : ∀ c, chipAt s.params s.params.kpAddr = some c → C c) :
    (driveColumn c s).Goes D S s := by
  unfold Machine.driveColumn
  split
  · exact h.regWrite _ _ _ s hw
  · exact h.setBits _ _ s hw

theorem Closed.readRows (s : State) : (readRows s).Goes D S s :=
  h.andThen (h.regRead _ s) fun _ t _ => h.refl t

theorem Closed.sweep (cs : List Column) {s : State} (hw : ∀ c, chipAt s.params s.params.kpAddr = some c → C c) :
    (sweep cs s).Goes D S s := by
  induction cs generalizing s with
  | nil => exact h.refl s
  | cons c cs ih =>
    have h1 := h.driveColumn c hw
    refine h.andThen h1 fun _ t ht => ?_
    have p1 := h.params_done h1 ht
    have h2 := h.readRows t
    refine h.andThen h2 fun _ u hu => ?_
    have p2 := h.params_done h2 hu
    exact h.andThen (ih (by rw [p2, p1]; exact hw)) fun _ v _ => h.refl v

theorem Closed.keypadInitBody (hp : ∀ (s : State) p, D s { s with kpPhase := p }) {s : State}
    (hw : ∀ c, chipAt s.params s.params.kpAddr = some c → C c) : (keypadInitBody s).Goes D S s :=
  h.andThen (h.configureDirection _ _ s hw) fun _ t _ => hp t _

end

end Sys2Proof.Machine
end

