-- ==== Sys2Proof/Laws/Driver.lean ====
section
/-! SUPPORT. The LCD driver's operations as sequences of bytes, and what such a sequence does (R603, R711, R723, R730,
R740). -/

namespace Sys2Proof.Machine

open Sys2Proof

/-! ## Sequences of bytes -/

/-- Bytes sent one after the other, each with its RS. -/
def sendAll : List (Bool × Byte) → State → Ran Unit
  | [], s => .done () s
  | (rs, b) :: bs, s => (sendByte rs b s).andThen fun _ s => sendAll bs s

/-- What the controller has executed after them. -/
def runAll (bs : List (Bool × Byte)) (k : Controller) : Controller :=
  bs.foldl (fun k p => cmdEffect (decodeCmd (busWord p.1 p.2)) k) k

@[simp] theorem runAll_nil (k : Controller) : runAll [] k = k := rfl

theorem runAll_cons (p : Bool × Byte) (bs : List (Bool × Byte)) (k : Controller) :
    runAll (p :: bs) k = runAll bs (cmdEffect (decodeCmd (busWord p.1 p.2)) k) := rfl

theorem runAll_append (as bs : List (Bool × Byte)) (k : Controller) : runAll (as ++ bs) k = runAll bs (runAll as k) := by
  simp [runAll]

theorem sendAll_append (as bs : List (Bool × Byte)) (s : State) :
    sendAll (as ++ bs) s = (sendAll as s).andThen fun _ t => sendAll bs t := by
  induction as generalizing s with
  | nil => rfl
  | cons p as ih =>
    obtain ⟨rs, b⟩ := p
    simp only [List.cons_append, sendAll, Ran.andThen_assoc]
    cases sendByte rs b s with
    | done v t => simpa using ih t
    | stopped t => rfl

theorem runAll_view {k k' : Controller} (h : k.view = k'.view) (bs : List (Bool × Byte)) :
    (runAll bs k).view = (runAll bs k').view := by
  induction bs generalizing k k' with
  | nil => exact h
  | cons p bs ih => exact ih (cmdEffect_view h _)

/-- The entries of a nibble write are completed calls to the LCD chip (R606). -/
theorem nibbleTrace_issued (s : State) (rs : Bool) (n : Nibble) :
    ∀ e ∈ nibbleTrace s rs n, e.err = false ∧ e.call.target = s.params.lcdAddr := by
  simp [nibbleTrace, BusCall.target]

theorem State.Issued.trans {s t u : State} {a : BusAddr} {m n : Nat} (h1 : s.Issued t a m) (h2 : t.Issued u a n) :
    s.Issued u a (m + n) := by
  obtain ⟨x, hx, hxl, hxe⟩ := h1
  obtain ⟨y, hy, hyl, hye⟩ := h2
  refine ⟨x ++ y, by rw [hy, hx, List.append_assoc], by simp [hxl, hyl], fun e he => ?_⟩
  rcases List.mem_append.1 he with he | he
  · exact hxe e he
  · exact hye e he

/-- A byte that sets no mark and takes T_EXEC (R520), sent from a settled 4-bit interface, leaves one: the interface
settles within the byte's own recovery. -/
theorem sendByte_defined {s : State} (hs : s.Settled) (hf : s.FourBit) (hq : s.inputs.Quiet 22) {rs : Bool} {b : Byte}
    (hd : (cmdEffect (decodeCmd (busWord rs b)) s.ctl).undefined = false)
    (hx : execTime (decodeCmd (busWord rs b)) = Config.T_EXEC) :
    ∃ t, sendByte rs b s = .done () t ∧ s.LcdOnly t ∧ t.inputs = s.inputs.drop 22 ∧
      t.now = s.now + 1080 + s.inputs.spent 22 ∧ lowered t = lowered s ∧ s.Issued t s.params.lcdAddr 16 ∧
      t.Settled ∧ t.FourBit ∧ t.ctl.view = (cmdEffect (decodeCmd (busWord rs b)) s.ctl).view := by
  obtain ⟨t, h1, h2, h3, h4, h5, h6, -, h8⟩ := sendByte_settled hs hf hq rs b rfl
  obtain ⟨hw, hv, hfb, hb⟩ := h8 hd
  have hp : t.params = s.params := h2.params
  refine ⟨t, h1, h2, h3, h4, ?_, ?_, ⟨hw, ?_⟩, hfb, hv⟩
  · rw [lowered, h5, hp]; exact lowered_asserted rs (loNibble b)
  · refine ⟨_, h6, by simp [nibbleTrace], fun e he => ?_⟩
    rw [List.mem_append] at he
    rcases he with he | he
    · exact nibbleTrace_issued s _ _ e he
    · exact nibbleTrace_issued (nibbleState s rs (hiNibble b)) _ _ e he
  · have : Config.T_EXEC = 37 := rfl
    rw [hx] at hb; omega

/-- A byte the driver may send at any time while the interface settles within its own recovery: it never sets
LCD_UNDEFINED in 4-bit mode, before init is over or after it, and it takes T_EXEC (R520, R530). -/
def Tame (p : Bool × Byte) : Prop :=
  (∀ k : Controller, k.lcd.dl = .four → (cmdEffect (decodeCmd (busWord p.1 p.2)) k).undefined = k.undefined) ∧
    execTime (decodeCmd (busWord p.1 p.2)) = Config.T_EXEC

/-- A tame byte, sent from a settled 4-bit interface, leaves one. -/
theorem sendByte_tame {s : State} (hs : s.Settled) (hf : s.FourBit) (hq : s.inputs.Quiet 22) {p : Bool × Byte}
    (ht : Tame p) :
    ∃ t, sendByte p.1 p.2 s = .done () t ∧ s.LcdOnly t ∧ t.inputs = s.inputs.drop 22 ∧
      t.now = s.now + 1080 + s.inputs.spent 22 ∧ lowered t = lowered s ∧ s.Issued t s.params.lcdAddr 16 ∧
      t.Settled ∧ t.FourBit ∧ t.ctl.view = (cmdEffect (decodeCmd (busWord p.1 p.2)) s.ctl).view :=
  sendByte_defined hs hf hq ((ht.1 _ hf.1).trans hs.defined) ht.2

/-- What a sequence of tame bytes does. -/
theorem sendAll_tame {s : State} (hs : s.Settled) (hf : s.FourBit) {bs : List (Bool × Byte)}
    (hq : s.inputs.Quiet (22 * bs.length)) (ht : ∀ p ∈ bs, Tame p) :
    ∃ t, sendAll bs s = .done () t ∧ s.LcdOnly t ∧ t.inputs = s.inputs.drop (22 * bs.length) ∧
      t.now = s.now + 1080 * bs.length + s.inputs.spent (22 * bs.length) ∧ lowered t = lowered s ∧
      s.Issued t s.params.lcdAddr (16 * bs.length) ∧
      t.Settled ∧ t.FourBit ∧ t.ctl.view = (runAll bs s.ctl).view := by
  induction bs generalizing s with
  | nil => exact ⟨s, rfl, rfl, by simp, by simp [Inputs.spent], rfl, ⟨[], by simp⟩, hs, hf, rfl⟩
  | cons p bs ih =>
    obtain ⟨rs, b⟩ := p
    obtain ⟨t, h1, h2, h3, h4, h5, h6, h7, h8, h9⟩ :=
      sendByte_tame hs hf (hq.mono (by simp)) (ht (rs, b) (by simp))
    have hlen : 22 * ((rs, b) :: bs).length = 22 + 22 * bs.length := by simp; omega
    obtain ⟨u, g1, g2, g3, g4, g5, g6, g7, g8, g9⟩ :=
      ih h7 h8 (by rw [h3]; exact hq.drop 22 (by omega)) fun p hp => ht p (List.mem_cons_of_mem _ hp)
    refine ⟨u, by simp only [sendAll, h1, Ran.done_andThen, g1], h2.trans g2, ?_, ?_, g5.trans h5, ?_, g7, g8, ?_⟩
    · rw [g3, h3, Inputs.drop_drop, hlen]
    · rw [g4, h4, h3, hlen, Inputs.spent_add]
      simp only [List.length_cons]; omega
    · rw [h2.params] at g6
      have := h6.trans g6
      rwa [show 16 + 16 * bs.length = 16 * ((rs, b) :: bs).length by simp; omega] at this
    · rw [g9, runAll_cons]
      exact runAll_view h9 bs

/-! ## The driver's bytes are tame (R530) -/

theorem decode_data (b : Byte) : decodeCmd (busWord true b) = .writeData b := by revert b; decide

theorem decode_shift (dir : Direction) :
    decodeCmd (busWord false (shiftByte dir)) = .cursorDisplayShift false (decide (dir = .right)) 0 := by
  cases dir <;> rfl

theorem decode_newline : decodeCmd (busWord false newlineByte) = .setDdramAddr 0x40 := rfl

theorem decode_display (p : Params) (d : Bool) :
    decodeCmd (busWord false (displayByte p d)) = .displayControl d p.cursorOn p.blinkOn := by
  unfold displayByte
  cases d <;> cases p.cursorOn <;> cases p.blinkOn <;> rfl

theorem decode_clear : decodeCmd (busWord false clearByte) = .clearDisplay := rfl

theorem decode_functionSet : decodeCmd (busWord false functionSetByte) = .functionSet false true false 0 := rfl

theorem decode_entryMode : decodeCmd (busWord false entryModeByte) = .entryModeSet true false := rfl

theorem moveAc_undefined (f : Bool) (k : Controller) : (k.moveAc f).undefined = k.undefined := by
  unfold Controller.moveAc; split <;> rfl

theorem storeAtAc_undefined (d : Byte) (k : Controller) : (k.storeAtAc d).undefined = k.undefined := by
  unfold Controller.storeAtAc; split <;> rfl

theorem tame_data (b : Byte) : Tame (true, b) := by
  simp only [Tame, decode_data]
  refine ⟨fun k _ => ?_, rfl⟩
  simp only [cmdEffect, cmdWriteData]
  split <;> simp [moveAc_undefined, storeAtAc_undefined]

theorem tame_shift (dir : Direction) : Tame (false, shiftByte dir) := by
  simp only [Tame, decode_shift]
  exact ⟨fun k _ => moveAc_undefined _ k, rfl⟩

theorem tame_newline : Tame (false, newlineByte) := by
  simp only [Tame, decode_newline]
  refine ⟨fun k _ => ?_, rfl⟩
  simp [cmdEffect, cmdSetDdramAddr]

theorem tame_display (p : Params) (d : Bool) : Tame (false, displayByte p d) := by
  simp only [Tame, decode_display]
  exact ⟨fun k _ => rfl, rfl⟩

theorem tame_entryMode : Tame (false, entryModeByte) := by
  simp only [Tame, decode_entryMode]
  exact ⟨fun k _ => rfl, rfl⟩

/-! ## The operations as sequences -/

/-- The byte of a character of a text, with its RS: a newline is a command, anything else data (R723). -/
def charSend (c : Char) : Bool × Byte := if c = newlineChar then (false, newlineByte) else (true, charByte c)

theorem tame_char (c : Char) : Tame (charSend c) := by
  unfold charSend; split
  · exact tame_newline
  · exact tame_data _

theorem sendText_eq (text : List Char) : sendText text = sendAll (text.map charSend) := by
  induction text with
  | nil => rfl
  | cons c t ih =>
    funext s
    simp only [sendText, List.map_cons, ih, charSend]
    split <;> rfl

theorem repeatOp_sendCommand (b : Byte) (n : Nat) :
    repeatOp (sendCommand b) n = sendAll (List.replicate n (false, b)) := by
  induction n with
  | zero => rfl
  | succ n ih => funext s; simp only [repeatOp, ih, List.replicate_succ, sendAll]; rfl

theorem shiftCursorBody_eq (dir : Direction) (n : Nat) :
    shiftCursorBody dir n = sendAll (List.replicate n (false, shiftByte dir)) := by
  funext s; rw [shiftCursorBody, repeatOp_sendCommand]

/-- The three bytes of one backspace (R730). -/
def backspaceSend : List (Bool × Byte) := [(false, shiftByte .left), (true, blankByte), (false, shiftByte .left)]

theorem backspaceOnce_eq : backspaceOnce = sendAll backspaceSend := by
  funext s
  simp only [backspaceOnce, backspaceSend, sendAll, sendCommand, sendData]
  congr 1; funext _ t; congr 1; funext _ u
  cases sendByte false (shiftByte .left) u <;> rfl

/-- The bytes of `count` backspaces. -/
def backspacesSend : Nat → List (Bool × Byte)
  | 0 => []
  | n + 1 => backspaceSend ++ backspacesSend n

theorem backspaceBody_eq (n : Nat) : backspaceBody n = sendAll (backspacesSend n) := by
  induction n with
  | zero => rfl
  | succ n ih =>
    funext s
    have : backspaceBody (n + 1) s = (backspaceOnce s).andThen fun _ t => backspaceBody n t := rfl
    rw [this, backspacesSend, sendAll_append, backspaceOnce_eq, ih]

theorem tame_backspaces (n : Nat) : ∀ p ∈ backspacesSend n, Tame p := by
  induction n with
  | zero => simp [backspacesSend]
  | succ n ih =>
    intro p hp
    rcases List.mem_append.1 hp with hp | hp
    · simp only [backspaceSend, List.mem_cons, List.not_mem_nil, or_false] at hp
      rcases hp with rfl | rfl | rfl
      · exact tame_shift _
      · exact tame_data _
      · exact tame_shift _
    · exact ih p hp

theorem backspacesSend_length (n : Nat) : (backspacesSend n).length = 3 * n := by
  induction n with
  | zero => rfl
  | succ n ih => simp [backspacesSend, backspaceSend, ih]; omega

theorem validate_ok {text : List Char} (h : ValidText text) (s : State) : validate text s = .done () s := by
  have hf : (segments text).find? (fun g => decide (Config.COLS < g.length)) = none := by
    rw [List.find?_eq_none]
    intro g hg
    have := h.2.2 g hg
    simp; omega
  simp [validate, h.1, h.2.1, hf]

theorem writeStringBody_eq {text : List Char} (h : ValidText text) :
    writeStringBody text = sendAll (text.map charSend) := by
  funext s
  rw [writeStringBody, validate_ok h, Ran.done_andThen, sendText_eq]

theorem digit_lt (v k : Nat) : ∀ d ∈ decimalDigits v k, d < 10 := by
  induction k with
  | zero => simp [decimalDigits]
  | succ k ih =>
    intro d hd
    simp only [decimalDigits, List.mem_cons] at hd
    rcases hd with rfl | hd
    · exact Nat.mod_lt _ (by omega)
    · exact ih d hd

/-- A digit is sent as data `0x30 + d` (R742). -/
theorem charSend_digit {d : Nat} (h : d < 10) : charSend (digitChar d) = (true, BitVec.ofNat 8 (0x30 + d)) := by
  interval_cases d <;> rfl

theorem validText_digit {d : Nat} (h : d < 10) : ValidText [digitChar d] := by
  interval_cases d <;> (refine ⟨by decide, by decide, by decide⟩)

theorem writeDigits_eq {ds : List Nat} (h : ∀ d ∈ ds, d < 10) :
    writeDigits ds = sendAll (ds.map fun d => (true, BitVec.ofNat 8 (0x30 + d))) := by
  induction ds with
  | nil => rfl
  | cons d ds ih =>
    funext s
    have hd := h d (by simp)
    rw [writeDigits, writeStringBody_eq (validText_digit hd), ih fun x hx => h x (List.mem_cons_of_mem _ hx)]
    simp only [List.map_cons, List.map_nil, charSend_digit hd, sendAll]
    cases sendByte true (BitVec.ofNat 8 (0x30 + d)) s <;> rfl

end Sys2Proof.Machine
end

