-- ==== Sys2Proof/Laws/Exec.lean ====
section
/-! SUPPORT. What `exec` of an instruction is while Main runs: its operation, run to its end. -/

namespace Sys2Proof.Machine

open Sys2Proof

section
variable {s : State} (h : s.Running)
include h

theorem exec_busWrite (a : BusAddr) (reg v : Byte) :
    exec (.busWrite a reg v) s = .next (((busWriteCall none a reg v { s with ret := none }).andThen fun ok s => .done (.transport ok) s).finish : State) :=
  complete_running h fun s => (busWriteCall none a reg v s).andThen fun ok s => .done (.transport ok) s

theorem exec_busWriteRead (a : BusAddr) (reg : Byte) :
    exec (.busWriteRead a reg) s = .next (((busReadCall a reg { s with ret := none }).andThen fun r s => .done (.transportRead r) s).finish : State) :=
  complete_running h fun s => (busReadCall a reg s).andThen fun r s => .done (.transportRead r) s

theorem exec_read (a : BusAddr) :
    exec (.read a) s = .next (((regRead a { s with ret := none }).andThen fun v s => .done (.byte v) s).finish : State) :=
  complete_running h fun s => (regRead a s).andThen fun v s => .done (.byte v) s

theorem exec_write (a : BusAddr) (v : Byte) :
    exec (.write a v) s = .next (unitOp (regWrite none a v) { s with ret := none }).finish :=
  complete_running h _

theorem exec_setBits (a : BusAddr) (m : Byte) :
    exec (.setBits a m) s = .next (unitOp (setBits a m) { s with ret := none }).finish :=
  complete_running h _

theorem exec_clearBits (a : BusAddr) (m : Byte) :
    exec (.clearBits a m) s = .next (unitOp (clearBits a m) { s with ret := none }).finish :=
  complete_running h _

theorem exec_configureDirection (a : BusAddr) (m : Byte) :
    exec (.configureDirection a m) s = .next (unitOp (configureDirection a m) { s with ret := none }).finish :=
  complete_running h _

theorem exec_delayUs (d : Nat) :
    exec (.delay .us d) s = .next (unitOp (delayUs d) { s with ret := none }).finish :=
  complete_running h _

theorem exec_delayMs (d : Nat) :
    exec (.delay .ms d) s = .next (unitOp (delayUs (1000 * d)) { s with ret := none }).finish :=
  complete_running h _

theorem exec_writeNibble (rs : Bool) (n : Nibble) :
    exec (.writeNibble rs n) s = .next (unitOp (whenPinsOutputs (writeNibble rs n)) { s with ret := none }).finish :=
  complete_running h _

theorem exec_sendByte (rs : Bool) (b : Byte) :
    exec (.sendByte rs b) s = .next (unitOp (whenPinsOutputs (sendByte rs b)) { s with ret := none }).finish :=
  complete_running h _

theorem exec_sendCommand (b : Byte) :
    exec (.sendCommand b) s = .next (unitOp (whenPinsOutputs (sendByte false b)) { s with ret := none }).finish :=
  complete_running h _

theorem exec_sendData (b : Byte) :
    exec (.sendData b) s = .next (unitOp (whenPinsOutputs (sendByte true b)) { s with ret := none }).finish :=
  complete_running h _

theorem exec_lcdPowerOn :
    exec .lcdPowerOn s = .next (unitOp (whenLcdReady (holding .lcdPowerOn powerOnBody)) { s with ret := none }).finish :=
  complete_running h _

theorem exec_lcdPowerOff :
    exec .lcdPowerOff s = .next (unitOp (whenLcdReady (holding .lcdPowerOff powerOffBody)) { s with ret := none }).finish :=
  complete_running h _

theorem exec_lcdDisplayGreeting :
    exec .lcdDisplayGreeting s = .next (unitOp (whenLcdReady (holding .lcdDisplayGreeting greetingBody)) { s with ret := none }).finish :=
  complete_running h _

theorem exec_lcdWriteString (text : List Char) :
    exec (.lcdWriteString text) s = .next (unitOp (whenLcdReady (holding .lcdWriteString (writeStringBody text))) { s with ret := none }).finish :=
  complete_running h _

theorem exec_lcdWriteU32 (v : BitVec 32) :
    exec (.lcdWriteU32 v) s = .next (unitOp (whenLcdReady (holding .lcdWriteU32 (writeU32Body v))) { s with ret := none }).finish :=
  complete_running h _

theorem exec_lcdWriteU8 (v : Byte) :
    exec (.lcdWriteU8 v) s = .next (unitOp (whenLcdReady (holding .lcdWriteU8 (writeU8Body v))) { s with ret := none }).finish :=
  complete_running h _

theorem exec_lcdBackspace (count : Nat) :
    exec (.lcdBackspace count) s = .next (unitOp (whenLcdReady (holding .lcdBackspace (backspaceBody count))) { s with ret := none }).finish :=
  complete_running h _

theorem exec_lcdClearDisplay :
    exec .lcdClearDisplay s = .next (unitOp (whenLcdReady (holding .lcdClearDisplay clearDisplayBody)) { s with ret := none }).finish :=
  complete_running h _

theorem exec_lcdShiftCursor (dir : Direction) (count : Nat) :
    exec (.lcdShiftCursor dir count) s = .next (unitOp (whenLcdReady (holding .lcdShiftCursor (shiftCursorBody dir count))) { s with ret := none }).finish :=
  complete_running h _

theorem exec_lcdNewline :
    exec .lcdNewline s = .next (unitOp (whenLcdReady newline) { s with ret := none }).finish :=
  complete_running h _

theorem exec_lcdWriteChar (c : Char) :
    exec (.lcdWriteChar c) s = .next (unitOp (whenLcdReady (writeChar c)) { s with ret := none }).finish :=
  complete_running h _

theorem exec_keypadDriveColumn (c : Column) :
    exec (.keypadDriveColumn c) s = .next (unitOp (driveColumn c) { s with ret := none }).finish :=
  complete_running h _

theorem exec_keypadReadRows :
    exec .keypadReadRows s = .next (((readRows { s with ret := none }).andThen fun rs s => .done (.rows rs) s).finish : State) :=
  complete_running h fun s => (readRows s).andThen fun rs s => .done (.rows rs) s

theorem exec_keypadRawScan :
    exec .keypadRawScan s = .next (((rawScan { s with ret := none }).andThen fun ks s => .done (.keys ks) s).finish : State) :=
  complete_running h fun s => (rawScan s).andThen fun ks s => .done (.keys ks) s

theorem exec_lcdInit : exec .lcdInit s = .next (unitOp (fun s =>
    if s.lcdPhase = .unpowered then holding .lcdInit lcdInitBody s else refuse .alreadyInitialised s)
    { s with ret := none }).finish :=
  complete_running h _

theorem exec_initNibble8bit : exec .initNibble8bit s = .next (unitOp (fun s =>
    if s.lcdPhase = .pinsConfigured then initStep2 s
    else if s.lcdPhase = .unpowered then refuse .notReady s
    else refuse .alreadyInitialised s) { s with ret := none }).finish :=
  complete_running h _

theorem exec_keypadInit : exec .keypadInit s = .next (unitOp (fun s =>
    if s.kpPhase = .uninit then holding .keypadInit keypadInitBody s else refuse .alreadyInitialised s)
    { s with ret := none }).finish :=
  complete_running h _

theorem exec_keypadScanSet : exec .keypadScanSet s = .next ((fun s : State =>
    if s.kpPhase = .ready then holding .keypadScanSet scanSetBody s else refuse .notReady s)
    { s with ret := none }).finish :=
  complete_running h fun s => if s.kpPhase = .ready then holding .keypadScanSet scanSetBody s else refuse .notReady s

theorem exec_keypadScan : exec .keypadScan s = .next (
    if s.kpPhase = .ready then scanFirst { s with ret := none, scanning := none }
    else ({ s with ret := none } : State).refuse .notReady) := by
  show Host.Outcome.next (if s.stopped then s else _) = _
  rw [running_stopped h]
  rfl

end

end Sys2Proof.Machine
end

