-- ==== Sys2Proof/Laws/Operations.lean ====
section
/-! SUPPORT. What a completed LCD operation leaves (R603, R611, R700, R931): the specification of an operation made of
bytes, from a ready driver, and the bytes of a text in DDRAM (R521, R724, R731). -/

namespace Sys2Proof.Machine

open Sys2Proof

/-! ## The interface conditions depend on four fields -/

theorem State.Wired.congr {s t : State} (h : s.Wired) (hp : t.params = s.params) (hc : t.lcdChip = s.lcdChip)
    (hk : t.ctl = s.ctl) (hn : t.now = s.now) : t.Wired := by
  obtain ⟨h1, h2, h3, h4, h5, h6, h7, h8, h9⟩ := h
  constructor <;> simp only [hp, hc, hk, hn] <;> assumption

theorem State.Settled.congr {s t : State} (h : s.Settled) (hp : t.params = s.params) (hc : t.lcdChip = s.lcdChip)
    (hk : t.ctl = s.ctl) (hn : t.now = s.now) : t.Settled :=
  { toWired := h.toWired.congr hp hc hk hn, busy := by rw [hk, hn]; exact h.busy }

/-- A move of the phase changes neither the interface nor the lines. -/
theorem State.Wired.enterPhase {s : State} (h : s.Wired) (p : LcdPhase) : (s.enterPhase p).Wired := by
  obtain ⟨h1, h2, h3, h4, h5, h6, h7, h8, h9⟩ := h
  constructor <;> assumption

theorem State.Settled.enterPhase {s : State} (h : s.Settled) (p : LcdPhase) : (s.enterPhase p).Settled :=
  { toWired := h.toWired.enterPhase p, busy := h.busy }

/-! ## From what an operation's transfers did to what the call leaves -/

/-- The state an LCD operation starts its transfers in, under the hold of `o` (R931). -/
def State.entered (s : State) (o : Option PublicOp) : State := { s with ret := none, busOwner := o }

/-- The state the call leaves when its transfers left `t`. -/
def State.left (t : State) : State := { t with ret := some .unit, busOwner := none }

theorem lcdOp_done {s t : State} (h : s.LcdReady) {op : PublicOp} {body : State → Ran Unit}
    (hb : body (s.entered (some op)) = .done () t) : lcdOp op body s = .next t.left := by
  unfold lcdOp
  rw [complete_running h.running]
  have hw : whenLcdReady (holding op body) { s with ret := none } = holding op body { s with ret := none } :=
    if_pos h.phase
  have he : holding op body { s with ret := none } = (body (s.entered (some op))).andThen fun v s => .done v s.release :=
    rfl
  rw [unitOp, hw, he, hb]
  rfl

theorem bareOp_done {s t : State} (h : s.LcdReady) {body : State → Ran Unit}
    (hb : body (s.entered none) = .done () t) (ht : (s.entered none).LcdOnly t) :
    complete (unitOp (whenLcdReady body)) s = .next t.left := by
  rw [complete_running h.running]
  have he : ({ s with ret := none } : State) = s.entered none := by
    cases s; have := h.free.1; simp only at this; subst this; rfl
  have hbo : t.busOwner = none := ht.busOwner
  have hw : whenLcdReady body (s.entered none) = body (s.entered none) := if_pos h.phase
  rw [unitOp, he, hw, hb]
  cases t; simp only at hbo; subst hbo; rfl

/-- The frame and the readiness a completed operation leaves, from what its transfers did. -/
theorem lcdDone_of {s t : State} (h : s.LcdReady) {o : Option PublicOp} {bytes waits least : Nat}
    (hf : (s.entered o).LcdOnly t) (hi : t.inputs = s.inputs.drop (22 * bytes + waits)) (hn : s.now + least ≤ t.now)
    (hl : lowered t = lowered s) (hs : s.Issued t s.params.lcdAddr (16 * bytes)) (hst : t.Settled) (h4 : t.FourBit) :
    s.LcdDone t.left bytes waits least := by
  have hp : t.params = s.params := hf.params
  refine { frame := ?_, inputs := hi, time := hn, unused := ?_, issued := hs, ready := ?_ }
  · have := h.free.1
    rw [State.LcdOnly] at hf
    rw [State.LcdOnly, hf]
    cases s; simp only at this; subst this; rfl
  · rw [lowered, lowered, hp] at hl
    exact hl
  · exact
      { toSettled := hst.congr rfl rfl rfl rfl
        running := ⟨hf.fatal.trans h.running.1, hf.refused.trans h.running.2⟩
        free := ⟨rfl, hf.scanning.trans h.free.2⟩
        phase := hf.lcdPhase.trans h.phase
        fourBit := h4 }

/-- What a ready driver does with a sequence of tame bytes. -/
theorem sends_ready {s : State} (h : s.LcdReady) (o : Option PublicOp) {bs : List (Bool × Byte)}
    (hq : s.inputs.Quiet (22 * bs.length)) (ht : ∀ p ∈ bs, Tame p) :
    ∃ t, sendAll bs (s.entered o) = .done () t ∧ (s.entered o).LcdOnly t ∧
      s.LcdDone t.left bs.length 0 (1080 * bs.length) ∧ t.left.ctl.view = (runAll bs s.ctl).view := by
  have hs : (s.entered o).Settled := h.toSettled.congr rfl rfl rfl rfl
  obtain ⟨t, h1, h2, h3, h4, h5, h6, h7, h8, h9⟩ := sendAll_tame hs h.fourBit hq ht
  refine ⟨t, h1, h2, lcdDone_of h h2 h3 ?_ h5 h6 h7 h8, h9⟩
  have : (s.entered o).now = s.now := rfl
  omega

/-- A public LCD operation that is a sequence of tame bytes. -/
theorem lcdOp_sends {s : State} (h : s.LcdReady) (op : PublicOp) {bs : List (Bool × Byte)}
    (hq : s.inputs.Quiet (22 * bs.length)) (ht : ∀ p ∈ bs, Tame p) :
    ∃ t, lcdOp op (sendAll bs) s = .next t ∧ s.LcdDone t bs.length 0 (1080 * bs.length) ∧
      t.ctl.view = (runAll bs s.ctl).view := by
  obtain ⟨t, h1, -, h3, h4⟩ := sends_ready h (some op) hq ht
  exact ⟨_, lcdOp_done h h1, h3, h4⟩

/-- An internal LCD operation that is one tame byte. -/
theorem bareOp_sends {s : State} (h : s.LcdReady) {p : Bool × Byte} (hq : s.inputs.Quiet 22) (ht : Tame p) :
    ∃ t, complete (unitOp (whenLcdReady (sendByte p.1 p.2))) s = .next t ∧ s.LcdDone t 1 0 1080 ∧
      t.ctl.view = (cmdEffect (decodeCmd (busWord p.1 p.2)) s.ctl).view := by
  obtain ⟨t, h1, h2, h3, h4⟩ := sends_ready h none (bs := [p]) hq (by simpa using ht)
  have h1' : sendByte p.1 p.2 (s.entered none) = .done () t := by
    simp only [sendAll] at h1
    cases hr : sendByte p.1 p.2 (s.entered none) with
    | done v u => rw [hr] at h1; simpa using h1
    | stopped u => rw [hr] at h1; cases h1
  exact ⟨_, bareOp_done h h1' h2, h3, h4⟩

/-- The parts of the controller's view. -/
theorem screen_of_view {k k' : Controller} (h : k.view = k'.view) : k.lcd.screen = k'.lcd.screen := by
  have := congrArg Controller.lcd h
  exact this

theorem Lcd.ddram_of_screen {l l' : Lcd} (h : l.screen = l'.screen) : l.ddram = l'.ddram := by
  have := congrArg Lcd.ddram h; exact this

theorem Lcd.ac_of_screen {l l' : Lcd} (h : l.screen = l'.screen) : l.ac = l'.ac := by
  have := congrArg Lcd.ac h; exact this

/-! ## Bytes under the driver's entry mode (R521) -/

/-- The controller's side of `State.Cleared`, with AC on the map. -/
structure Controller.Tidy (k : Controller) : Prop where
  unshifted : k.lcd.shift = 0
  increments : k.lcd.id = true
  noShift : k.lcd.s = false
  twoLines : k.lcd.n = true
  legal : legalAddr true k.lcd.ac = true

theorem State.Cleared.tidy {s : State} (h : s.Cleared) : s.ctl.Tidy := ⟨h.1, h.2, h.3, h.4, h.5⟩

theorem Controller.Tidy.cleared {s : State} (h : s.ctl.Tidy) : s.Cleared := ⟨h.1, h.2, h.3, h.4, h.5⟩

theorem Controller.Tidy.of_view {k k' : Controller} (h : k'.Tidy) (hv : k.view = k'.view) : k.Tidy := by
  have hs := screen_of_view hv
  have h1 : k.lcd.shift = k'.lcd.shift := by have := congrArg Lcd.shift hs; exact this
  have h2 : k.lcd.id = k'.lcd.id := by have := congrArg Lcd.id hs; exact this
  have h3 : k.lcd.s = k'.lcd.s := by have := congrArg Lcd.s hs; exact this
  have h4 : k.lcd.n = k'.lcd.n := by have := congrArg Lcd.n hs; exact this
  have h5 : k.lcd.ac = k'.lcd.ac := Lcd.ac_of_screen hs
  exact ⟨h1.trans h.1, h2.trans h.2, h3.trans h.3, h4.trans h.4, by rw [h5]; exact h.5⟩

theorem legal_inc (x : DdAddr) (h : legalAddr true x = true) : legalAddr true (incAc true x) = true := by
  revert x; decide

theorem legal_dec (x : DdAddr) (h : legalAddr true x = true) : legalAddr true (decAc true x) = true := by
  revert x; decide

theorem inc_dec (x : DdAddr) (h : legalAddr true x = true) : incAc true (decAc true x) = x := by
  revert x; decide

theorem inc_iterate_legal {x : DdAddr} (h : legalAddr true x = true) (n : Nat) :
    legalAddr true ((incAc true)^[n] x) = true := by
  induction n generalizing x with
  | zero => exact h
  | succ n ih => exact ih (legal_inc x h)

theorem dec_iterate_legal {x : DdAddr} (h : legalAddr true x = true) (n : Nat) :
    legalAddr true ((decAc true)^[n] x) = true := by
  induction n generalizing x with
  | zero => exact h
  | succ n ih => exact ih (legal_dec x h)

section
variable {k : Controller} (h : k.Tidy)
include h

/-- A code sent as data goes to AC's cell, and AC steps on (R518, R521). -/
theorem effect_data (b : Byte) : cmdEffect (decodeCmd (busWord true b)) k =
    { k with lcd := { k.lcd with ddram := k.lcd.ddram.write k.lcd.ac.toNat b, ac := incAc true k.lcd.ac } } := by
  rw [decode_data]
  simp [cmdEffect, cmdWriteData, Controller.storeAtAc, Controller.moveAc, h.twoLines, h.legal, h.noShift, h.increments,
    stepAc]

theorem effect_newline : cmdEffect (decodeCmd (busWord false newlineByte)) k =
    { k with lcd := { k.lcd with ac := 0x40 } } := by
  rw [decode_newline]
  simp [cmdEffect, cmdSetDdramAddr, h.twoLines]

theorem effect_left : cmdEffect (decodeCmd (busWord false (shiftByte .left))) k =
    { k with lcd := { k.lcd with ac := decAc true k.lcd.ac } } := by
  rw [decode_shift]
  simp [cmdEffect, cmdCursorDisplayShift, Controller.moveAc, h.twoLines, h.legal, stepAc]

theorem effect_right : cmdEffect (decodeCmd (busWord false (shiftByte .right))) k =
    { k with lcd := { k.lcd with ac := incAc true k.lcd.ac } } := by
  rw [decode_shift]
  simp [cmdEffect, cmdCursorDisplayShift, Controller.moveAc, h.twoLines, h.legal, stepAc]

end

/-- The codes of a list written at `a, inc a, …` (R724). -/
def writeRun (m : Memory) (a : DdAddr) : List Byte → Memory
  | [] => m
  | b :: bs => writeRun (m.write a.toNat b) (incAc true a) bs

/-- Data bytes under the driver's entry mode. -/
theorem runAll_data {k : Controller} (h : k.Tidy) (bs : List Byte) :
    runAll (bs.map fun b => (true, b)) k =
        { k with lcd := { k.lcd with
            ddram := writeRun k.lcd.ddram k.lcd.ac bs, ac := (incAc true)^[bs.length] k.lcd.ac } } ∧
      (runAll (bs.map fun b => (true, b)) k).Tidy := by
  induction bs generalizing k with
  | nil => exact ⟨rfl, h⟩
  | cons b bs ih =>
    rw [List.map_cons, runAll_cons, effect_data h]
    exact ih (k := { k with lcd := { k.lcd with ddram := _, ac := incAc true k.lcd.ac } })
      ⟨h.1, h.2, h.3, h.4, legal_inc _ h.5⟩

/-- The position of a legal address in the order of the map (R116). -/
def cellIndex (x : DdAddr) : Nat := if x.toNat < 0x40 then x.toNat else x.toNat - 0x18

theorem cellIndex_inc (x : DdAddr) (h : legalAddr true x = true) :
    cellIndex (incAc true x) = (cellIndex x + 1) % 80 := by
  revert x; decide

theorem cellIndex_lt (x : DdAddr) (h : legalAddr true x = true) : cellIndex x < 80 := by
  revert x; decide

theorem cellIndex_iterate {x : DdAddr} (h : legalAddr true x = true) (n : Nat) :
    cellIndex ((incAc true)^[n] x) = (cellIndex x + n) % 80 := by
  induction n generalizing x with
  | zero => exact (Nat.mod_eq_of_lt (cellIndex_lt x h)).symm
  | succ n ih =>
    rw [Function.iterate_succ_apply, ih (legal_inc x h), cellIndex_inc x h]
    omega

/-- Within 80 steps no cell of a run comes twice. -/
theorem inc_toNat_ne {x : DdAddr} (h : legalAddr true x = true) {i j : Nat} (hij : i < j) (hj : j < i + 80) :
    ((incAc true)^[i] x).toNat ≠ ((incAc true)^[j] x).toNat := by
  intro he
  have hi := cellIndex_iterate h i
  have hj' := cellIndex_iterate h j
  rw [BitVec.eq_of_toNat_eq he] at hi
  omega

/-- A run writes only its cells. -/
theorem writeRun_other {m : Memory} {x : DdAddr} {bs : List Byte} {a : Nat}
    (h : ∀ i < bs.length, ((incAc true)^[i] x).toNat ≠ a) : (writeRun m x bs).read a = m.read a := by
  induction bs generalizing m x with
  | nil => rfl
  | cons b bs ih =>
    have h0 : x.toNat ≠ a := h 0 (by simp)
    rw [writeRun, ih fun i hi => h (i + 1) (by simpa using hi), Memory.read_write_other _ h0.symm]

/-- A run of at most 80 codes leaves each in its cell. -/
theorem writeRun_same {m : Memory} {x : DdAddr} (hx : legalAddr true x = true) {bs : List Byte} (hl : bs.length ≤ 80)
    {i : Nat} {b : Byte} (hb : bs[i]? = some b) : (writeRun m x bs).read ((incAc true)^[i] x).toNat = some b := by
  induction bs generalizing m x i with
  | nil => simp at hb
  | cons c bs ih =>
    have hl' : bs.length + 1 ≤ 80 := by simpa using hl
    cases i with
    | zero =>
      simp only [List.getElem?_cons_zero, Option.some.injEq] at hb
      subst hb
      rw [writeRun, writeRun_other]
      · exact Memory.read_write_same _ _ _
      · intro i hi
        exact Ne.symm (inc_toNat_ne hx (i := 0) (j := i + 1) (by omega) (by omega))
    | succ i => exact ih (legal_inc x hx) (by omega) (by simpa using hb)

end Sys2Proof.Machine
end

