-- ==== Sys2Proof/Laws/Init.lean ====
section
/-! SUPPORT. The initialisation of the LCD (R701 to R706): the specification of each step and of `lcd.init`. -/

namespace Sys2Proof.Machine

open Sys2Proof

theorem State.Issued.congr {s t s' t' : State} {a : BusAddr} {n : Nat} (h : s.Issued t a n) (hs : s'.trace = s.trace)
    (ht : t'.trace = t.trace) : s'.Issued t' a n := by
  obtain ⟨new, h1, h2⟩ := h
  exact ⟨new, by rw [hs, ht, h1], h2⟩

/-! ## Step 1 (R701) -/

/-- The power-rise settle and the LCD pins as outputs leave a settled interface, the controller's view as it was but for the mark of
a finished init. -/
theorem initStep1_cold {s : State} (h : s.ColdInterface) (hb : s.busOwner = some .lcdInit) (hq : s.inputs.Quiet 2) :
    ∃ t, initStep1 s = .done () t ∧ ({ s with lcdPhase := .pinsConfigured } : State).LcdOnly t ∧
      t.inputs = s.inputs.drop 2 ∧ s.now + 10000 ≤ t.now ∧ t.lcdChip = { s.lcdChip with dir := 0 } ∧
      s.Issued t s.params.lcdAddr 1 ∧ t.Settled ∧ t.ctl.view = { s.ctl.view with afterInit := false } := by
  obtain ⟨h0o, h0f⟩ := hq 0 (by omega)
  obtain ⟨h1o, h1f⟩ := hq 1 (by omega)
  have hP : Config.T_POWER = 10000 := rfl
  have q1 : delayMs Config.T_POWER_MS s = .done () (s.tick 10000) := delayUs_alone h0f _
  generalize hu : s.tick 10000 = u at q1
  have up : u.params = s.params := by subst hu; rfl
  have ui : u.inputs = s.inputs.rest := by subst hu; rfl
  have uk : u.ctl = s.ctl := by subst hu; exact Controller.settle_defined h.defined
  have un : s.now + 10000 ≤ u.now := by subst hu; simp only [State.tick]; omega
  have uc : u.lcdChip = s.lcdChip := by subst hu; rfl
  have ut : u.trace = s.trace := by subst hu; rfl
  have uo : u.insideInit = true := by
    subst hu; simp only [State.insideInit, State.tick_busOwner, hb, decide_true, Bool.true_or]
  have uf : (u.inputs.at 0).foreign = none := by rw [ui]; simpa using h1f
  have uok : (u.inputs.at 0).ok = true := by rw [ui]; simpa using h1o
  have uonly : s.LcdOnly u := by subst hu; exact rfl
  have hk0 : (u.tick 0).ctl = s.ctl := by
    rw [State.tick_ctl, uk, Controller.settle_defined h.defined]
  have hq2 : configureDirection s.params.lcdAddr 0 u = .done ()
      (((u.tick 0).record (.w s.params.lcdAddr [s.params.regDir, 0]) false).chipWrite .lcd .dir 0 (u.inputs.at 0)) := by
    simp only [configureDirection, up, chipAt_lcd, uo, if_true, busWriteCall, regAt_dir h.params, primitive_alone uf,
      Ran.done_andThen, uok, Bool.not_true, Bool.true_or]
  have hctl : (((u.tick 0).record (.w s.params.lcdAddr [s.params.regDir, 0]) false).chipWrite .lcd .dir 0
      (u.inputs.at 0)).ctl = { s.ctl with lcd := s.ctl.lcd.see (u.tick 0).now (Lines.mk false
        (s.lcdChip.out.getLsbD s.params.pinRS) (dataNibble s.params s.lcdChip.out)) } := by
    have hl := lcdLines_outputs s.params s.lcdChip.out (u.inputs.at 0) s.ctl.lcd.en
    rw [h.enableLow] at hl
    simp only [State.chipWrite, State.record_ctl, hk0, State.record_now, State.record_params, State.tick_params, up,
      State.record_lcdChip, State.tick_lcdChip, uc, Chip.set]
    rw [show (0 : Byte) = 0#8 from rfl, hl]
    exact sample_low h.defined h.viewEn _ _ rfl
  generalize hv : ((u.tick 0).record (.w s.params.lcdAddr [s.params.regDir, 0]) false).chipWrite .lcd .dir 0
    (u.inputs.at 0) = v at hq2 hctl
  have vp : v.params = s.params := by subst hv; exact up
  have vn : v.now = (u.tick 0).now := by subst hv; rfl
  have vn' : s.now + 10000 ≤ v.now := by rw [vn, State.tick_now]; omega
  have vc : v.lcdChip = { s.lcdChip with dir := 0 } := by subst hv; simp [State.chipWrite, Chip.set, uc]
  have vt : v.trace = s.trace ++ [{ call := .w s.params.lcdAddr [s.params.regDir, 0], err := false, time := v.now }] := by
    subst hv; simp [ut]
  have vi : v.inputs = s.inputs.drop 2 := by subst hv; simp [ui, Inputs.rest_eq_drop]
  have vonly : s.LcdOnly v := uonly.trans (by subst hv; simp [State.LcdOnly, State.chipWrite, State.tick, State.record])
  refine ⟨v.enterPhase .pinsConfigured, ?_, ?_, vi, vn', vc, ?_, ?_, ?_⟩
  · rw [initStep1, q1, Ran.done_andThen, up, hq2]; rfl
  · exact vonly.enterPhase _
  · exact ⟨_, vt, rfl, by simp [BusCall.target]⟩
  · have hb := h.busy
    refine
      { params := by show v.params.distinct; rw [vp]; exact h.params
        outputs := by show v.lcdChip.dir = 0; rw [vc]
        enableLow := by show v.lcdChip.out.getLsbD v.params.pinEN = false; rw [vc, vp]; exact h.enableLow
        viewEn := by show v.ctl.lcd.en = false; rw [hctl]; rfl
        viewRs := by show v.ctl.lcd.rs = v.lcdChip.out.getLsbD v.params.pinRS; rw [hctl, vc, vp]; rfl
        viewDb := by show v.ctl.lcd.db = dataNibble v.params v.lcdChip.out; rw [hctl, vc, vp]; rfl
        lines := ?_
        cycle := ?_
        defined := by show v.ctl.undefined = false; rw [hctl]; exact h.defined
        busy := ?_ }
    · show v.ctl.lcd.tLines ≤ v.now
      rw [hctl]
      exact ite_le_of (by omega) (by have := h.lines; omega)
    · intro tr htr
      have htr' : v.ctl.lcd.tRise = some tr := htr
      rw [hctl] at htr'
      have := h.cycle tr htr'
      show tr + Config.T_CYC ≤ v.now
      omega
    · show v.ctl.lcd.busyUntil ≤ v.now
      rw [hctl]
      show s.ctl.lcd.busyUntil ≤ v.now
      omega
  · show { v.ctl.view with afterInit := false } = _
    rw [hctl]; rfl

/-! ## Step 2 (R702) -/

/-- The Function set that an 8-bit nibble 0x2 makes, with the drawn low bits (R504). -/
theorem decode_initNibble (lo : Nibble) : decodeCmd (busWord false (nibblePair 0x2 lo)) =
    .functionSet false (lo.getLsbD 3) (lo.getLsbD 2) (lo.extractLsb' 0 2) := by
  revert lo; decide

/-- The init-only nibble takes a controller whose init is not over to 4-bit mode. -/
theorem initStep2_settled {s : State} (hs : s.Settled) (h8 : s.ctl.lcd.dl = .eight) (hi : s.ctl.afterInit = false)
    (hq : s.inputs.Quiet 11) :
    ∃ t, initStep2 s = .done () t ∧ ({ s with lcdPhase := .functionSetPhase1 } : State).LcdOnly t ∧
      t.inputs = s.inputs.drop 11 ∧ t.now = s.now + 540 + s.inputs.spent 11 ∧ lowered t = lowered s ∧
      s.Issued t s.params.lcdAddr 8 ∧ t.Settled ∧ t.FourBit ∧
      t.ctl.view = { s.ctl.view with lcd := { s.ctl.view.lcd with
        dl := .four, n := (s.inputs.at 9).lo.getLsbD 3, f := (s.inputs.at 9).lo.getLsbD 2 } } := by
  have hn := writeNibble_settled hs false 0x2 hq
  generalize hc : decodeCmd (busWord false (nibblePair 0x2 (s.inputs.at 9).lo)) = c
  have ht : (pulsed s false 0x2).transfer (fallAt s) (s.inputs.at 9).lo false 0x2 =
      (pulsed s false 0x2).run (fallAt s) c := by
    have h1 : (pulsed s false 0x2).lcd.dl = .eight := h8
    rw [Controller.transfer, h1]
    simp only [Controller.execute, hc]
  rw [decode_initNibble] at hc
  subst hc
  have he : cmdEffect (.functionSet false ((s.inputs.at 9).lo.getLsbD 3) ((s.inputs.at 9).lo.getLsbD 2)
      ((s.inputs.at 9).lo.extractLsb' 0 2)) (pulsed s false 0x2) =
      { pulsed s false 0x2 with lcd := { (pulsed s false 0x2).lcd with
        dl := .four, n := (s.inputs.at 9).lo.getLsbD 3, f := (s.inputs.at 9).lo.getLsbD 2, phase := .hi } } := by
    have h1 : (pulsed s false 0x2).lcd.dl = .eight := h8
    have h2 : (pulsed s false 0x2).afterInit = false := hi
    simp only [cmdEffect, cmdFunctionSet, h1, h2]
    rfl
  have hl : latched s false 0x2 = relined false 0x2
      { pulsed s false 0x2 with lcd := { (pulsed s false 0x2).lcd with
        dl := .four, n := (s.inputs.at 9).lo.getLsbD 3, f := (s.inputs.at 9).lo.getLsbD 2, phase := .hi
        busyUntil := fallAt s + Config.T_EXEC } } := by
    rw [latched, ht, Controller.run, he]; rfl
  have hd : (latched s false 0x2).undefined = false := by rw [hl]; exact hs.defined
  have hk := nibbleState_ctl false 0x2 hd
  have hw := nibbleState_wired hs false 0x2 hd
  have hsp := spent_mono s.inputs (show 10 ≤ 11 by omega)
  refine ⟨(nibbleState s false 0x2).enterPhase .functionSetPhase1, ?_, rfl, rfl, rfl, ?_, ?_, ?_, ?_, ?_⟩
  · rw [initStep2, hn]; rfl
  · exact lowered_asserted false 0x2
  · exact ⟨nibbleTrace s false 0x2, rfl, rfl, nibbleTrace_issued s _ _⟩
  · refine { toWired := hw.enterPhase _, busy := ?_ }
    show (nibbleState s false 0x2).ctl.lcd.busyUntil ≤ s.now + 540 + s.inputs.spent 11
    rw [hk, hl]
    show fallAt s + Config.T_EXEC ≤ _
    simp only [fallAt, Config.T_AS, Config.T_PW, Config.T_EXEC]; omega
  · constructor
    · show (nibbleState s false 0x2).ctl.lcd.dl = .four
      rw [hk, hl]; rfl
    · show (nibbleState s false 0x2).ctl.lcd.phase = .hi
      rw [hk, hl]; rfl
  · show { (nibbleState s false 0x2).ctl.view with afterInit := false } = _
    rw [hk, hl]
    show Controller.mk _ _ _ _ false = Controller.mk _ _ _ _ s.ctl.afterInit
    rw [hi]; rfl

/-- Function set in 4-bit mode with L = 0, while init is not over (R515). -/
theorem effect_functionSet {k : Controller} (h : k.lcd.dl = .four) (hi : k.afterInit = false) (n f : Bool) (x : BitVec 2) :
    cmdEffect (.functionSet false n f x) k = { k with lcd := { k.lcd with n := n, f := f } } := by
  simp [cmdEffect, cmdFunctionSet, h, hi]

/-! ## Steps 3 to 5 (R703 to R705) -/

/-- A step that sends a command which sets no mark, and moves the phase. -/
theorem initCommand {s : State} (hs : s.Settled) (hf : s.FourBit) (hq : s.inputs.Quiet 22) {b : Byte}
    (hd : (cmdEffect (decodeCmd (busWord false b)) s.ctl).undefined = false)
    (hx : execTime (decodeCmd (busWord false b)) = Config.T_EXEC) (p : LcdPhase) :
    ∃ t, ((sendCommand b s).andThen fun _ s => .done () (s.enterPhase p)) = .done () t ∧
      ({ s with lcdPhase := p } : State).LcdOnly t ∧ t.inputs = s.inputs.drop 22 ∧ s.now + 1080 ≤ t.now ∧
      t.lcdChip = { out := lowered s ||| assertMask s.params false (loNibble b), dir := 0 } ∧ lowered t = lowered s ∧
      s.Issued t s.params.lcdAddr 16 ∧ t.Settled ∧ t.FourBit ∧
      t.ctl.view = { (cmdEffect (decodeCmd (busWord false b)) s.ctl).view with afterInit := p == LcdPhase.ready } := by
  obtain ⟨t, h1, h2, h3, h4, h5, h6, h7, h8, h9⟩ := sendByte_defined hs hf hq hd hx
  obtain ⟨t', g1, -, -, -, g5, -⟩ := sendByte_settled hs hf hq false b rfl
  have htt : t' = t := by rw [h1] at g1; cases g1; rfl
  subst htt
  refine ⟨t'.enterPhase p, ?_, ?_, h3, ?_, g5, h5, h6, h7.enterPhase p, h8, ?_⟩
  · show ((sendByte false b s).andThen _) = _
    rw [h1]; rfl
  · exact h2.enterPhase p
  · show s.now + 1080 ≤ t'.now
    omega
  · show { t'.ctl.view with afterInit := p == LcdPhase.ready } = _
    rw [h9]

/-! ## `init` (R706) -/

/-- What `lcd.init`'s transfers leave, from a cold controller. -/
theorem lcdInitBody_cold {s : State} (h : s.ColdInterface) (ho : s.busOwner = some .lcdInit)
    (hq : s.inputs.Quiet 79) :
    ∃ t, lcdInitBody s = .done () t ∧ ({ s with lcdPhase := .ready } : State).LcdOnly t ∧
      t.inputs = s.inputs.drop 79 ∧ s.now + 13780 ≤ t.now ∧
      t.lcdChip = { out := lowered s ||| dataMask s.params 0x6, dir := 0 } ∧
      s.Issued t s.params.lcdAddr 57 ∧ t.Settled ∧ t.FourBit ∧
      t.ctl.lcd.screen = { s.ctl.lcd.screen with
        dl := .four, n := true, f := false, d := true, c := s.params.cursorOn, b := s.params.blinkOn
        id := true, s := false } := by
  obtain ⟨t1, a1, a2, a3, a4, a5, a6, a7, a8⟩ := initStep1_cold h ho (hq.mono (by omega))
  have e1 : t1.ctl.lcd.dl = .eight := by
    have := congrArg (fun k => k.lcd.dl) a8
    exact this.trans h.eightBit
  have p1 : t1.params = s.params := a2.params
  have l1 : lowered t1 = lowered s := by rw [lowered, lowered, a5, p1]
  have g1 : t1.ctl.afterInit = false := congrArg Controller.afterInit a8
  obtain ⟨t2, b1, b2, b3, b4, b5, b6, b7, b8, b9⟩ :=
    initStep2_settled a7 e1 g1 (by rw [a3]; exact hq.drop 2 (by omega))
  have p2 : t2.params = s.params := b2.params.trans p1
  have i2 : t2.inputs = s.inputs.drop 13 := by rw [b3, a3, Inputs.drop_drop]
  have g2 : t2.ctl.afterInit = false := (congrArg Controller.afterInit b9).trans g1
  have k2 := effect_functionSet b8.1 g2 true false 0
  obtain ⟨t3, c1, c2, c3, c4, -, c6, c7, c8, c9, c10⟩ :=
    initCommand b7 b8 (by rw [i2]; exact hq.drop 13 (by omega)) (b := functionSetByte)
      (by rw [decode_functionSet, k2]; exact b7.defined) rfl .functionSetPhase2
  have p3 : t3.params = s.params := c2.params.trans p2
  have i3 : t3.inputs = s.inputs.drop 35 := by rw [c3, i2, Inputs.drop_drop]
  obtain ⟨t4, d1, d2, d3, d4, -, d6, d7, d8, d9, d10⟩ :=
    initCommand c8 c9 (by rw [i3]; exact hq.drop 35 (by omega)) ((tame_display t3.params true).1 _ c9.1 |>.trans c8.defined)
      (tame_display t3.params true).2 .displayOnCursorConfigured
  have p4 : t4.params = s.params := d2.params.trans p3
  have i4 : t4.inputs = s.inputs.drop 57 := by rw [d3, i3, Inputs.drop_drop]
  obtain ⟨t5, f1, f2, f3, f4, f5, f6, f7, f8, f9, f10⟩ :=
    initCommand d8 d9 (by rw [i4]; exact hq.drop 57 (by omega)) (tame_entryMode.1 _ d9.1 |>.trans d8.defined)
      tame_entryMode.2 .ready
  refine ⟨t5, ?_, ?_, ?_, by omega, ?_, ?_, f8, f9, ?_⟩
  · have c1' : initStep3 t2 = .done () t3 := c1
    have d1' : initStep4 t3 = .done () t4 := d1
    have f1' : initStep5 t4 = .done () t5 := f1
    rw [lcdInitBody, a1, Ran.done_andThen, b1, Ran.done_andThen, c1', Ran.done_andThen, d1', Ran.done_andThen, f1']
  · rw [State.LcdOnly] at a2 b2 c2 d2 f2 ⊢
    rw [f2, d2, c2, b2, a2]
  · rw [f3, i4, Inputs.drop_drop]
  · rw [f5, d6, c6, b5, l1, p4]
    show Chip.mk (lowered s ||| (maskIf false s.params.pinRS ||| dataMask s.params (loNibble entryModeByte))) 0 = _
    rw [show loNibble entryModeByte = 0x6#4 from rfl, maskIf]
    simp
  · have b6' : t1.Issued t2 s.params.lcdAddr 8 := by rw [← p1]; exact b6
    have c7' : t2.Issued t3 s.params.lcdAddr 16 := by rw [← p2]; exact c7
    have d7' : t3.Issued t4 s.params.lcdAddr 16 := by rw [← p3]; exact d7
    have f7' : t4.Issued t5 s.params.lcdAddr 16 := by rw [← p4]; exact f7
    exact (((a6.trans b6').trans c7').trans d7').trans f7'
  · have v5 := congrArg Controller.lcd f10
    have v4 := congrArg Controller.lcd d10
    have v3 := congrArg Controller.lcd c10
    have v2 := congrArg Controller.lcd b9
    have v1 : t1.ctl.lcd.screen = s.ctl.lcd.screen := congrArg Controller.lcd a8
    rw [decode_functionSet, k2] at v3
    rw [decode_display, p3] at v4
    rw [decode_entryMode] at v5
    have w5 : t5.ctl.lcd.screen = { t4.ctl.lcd.screen with id := true, s := false } := v5
    have w4 : t4.ctl.lcd.screen =
        { t3.ctl.lcd.screen with d := true, c := s.params.cursorOn, b := s.params.blinkOn } := v4
    have w3 : t3.ctl.lcd.screen = { t2.ctl.lcd.screen with n := true, f := false } := v3
    have w2 : t2.ctl.lcd.screen = { t1.ctl.lcd.screen with
        dl := .four, n := (t1.inputs.at 9).lo.getLsbD 3, f := (t1.inputs.at 9).lo.getLsbD 2 } := v2
    rw [w5, w4, w3, w2, v1]

end Sys2Proof.Machine
end

