-- ==== Sys2Proof/Laws/Machine.lean ====
section
/-! SUPPORT. What an instruction and a step can do, said once: a relation closed under the primitives is closed under
every instruction and every step. -/

namespace Sys2Proof.Machine

open Sys2Proof

/-- Relations closed under what an instruction does around its primitives: `D` and `S` as in `Closed`, and `E` between
the state before an instruction and the state it leaves. -/
structure ClosedExec (C : ChipId → Prop) (D S E : State → State → Prop) : Prop extends Closed C D S where
  clear : ∀ s : State, D s { s with ret := none }
  ret : ∀ (s : State) v, D s { s with ret := some v }
  held : ∀ {s t} op, D (State.hold op s) t → D s t.release
  heldStop : ∀ {s t} op, S (State.hold op s) t → S s t
  done : ∀ {s t}, D s t → E s t
  stop : ∀ {s t}, S s t → E s t
  scanned : ∀ {s t : State} ks,
    D (State.hold .keypadScan { s with ret := none, scanning := none }) t → E s (afterPass ks t)
  scanStopped : ∀ {s t : State}, S (State.hold .keypadScan { s with ret := none, scanning := none }) t → E s t

section
variable {C : ChipId → Prop} {D S E : State → State → Prop} (h : ClosedExec C D S E)
include h

theorem ClosedExec.finish {r : Ran RetVal} {s : State} (hr : r.Goes D S s) : E s r.finish := by
  cases r with
  | done v t => exact h.done (h.trans hr (h.ret t v))
  | stopped t => exact h.stop hr

/-- `complete` runs its operation from the same state with no value returned yet. -/
theorem ClosedExec.completeFrom {op : State → Ran RetVal} {s t : State}
    (ho : (op { s with ret := none }).Goes D S { s with ret := none }) (e : complete op s = .next t) : E s t := by
  unfold Machine.complete at e
  cases e
  split
  · exact h.done (h.refl s)
  · exact h.finish (h.toClosed.before (h.clear s) ho)

theorem ClosedExec.complete {op : State → Ran RetVal} (ho : ∀ s, (op s).Goes D S s) {s t : State}
    (e : complete op s = .next t) : E s t := h.completeFrom (ho _) e

theorem ClosedExec.unitOp {op : State → Ran Unit} {s : State} (ho : (op s).Goes D S s) : (unitOp op s).Goes D S s :=
  h.toClosed.andThen ho fun _ t _ => h.refl t

theorem ClosedExec.holding {α : Type} {op : PublicOp} {body : State → Ran α} {s : State}
    (hb : (body (s.hold op)).Goes D S (s.hold op)) : (holding op body s).Goes D S s := by
  unfold Machine.holding
  cases hr : body (s.hold op) with
  | done v t => rw [hr] at hb; exact h.held op hb
  | stopped t => rw [hr] at hb; exact h.heldStop op hb

theorem ClosedExec.lcdOp {op : PublicOp} {body : State → Ran Unit} (hb : ∀ s, (body s).Goes D S s) {s t : State}
    (e : lcdOp op body s = .next t) : E s t := by
  refine h.complete (fun u => h.unitOp ?_) e
  unfold whenLcdReady
  split
  · exact h.holding (hb _)
  · exact h.refused u _

/-- The two transport calls alone, where the relation also allows a failed call (its entry marked `err`). -/
theorem ClosedExec.transport (hC : ∀ c, C c) (raw : ∀ s b e, D s ((s.tick 0).record b e))
    (rawWrote : ∀ s c b e r v, C c → D s (((s.tick 0).record b e).chipWrite c r v (s.inputs.at 0))) {i : Instr}
    {s t : State} (hi : (∃ a reg v, i = .busWrite a reg v) ∨ (∃ a reg, i = .busWriteRead a reg))
    (e : exec i s = .next t) : E s t := by
  have hw : ∀ a reg v s, (busWriteCall none a reg v s).Goes D S s := by
    intro a reg v s
    unfold busWriteCall
    split
    · refine h.primitive _ 0 _ s fun u hu => ?_
      dsimp only
      split
      · exact rawWrote u _ _ _ _ v (hC _)
      · exact raw u _ _
    · exact h.refused s _
  have hr : ∀ a reg s, (busReadCall a reg s).Goes D S s := by
    intro a reg s
    unfold busReadCall
    split
    · exact h.primitive _ 0 _ s fun u hu => raw u _ _
    · exact h.refused s _
  rcases hi with ⟨a, reg, v, rfl⟩ | ⟨a, reg, rfl⟩
  · refine h.complete (op := fun s => (busWriteCall none a reg v s).andThen fun ok s => .done (.transport ok) s)
      (fun u => ?_) e
    exact h.toClosed.andThen (hw a reg v u) fun _ t _ => h.refl t
  · refine h.complete (op := fun s => (busReadCall a reg s).andThen fun r s => .done (.transportRead r) s)
      (fun u => ?_) e
    exact h.toClosed.andThen (hr a reg u) fun _ t _ => h.refl t

/-- The register operations and the delays. -/
theorem ClosedExec.bus (hC : ∀ c, C c) {i : Instr} {s t : State}
    (hi : (∃ a, i = .read a) ∨ (∃ a v, i = .write a v) ∨ (∃ a m, i = .setBits a m) ∨ (∃ a m, i = .clearBits a m) ∨
      (∃ a m, i = .configureDirection a m) ∨ ∃ u d, i = .delay u d) (e : exec i s = .next t) : E s t := by
  have hc : ∀ (u : State) (a : BusAddr) c, chipAt u.params a = some c → C c := fun _ _ c _ => hC c
  rcases hi with ⟨a, rfl⟩ | ⟨a, v, rfl⟩ | ⟨a, m, rfl⟩ | ⟨a, m, rfl⟩ | ⟨a, m, rfl⟩ | ⟨u, d, rfl⟩
  · refine h.complete (op := fun s => (Machine.regRead a s).andThen fun v s => .done (.byte v) s) (fun u => ?_) e
    exact h.toClosed.andThen (h.regRead a u) fun _ t _ => h.refl t
  · exact h.complete (fun u => h.unitOp (h.regWrite _ a v u (hc u a))) e
  · exact h.complete (fun u => h.unitOp (h.setBits a m u (hc u a))) e
  · exact h.complete (fun u => h.unitOp (h.clearBits a m u (hc u a))) e
  · exact h.complete (fun u => h.unitOp (h.configureDirection a m u (hc u a))) e
  · cases u
    · exact h.complete (fun w => h.unitOp (h.delayUs d w)) e
    · exact h.complete (fun w => h.unitOp (h.delayUs _ w)) e

/-- The LCD driver's instructions other than the two that initialise. -/
theorem ClosedExec.lcd (hl : C .lcd) {i : Instr} {s t : State}
    (hi : i ∈ [Instr.lcdPowerOn, .lcdPowerOff, .lcdDisplayGreeting, .lcdClearDisplay, .lcdNewline] ∨
        (∃ x, i = .lcdWriteString x) ∨ (∃ v, i = .lcdWriteU32 v) ∨ (∃ v, i = .lcdWriteU8 v) ∨
        (∃ k, i = .lcdBackspace k) ∨ (∃ d k, i = .lcdShiftCursor d k) ∨ (∃ c, i = .lcdWriteChar c) ∨
        (∃ rs n, i = .writeNibble rs n) ∨ (∃ rs b, i = .sendByte rs b) ∨ (∃ b, i = .sendCommand b) ∨
        (∃ b, i = .sendData b)) (e : exec i s = .next t) : E s t := by
  have whenReady : ∀ {op : State → Ran Unit} (_ : ∀ s, (op s).Goes D S s) (s : State),
      (whenLcdReady op s).Goes D S s := by
    intro op ho s
    unfold whenLcdReady
    split
    · exact ho s
    · exact h.refused s _
  have whenOut : ∀ {op : State → Ran Unit} (_ : ∀ s, (op s).Goes D S s) (s : State),
      (whenPinsOutputs op s).Goes D S s := by
    intro op ho s
    unfold whenPinsOutputs
    split
    · exact h.refused s _
    · exact ho s
  have hbyte := h.toClosed.sendByte hl
  rcases hi with hi | ⟨x, rfl⟩ | ⟨v, rfl⟩ | ⟨v, rfl⟩ | ⟨k, rfl⟩ | ⟨d, k, rfl⟩ | ⟨c, rfl⟩ | ⟨rs, n, rfl⟩ | ⟨rs, b, rfl⟩ |
    ⟨b, rfl⟩ | ⟨b, rfl⟩
  · simp only [List.mem_cons, List.not_mem_nil, or_false] at hi
    rcases hi with rfl | rfl | rfl | rfl | rfl
    · exact h.lcdOp (fun u => hbyte _ _ u) e
    · exact h.lcdOp (fun u => hbyte _ _ u) e
    · exact h.lcdOp (h.greetingBody hl) e
    · exact h.lcdOp (h.clearDisplayBody hl) e
    · exact h.complete (fun u => h.unitOp (whenReady (fun w => hbyte _ _ w) u)) e
  · exact h.lcdOp (h.writeStringBody hl x) e
  · exact h.lcdOp (h.writeDigits hl _) e
  · exact h.lcdOp (h.writeDigits hl _) e
  · exact h.lcdOp (h.backspaceBody hl k) e
  · exact h.lcdOp (h.shiftCursorBody hl d k) e
  · exact h.complete (fun u => h.unitOp (whenReady (fun w => hbyte _ _ w) u)) e
  · exact h.complete (fun u => h.unitOp (whenOut (h.writeNibble hl rs n) u)) e
  · exact h.complete (fun u => h.unitOp (whenOut (hbyte rs b) u)) e
  · exact h.complete (fun u => h.unitOp (whenOut (hbyte _ _) u)) e
  · exact h.complete (fun u => h.unitOp (whenOut (hbyte _ _) u)) e

/-- The two instructions that move `lcd_phase`. -/
theorem ClosedExec.lcdInit (hl : C .lcd) (hp : ∀ (s : State) p, D s (s.enterPhase p)) {i : Instr} {s t : State}
    (hi : i = .lcdInit ∨ i = .initNibble8bit) (e : exec i s = .next t) : E s t := by
  rcases hi with rfl | rfl
  · refine h.complete (fun u => h.unitOp ?_) e
    split
    · exact h.holding (h.lcdInitBody hl hp _)
    · exact h.refused u _
  · refine h.complete (fun u => h.unitOp ?_) e
    split
    · exact h.initStep2 hl hp u
    · split
      · exact h.refused u _
      · exact h.refused u _

/-- The keypad's instructions other than its init, from a state where calls to the keypad chip are allowed. -/
theorem ClosedExec.keypad {i : Instr} {s t : State} (hk : ∀ c, chipAt s.params s.params.kpAddr = some c → C c)
    (hi : i ∈ [Instr.keypadReadRows, .keypadRawScan, .keypadScan, .keypadScanSet] ∨ ∃ c, i = .keypadDriveColumn c)
    (e : exec i s = .next t) : E s t := by
  rcases hi with hi | ⟨c, rfl⟩
  · simp only [List.mem_cons, List.not_mem_nil, or_false] at hi
    rcases hi with rfl | rfl | rfl | rfl
    · refine h.completeFrom (op := fun s => (Machine.readRows s).andThen fun rs s => .done (.rows rs) s) ?_ e
      exact h.toClosed.andThen (h.readRows _) fun _ t _ => h.refl t
    · refine h.completeFrom (op := fun s => (Machine.rawScan s).andThen fun ks s => .done (.keys ks) s) ?_ e
      exact h.toClosed.andThen (h.sweep columns hk) fun _ t _ => h.refl t
    · have e' : Host.Outcome.next (if s.stopped then s
          else if s.kpPhase = .ready then scanFirst { s with ret := none, scanning := none }
          else ({ s with ret := none } : State).refuse .notReady) = Host.Outcome.next t := e
      cases e'
      split
      · exact h.done (h.refl s)
      · split
        · have hg := h.sweep columns (s := State.hold .keypadScan { s with ret := none, scanning := none }) hk
          unfold scanFirst passState rawScan
          split
          · next ks v hv => rw [hv] at hg; exact h.scanned ks hg
          · next v hv => rw [hv] at hg; exact h.scanStopped hg
        · exact h.stop (h.transS (h.clear s) (h.refused _ _))
    · refine h.completeFrom (op := fun s => if s.kpPhase = .ready then Machine.holding .keypadScanSet scanSetBody s
        else refuse .notReady s) ?_ e
      dsimp only
      split
      · refine h.holding ?_
        exact h.toClosed.andThen (h.sweep columns hk) fun _ v _ => h.refl v
      · exact h.refused _ _
  · exact h.completeFrom (h.unitOp (h.driveColumn c hk)) e

theorem ClosedExec.keypadInit (hp : ∀ (s : State) p, D s { s with kpPhase := p }) {s t : State}
    (hk : ∀ c, chipAt s.params s.params.kpAddr = some c → C c) (e : exec .keypadInit s = .next t) : E s t := by
  refine h.completeFrom (h.unitOp ?_) e
  split
  · exact h.holding (h.keypadInitBody hp hk)
  · exact h.refused _ _

end

/-- Every instruction, from what the primitives do; the bare transport calls, the controller's words and the moves of
the phases on their own. -/
theorem exec_closed {D S E : State → State → Prop} (h : ClosedExec (fun _ => True) D S E) {i : Instr} {s t : State}
    (hraw : (∃ a reg v, i = .busWrite a reg v) ∨ (∃ a reg, i = .busWriteRead a reg) → E s t)
    (hcmd : ∀ c, E s (State.command c s))
    (hl : i = .lcdInit ∨ i = .initNibble8bit → ∀ (s : State) p, D s (s.enterPhase p))
    (hk : i = .keypadInit → ∀ (s : State) p, D s { s with kpPhase := p })
    (e : exec i s = .next t) : E s t := by
  cases i <;> first
    | (cases e; exact hcmd _)
    | (refine hraw ?_; simp; done)
    | (refine h.bus (fun _ => trivial) ?_ e; simp; done)
    | (refine h.lcd trivial ?_ e; simp; done)
    | (refine h.keypad (fun _ _ => trivial) ?_ e; simp; done)
    | exact h.lcdInit trivial (hl (.inl rfl)) (.inl rfl) e
    | exact h.lcdInit trivial (hl (.inr rfl)) (.inr rfl) e
    | exact h.keypadInit (hk rfl) (fun _ _ => trivial) e

/-! ## A round of a debounced scan (R808) -/

theorem Closed.rescan {C : ChipId → Prop} {D S E : State → State → Prop} (h : Closed C D S) {s : State}
    (hk : ∀ c, chipAt s.params s.params.kpAddr = some c → C c) (done : ∀ ks t, D s t → E s (afterPass ks t))
    (stop : ∀ t, S s t → E s t) : E s (rescan s) := by
  have hd := h.delayUs Config.T_DEBOUNCE s
  have hg := h.andThen hd fun _ t ht => h.sweep columns (s := t) (by rw [h.params_done hd ht]; exact hk)
  unfold Machine.rescan passState rawScan
  split
  · next ks v hv => rw [hv] at hg; exact done ks v hg
  · next v hv => rw [hv] at hg; exact stop v hg

/-- A relation closed under everything a step does, `D`, `S` and `E` at once. -/
structure ClosedStep (R : State → State → Prop) : Prop extends Closed (fun _ => True) R R where
  raw : ∀ s b e, R s ((s.tick 0).record b e)
  rawWrote : ∀ s c b e r v, R s (((s.tick 0).record b e).chipWrite c r v (s.inputs.at 0))
  marks : ∀ (s : State) v o k, R s { s with ret := v, busOwner := o, scanning := k }
  command : ∀ s c, R s (State.command c s)
  lcdPhase : ∀ (s : State) p, R s (s.enterPhase p)
  kpPhase : ∀ (s : State) p, R s { s with kpPhase := p }
  calls : ∀ (s : State) cs, R s { s with calls := cs }
  beat : ∀ s : State, R s s.heartbeat
  restart : ∀ s : State, R s s.restart

section
variable {R : State → State → Prop} (h : ClosedStep R)
include h

theorem ClosedStep.afterPass (ks : List Key) (s : State) : R s (afterPass ks s) := by
  unfold Machine.afterPass
  split
  · exact h.marks s _ _ _
  · exact h.marks s s.ret s.busOwner _
  · exact h.marks s _ _ _
  · exact h.refl s

theorem ClosedStep.exec : ClosedExec (fun _ => True) R R R where
  toClosed := h.toClosed
  clear s := h.marks s none s.busOwner s.scanning
  ret s v := h.marks s (some v) s.busOwner s.scanning
  held {s t} op ht := h.trans (h.marks s s.ret (some op) s.scanning) (h.trans ht (h.marks t t.ret none t.scanning))
  heldStop {s _} op ht := h.trans (h.marks s s.ret (some op) s.scanning) ht
  done ht := ht
  stop ht := ht
  scanned {s t} ks ht := h.trans (h.marks s none (some .keypadScan) none) (h.trans ht (h.afterPass ks t))
  scanStopped {s _} ht := h.trans (h.marks s none (some .keypadScan) none) ht

theorem step_closed {s t : State} (e : step s = .next t) : R s t := by
  unfold step at e
  split at e
  · cases e
  · split at e
    · next code hf =>
      unfold panicStep at e
      split at e
      · cases e; exact h.restart s
      · split at e
        · cases e; exact h.beat s
        · cases e
    · split at e
      · cases e
        exact h.toClosed.rescan (E := R) (fun _ _ => trivial) (fun ks t ht => h.trans ht (h.afterPass ks t)) fun _ ht => ht
      · split at e
        · cases e
          unfold idleStep
          split
          · exact h.beat s
          · next f hf => exact h.trans (h.foreign s f hf) (h.beat _)
        · cases e
        · next i u hf =>
          have hu : R s u := by
            unfold State.fetch at hf
            split at hf
            · cases hf
            · simp only [Option.some.injEq, Prod.mk.injEq] at hf
              rw [← hf.2]
              exact h.calls s _
          exact h.trans hu (exec_closed h.exec
            (fun hi => h.exec.transport (fun _ => trivial) h.raw (fun s c b e r v _ => h.rawWrote s c b e r v) hi e)
            (h.command _) (fun _ => h.lcdPhase) (fun _ => h.kpPhase) e)

end

end Sys2Proof.Machine
end

