-- ==== Sys2Proof/Laws/Invariants.lean ====
section
/-! SUPPORT. The controller's invariants through a sample of its lines: the sticky mark (R123), and DDRAM's canonical
form, and the mark of a finished init, which no sample writes. -/

namespace Sys2Proof.Machine

open Sys2Proof

/-! ## LCD_UNDEFINED is never cleared -/

theorem transfer_sticky (t : Nat) (lo : Nibble) (r : Bool) (n : Nibble) {k : Controller} (h : k.undefined = true) :
    (k.transfer t lo r n).undefined = true := by
  simp only [Controller.transfer, Controller.execute, Controller.run]
  split
  · exact cmdEffect_sticky _ h
  · split
    · exact h
    · split
      · exact cmdEffect_sticky _ h
      · rfl

theorem edge_sticky (t : Nat) (lo : Nibble) (en : Bool) {k : Controller} (h : k.undefined = true) :
    (k.edge t lo en).undefined = true := by
  unfold Controller.edge
  split
  · simp [Controller.rise, h]
  · split
    · exact transfer_sticky _ _ _ _ (by simp [h])
    · exact h

theorem sample_sticky (t : Nat) (lo : Nibble) (l : Lines) {k : Controller} (h : k.undefined = true) :
    (k.sample t lo l).undefined = true := by
  unfold Controller.sample
  rw [Controller.settle_undefined]
  exact edge_sticky _ _ _ (by simp [h])

theorem chipWrite_sticky {s : State} (h : s.ctl.undefined = true) (c : ChipId) (r : ChipReg) (v : Byte) (d : Draw) :
    (s.chipWrite c r v d).ctl.undefined = true := by
  cases c
  · exact sample_sticky _ _ _ h
  · exact h

theorem foreignCall_sticky {s : State} (h : s.ctl.undefined = true) (f : ForeignCall) (d : Draw) :
    (s.foreignCall f d).ctl.undefined = true := by
  unfold State.foreignCall
  split
  · exact h
  · split
    · exact chipWrite_sticky h _ _ _ _
    · exact h

/-! ## DDRAM's canonical form -/

theorem settle_wf {k : Controller} (h : Memory.wf k.lcd.ddram) : Memory.wf k.settle.lcd.ddram := by
  unfold Controller.settle
  split
  · exact List.Pairwise.nil
  · exact h

theorem transfer_wf (t : Nat) (lo : Nibble) (r : Bool) (n : Nibble) {k : Controller} (h : Memory.wf k.lcd.ddram) :
    Memory.wf (k.transfer t lo r n).lcd.ddram := by
  simp only [Controller.transfer, Controller.execute, Controller.run]
  split
  · exact cmdEffect_wf _ h
  · split
    · exact h
    · split
      · exact cmdEffect_wf _ h
      · exact h

theorem edge_wf (t : Nat) (lo : Nibble) (en : Bool) {k : Controller} (h : Memory.wf k.lcd.ddram) :
    Memory.wf (k.edge t lo en).lcd.ddram := by
  unfold Controller.edge
  split
  · exact h
  · split
    · exact transfer_wf _ _ _ _ h
    · exact h

theorem sample_wf (t : Nat) (lo : Nibble) (l : Lines) {k : Controller} (h : Memory.wf k.lcd.ddram) :
    Memory.wf (k.sample t lo l).lcd.ddram := by
  unfold Controller.sample
  refine settle_wf ?_
  exact edge_wf t lo l.en h

theorem chipWrite_wf {s : State} (h : s.DdramWf) (c : ChipId) (r : ChipReg) (v : Byte) (d : Draw) :
    (s.chipWrite c r v d).DdramWf := by
  cases c
  · exact sample_wf _ _ _ h
  · exact h

theorem foreignCall_wf {s : State} (h : s.DdramWf) (f : ForeignCall) (d : Draw) : (s.foreignCall f d).DdramWf := by
  unfold State.foreignCall
  split
  · exact h
  · split
    · exact chipWrite_wf h _ _ _ _
    · exact h

/-! ## The mark of a finished init (log entry 16) -/

@[simp] theorem run_afterInit (t : Nat) (c : Cmd) (k : Controller) : (k.run t c).afterInit = k.afterInit := by
  simp [Controller.run]

@[simp] theorem transfer_afterInit (t : Nat) (lo : Nibble) (r : Bool) (n : Nibble) (k : Controller) :
    (k.transfer t lo r n).afterInit = k.afterInit := by
  simp only [Controller.transfer, Controller.execute]
  (repeat' split) <;> simp [Controller.undefine]

@[simp] theorem sample_afterInit (t : Nat) (lo : Nibble) (l : Lines) (k : Controller) :
    (k.sample t lo l).afterInit = k.afterInit := by
  simp only [Controller.sample, Controller.settle_afterInit, Controller.edge]
  (repeat' split) <;> simp [Controller.rise, Controller.fall]

@[simp] theorem chipWrite_afterInit (c : ChipId) (r : ChipReg) (v : Byte) (d : Draw) (s : State) :
    (s.chipWrite c r v d).ctl.afterInit = s.ctl.afterInit := by
  cases c
  · exact sample_afterInit _ _ _ _
  · rfl

@[simp] theorem foreignCall_afterInit (f : ForeignCall) (d : Draw) (s : State) :
    (s.foreignCall f d).ctl.afterInit = s.ctl.afterInit := by
  unfold State.foreignCall
  (repeat' split) <;> simp

/-- A state with the phase and the mark of one that agrees with itself does too. -/
theorem State.InitMarked.congr {s t : State} (h : s.InitMarked) (hp : t.lcdPhase = s.lcdPhase)
    (hm : t.ctl.afterInit = s.ctl.afterInit) : t.InitMarked := by
  rw [State.InitMarked, hp, hm]; exact h

end Sys2Proof.Machine
end

