-- ==== Sys2Proof/Laws/Matrix.lean ====
section
/-! SUPPORT. The keypad matrix (R805): the columns that `netColumns` finds in three rounds are those joined to the row by a
path of pressed keys, and what a row's level is in terms of such paths. -/

namespace Sys2Proof.Machine

open Sys2Proof

theorem mem_columns (c : Column) : c ∈ columns := by cases c <;> decide

theorem mem_columnsJoined {held : List Key} {rs : List Row} {c : Column} :
    c ∈ columnsJoined held rs ↔ ∃ r ∈ rs, keyAt c r ∈ held := by
  simp [columnsJoined, mem_columns]

theorem mem_rowsJoined {held : List Key} {rs : List Row} {r : Row} :
    r ∈ rowsJoined held rs ↔ r ∈ rs ∨ ∃ c ∈ columnsJoined held rs, keyAt c r ∈ held := by
  have : r ∈ rows := by cases r <;> decide
  simp [rowsJoined, this]

/-- A round adds columns and takes none away. -/
theorem columnsJoined_sublist (held : List Key) (rs : List Row) :
    (columnsJoined held rs).Sublist (columnsJoined held (rowsJoined held rs)) := by
  refine List.monotone_filter_right columns fun c h => ?_
  simp only [List.any_eq_true, List.contains_iff_mem] at h ⊢
  obtain ⟨r, hr, hk⟩ := h
  exact ⟨r, mem_rowsJoined.2 (.inl hr), hk⟩

/-- Once a round adds no column, no later round does. -/
theorem rowsJoined_stable {held : List Key} {rs : List Row}
    (h : columnsJoined held (rowsJoined held rs) = columnsJoined held rs) :
    columnsJoined held (rowsJoined held (rowsJoined held rs)) = columnsJoined held (rowsJoined held rs) := by
  have : rowsJoined held (rowsJoined held rs) = rowsJoined held rs := by
    refine List.filter_congr fun r _ => ?_
    rw [Bool.eq_iff_iff]
    simp only [Bool.or_eq_true, List.contains_iff_mem, List.any_eq_true, h, mem_rowsJoined]
    tauto
  rw [this]

/-- Three rounds reach every net: a fourth adds no column. -/
theorem netColumns_closed (held : List Key) (r : Row) :
    columnsJoined held (rowsJoined held (rowsJoined held (rowsJoined held (rowsJoined held [r])))) =
      netColumns held r := by
  have len : ∀ rs, (columnsJoined held rs).length ≤ 3 := fun rs => List.length_filter_le _ columns
  have step : ∀ rs, columnsJoined held (rowsJoined held rs) = columnsJoined held rs ∨
      (columnsJoined held rs).length < (columnsJoined held (rowsJoined held rs)).length := fun rs => by
    have hs := columnsJoined_sublist held rs
    rcases Nat.lt_or_ge (columnsJoined held rs).length (columnsJoined held (rowsJoined held rs)).length with h | h
    · exact .inr h
    · exact .inl (hs.eq_of_length (Nat.le_antisymm hs.length_le h)).symm
  unfold netColumns
  rcases step [r] with h0 | h0
  · exact rowsJoined_stable (rowsJoined_stable (rowsJoined_stable h0))
  rcases step (rowsJoined held [r]) with h1 | h1
  · exact rowsJoined_stable (rowsJoined_stable h1)
  rcases step (rowsJoined held (rowsJoined held [r])) with h2 | h2
  · exact rowsJoined_stable h2
  rcases step (rowsJoined held (rowsJoined held (rowsJoined held [r]))) with h3 | h3
  · exact h3
  · have := len (rowsJoined held (rowsJoined held (rowsJoined held (rowsJoined held [r]))))
    omega

/-- `netColumns` finds exactly the columns in the row's connected component (R805). -/
theorem mem_netColumns {held : List Key} {r : Row} {c : Column} : c ∈ netColumns held r ↔ SameNet held r c := by
  constructor
  · have sound : ∀ rs : List Row, (∀ r' ∈ rs, r' = r ∨ ∃ c, SameNet held r c ∧ keyAt c r' ∈ held) →
        ∀ c ∈ columnsJoined held rs, SameNet held r c := fun rs h c hc => by
      obtain ⟨r', hr, hk⟩ := mem_columnsJoined.1 hc
      rcases h r' hr with rfl | ⟨c', hc', hk'⟩
      · exact .key hk
      · exact .path hc' hk' hk
    have grow : ∀ rs : List Row, (∀ r' ∈ rs, r' = r ∨ ∃ c, SameNet held r c ∧ keyAt c r' ∈ held) →
        ∀ r' ∈ rowsJoined held rs, r' = r ∨ ∃ c, SameNet held r c ∧ keyAt c r' ∈ held := fun rs h r' hr => by
      rcases mem_rowsJoined.1 hr with hr | ⟨c, hc, hk⟩
      · exact h r' hr
      · exact .inr ⟨c, sound rs h c hc, hk⟩
    exact sound _ (grow _ (grow _ (grow _ fun r' hr => .inl (List.mem_singleton.1 hr)))) c
  · intro h
    induction h with
    | key hk =>
      have h0 := mem_columnsJoined.2 ⟨r, List.mem_singleton.2 rfl, hk⟩
      exact (columnsJoined_sublist _ _).subset ((columnsJoined_sublist _ _).subset
        ((columnsJoined_sublist _ _).subset h0))
    | path _ hk hk' ih =>
      rw [← netColumns_closed]
      exact mem_columnsJoined.2 ⟨_, mem_rowsJoined.2 (.inr ⟨_, ih, hk⟩), hk'⟩

/-- A column of the row's net is driven to a level (R805). -/
def NetDriven (p : Params) (chip : Chip) (held : List Key) (r : Row) (level : Bool) : Prop :=
  ∃ c, SameNet held r c ∧ chip.dir.getLsbD (columnPin p c) = false ∧ chip.out.getLsbD (columnPin p c) = level

theorem any_columnDrives {p : Params} {chip : Chip} {held : List Key} {r : Row} {level : Bool} :
    (netColumns held r).any (columnDrives p chip level) = true ↔ NetDriven p chip held r level := by
  simp only [List.any_eq_true, mem_netColumns, columnDrives, Bool.and_eq_true, Bool.not_eq_true', beq_iff_eq, NetDriven]

/-- A row's level (R805): (a) the draw under contention, (b) high, (c) low. -/
theorem rowLevel_spec (p : Params) (chip : Chip) (d : Draw) (r : Row) :
    (NetDriven p chip d.held r true → ¬ NetDriven p chip d.held r false → rowLevel p chip d r = true) ∧
    (¬ NetDriven p chip d.held r true → rowLevel p chip d r = false) ∧
    (NetDriven p chip d.held r true → NetDriven p chip d.held r false →
      rowLevel p chip d r = d.ext.getLsbD (rowPin p r)) := by
  simp only [← any_columnDrives, rowLevel]
  refine ⟨fun h1 h2 => ?_, fun h1 => ?_, fun h1 h2 => ?_⟩
  · simp only [Bool.not_eq_true] at h2
    simp only [h1, h2]; rfl
  · simp only [Bool.not_eq_true] at h1
    simp only [h1]; rfl
  · simp only [h1, h2]; rfl

end Sys2Proof.Machine
end

