-- ==== Sys2Proof/Laws/Pass.lean ====
section
/-! SUPPORT. The keypad scanner under quiet inputs: what the matrix shows for a lone key and for none (R805), and what a
pass does under each column drive (R803, R804, R806). -/

namespace Sys2Proof.Machine

open Sys2Proof

/-! ## Pins of the keypad chip -/

theorem kpPins_ne {p : Params} (h : p.distinct) (c c' : Column) (r r' : Row) :
    ((columnPin p c).val = (columnPin p c').val ↔ c = c') ∧ ((rowPin p r).val = (rowPin p r').val ↔ r = r') ∧
      (columnPin p c).val ≠ (rowPin p r).val := by
  have hn := h.2.2.2
  simp only [Params.kpPins, List.nodup_cons, List.mem_cons, List.not_mem_nil, not_or, Fin.ext_iff, or_false,
    not_false_eq_true, List.nodup_nil, and_true] at hn
  obtain ⟨⟨a1, a2, a3, a4, a5, a6⟩, ⟨b1, b2, b3, b4, b5⟩, ⟨c1, c2, c3, c4⟩, ⟨d1, d2, d3⟩, ⟨e1, e2⟩, f1⟩ := hn
  refine ⟨?_, ?_, ?_⟩
  · cases c <;> cases c' <;> simp [columnPin, a1, a2, b1, Ne.symm a1, Ne.symm a2, Ne.symm b1]
  · cases r <;> cases r' <;>
      simp [rowPin, d1, d2, d3, e1, e2, f1, Ne.symm d1, Ne.symm d2, Ne.symm d3, Ne.symm e1, Ne.symm e2, Ne.symm f1]
  · cases c <;> cases r <;> simp only [columnPin, rowPin, ne_eq] <;> assumption

theorem rowsMask_row (p : Params) (r : Row) : (rowsMask p).getLsbD (rowPin p r) = true := by
  cases r <;> simp [rowsMask, rowPin]

theorem rowsMask_column {p : Params} (h : p.distinct) (c : Column) : (rowsMask p).getLsbD (columnPin p c) = false := by
  have h1 := (kpPins_ne h c c .r1 .r1).2.2
  have h2 := (kpPins_ne h c c .r2 .r1).2.2
  have h3 := (kpPins_ne h c c .r3 .r1).2.2
  have h4 := (kpPins_ne h c c .r4 .r1).2.2
  simp only [rowPin] at h1 h2 h3 h4
  simp [rowsMask, Ne.symm h1, Ne.symm h2, Ne.symm h3, Ne.symm h4]

/-- EXT on a row pin is the row's level (R103). -/
theorem kpExt_row {p : Params} (h : p.distinct) (chip : Chip) (d : Draw) (r : Row) :
    (kpExt p chip d).getLsbD (rowPin p r) = rowLevel p chip d r := by
  have hr := rowsMask_row p r
  have key : ∀ r', (maskIf (rowLevel p chip d r') (rowPin p r')).getLsbD (rowPin p r) =
      (rowLevel p chip d r' && decide (r' = r)) := by
    intro r'
    rw [maskIf_getLsbD]
    congr 1
    exact decide_eq_decide.2 (kpPins_ne h .c1 .c1 r' r).2.1
  have k1 : (maskIf (rowLevel p chip d .r1) p.pinR1).getLsbD (rowPin p r) = _ := key .r1
  have k2 : (maskIf (rowLevel p chip d .r2) p.pinR2).getLsbD (rowPin p r) = _ := key .r2
  have k3 : (maskIf (rowLevel p chip d .r3) p.pinR3).getLsbD (rowPin p r) = _ := key .r3
  have k4 : (maskIf (rowLevel p chip d .r4) p.pinR4).getLsbD (rowPin p r) = _ := key .r4
  simp only [kpExt, BitVec.getLsbD_or, BitVec.getLsbD_and, BitVec.getLsbD_not, hr, k1, k2, k3, k4]
  cases r <;> simp

/-- The value read from the keypad chip shows a row's level, where the rows are inputs (R103, R804). -/
theorem pins_row {s : State} (h : s.params.distinct) (hd : s.kpChip.dir = rowsMask s.params) (d : Draw) (r : Row) :
    (s.pins d .kp).getLsbD (rowPin s.params r) = rowLevel s.params s.kpChip d r := by
  have hr := rowsMask_row s.params r
  have he := kpExt_row h s.kpChip d r
  simp only [State.pins, State.chip, State.ext, hd, BitVec.getLsbD_or, BitVec.getLsbD_and, BitVec.getLsbD_not, hr, he]
  simp

/-! ## The matrix (R805) -/

theorem netColumns_lone {d : Draw} {k : Key} (h : LoneKey d k) (r : Row) :
    netColumns d.held r = columns.filter fun c => decide (keyAt c r = k) := by
  have hc : ∀ x, d.held.contains x = [k].contains x := by
    intro x
    by_cases hx : x = k
    · have := (h x).2 hx
      simp [hx, (h k).2 rfl]
    · have : x ∉ d.held := fun hm => hx ((h x).1 hm)
      simp [hx, this]
  have hj : ∀ rs, columnsJoined d.held rs = columnsJoined [k] rs := by
    intro rs; simp only [columnsJoined, hc]
  have hr : ∀ rs, rowsJoined d.held rs = rowsJoined [k] rs := by
    intro rs; simp only [rowsJoined, hc, hj]
  have hn : netColumns d.held r = netColumns [k] r := by simp only [netColumns, hj, hr]
  rw [hn]
  cases k <;> cases r <;> rfl

theorem rowLevel_none {p : Params} {chip : Chip} {d : Draw} (h : d.held = []) (r : Row) :
    rowLevel p chip d r = false := by
  have : netColumns d.held r = [] := by rw [h]; cases r <;> rfl
  simp [rowLevel, this]

/-- A lone key's row reads high exactly when its column is driven high; the columns are outputs. -/
theorem rowLevel_lone {p : Params} (hw : p.distinct) {chip : Chip} (hd : chip.dir = rowsMask p) {d : Draw} {c : Column}
    {r : Row} (h : LoneKey d (keyAt c r)) (r' : Row) :
    rowLevel p chip d r' = (decide (r' = r) && chip.out.getLsbD (columnPin p c)) := by
  have hnet : netColumns d.held r' = if r' = r then [c] else [] := by
    rw [netColumns_lone h]
    cases c <;> cases r <;> cases r' <;> rfl
  have hdc := rowsMask_column hw c
  simp only [rowLevel, hnet]
  by_cases hr : r' = r
  · simp only [hr, if_true, List.any_cons, List.any_nil, Bool.or_false, columnDrives, hd, hdc, Bool.not_false, Bool.true_and,
      decide_true]
    cases chip.out.getLsbD (columnPin p c) <;> rfl
  · simp [hr]

/-! ## One transfer to the keypad chip -/

/-- What transfers to the keypad chip leave: the frame, `n` draws used up, `calls` completed calls, and at least `least`
microseconds. -/
structure Pad (s t : State) (n calls least : Nat) : Prop where
  frame : s.KeypadOnly t
  inputs : t.inputs = s.inputs.drop n
  issued : s.Issued t s.params.kpAddr calls
  time : s.now + least ≤ t.now

theorem Pad.refl (s : State) : Pad s s 0 0 0 := ⟨.refl s, rfl, ⟨[], by simp⟩, Nat.le_refl _⟩

theorem Pad.trans {s t u : State} {n n' c c' l l' : Nat} (h1 : Pad s t n c l) (h2 : Pad t u n' c' l') :
    Pad s u (n + n') (c + c') (l + l') := by
  refine ⟨h1.frame.trans h2.frame, by rw [h2.inputs, h1.inputs, Inputs.drop_drop], ?_, ?_⟩
  · obtain ⟨x, hx, hxl, hxe⟩ := h1.issued
    obtain ⟨y, hy, hyl, hye⟩ := h2.issued
    rw [h1.frame.params] at hye
    refine ⟨x ++ y, by rw [hy, hx, List.append_assoc], by simp [hxl, hyl], fun e he => ?_⟩
    rcases List.mem_append.1 he with he | he
    · exact hxe e he
    · exact hye e he
  · have := h1.time
    have := h2.time
    omega

theorem settle_keypadOnly {s t : State} (h : t = { s with
      kpChip := t.kpChip, ctl := s.ctl.settle, trace := t.trace, now := t.now, inputs := t.inputs }) :
    s.KeypadOnly t := by
  have hk : t.ctl = s.ctl.settle := by rw [h]
  refine ⟨?_, by rw [hk, Controller.settle_undefined], fun hu => by rw [hk, Controller.settle_defined hu]⟩
  rw [← hk] at h
  exact h

theorem delayUs_pad {s : State} (hf : (s.inputs.at 0).foreign = none) (d : Nat) :
    ∃ t, delayUs d s = .done () t ∧ Pad s t 1 0 d ∧ t.kpChip = s.kpChip := by
  refine ⟨_, delayUs_alone hf d, ⟨settle_keypadOnly rfl, Inputs.rest_eq_drop _, ⟨[], by simp⟩, ?_⟩, rfl⟩
  rw [State.tick_now]; omega

theorem regWrite_pad {s : State} (hw : s.params.distinct) (hq : s.inputs.Quiet 1) (rmw : Option ChipId) (v : Byte) :
    ∃ t, regWrite rmw s.params.kpAddr v s = .done () t ∧ Pad s t 1 1 0 ∧ t.kpChip = { s.kpChip with out := v } := by
  obtain ⟨ho, hf⟩ := hq 0 (by omega)
  refine ⟨_, regWrite_ok (chipAt_kp hw) ho hf rmw v, ⟨settle_keypadOnly ?_, ?_, ?_, ?_⟩, ?_⟩
  · simp [State.chipWrite, State.tick, State.record]
  · simp [Inputs.rest_eq_drop]
  · exact ⟨_, by simp; rfl, rfl, by simp [BusCall.target]⟩
  · simp; omega
  · simp [State.chipWrite, Chip.set]

theorem regRead_pad {s : State} (hw : s.params.distinct) (hq : s.inputs.Quiet 1) :
    ∃ t, regRead s.params.kpAddr s = .done (s.pins (s.inputs.at 0) .kp) t ∧ Pad s t 1 1 0 ∧ t.kpChip = s.kpChip := by
  obtain ⟨ho, hf⟩ := hq 0 (by omega)
  refine ⟨_, regRead_ok (chipAt_kp hw) ho hf, ⟨settle_keypadOnly ?_, ?_, ?_, ?_⟩, rfl⟩
  · simp [State.tick, State.record]
  · simp [Inputs.rest_eq_drop]
  · exact ⟨_, by simp; rfl, rfl, by simp [BusCall.target]⟩
  · simp; omega

/-! ## Columns and rows (R803, R804) -/

theorem driveColumn_exclusive {s : State} (hw : s.params.distinct) (he : s.params.columnDrive = .exclusive)
    (hq : s.inputs.Quiet 1) (c : Column) :
    ∃ t, driveColumn c s = .done () t ∧ Pad s t 1 1 0 ∧
      t.kpChip = { s.kpChip with out := pinMask (columnPin s.params c) } := by
  simp only [driveColumn, he]
  exact regWrite_pad hw hq none _

theorem driveColumn_latched {s : State} (hw : s.params.distinct) (he : s.params.columnDrive = .latched)
    (hq : s.inputs.Quiet 2) (c : Column) :
    ∃ t, driveColumn c s = .done () t ∧ Pad s t 2 2 0 ∧
      t.kpChip = { s.kpChip with out := s.pins (s.inputs.at 0) .kp ||| pinMask (columnPin s.params c) } := by
  obtain ⟨t, h1, h2, h3⟩ := regRead_pad hw (hq.mono (by omega))
  have hp := h2.frame.params
  obtain ⟨u, g1, g2, g3⟩ := regWrite_pad (s := t) (by rw [hp]; exact hw) (by rw [h2.inputs]; exact hq.drop 1 (by omega))
    (chipAt t.params s.params.kpAddr) (s.pins (s.inputs.at 0) .kp ||| pinMask (columnPin s.params c))
  rw [hp] at g1
  refine ⟨u, ?_, h2.trans g2, by rw [g3, h3]⟩
  simp only [driveColumn, he, setBits, h1, Ran.done_andThen, hp]
  exact g1

theorem readRows_pad {s : State} (hw : s.params.distinct) (hq : s.inputs.Quiet 1) :
    ∃ t, readRows s = .done (rows.filter fun r => (s.pins (s.inputs.at 0) .kp).getLsbD (rowPin s.params r)) t ∧
      Pad s t 1 1 0 ∧ t.kpChip = s.kpChip := by
  obtain ⟨t, h1, h2, h3⟩ := regRead_pad hw hq
  refine ⟨t, ?_, h2, h3⟩
  rw [readRows, h1, Ran.done_andThen, h2.frame.params]

theorem mem_rows (r : Row) : r ∈ rows := by cases r <;> decide

/-- Where the rows are inputs, the rows read are those whose line is high (R804, R805). -/
theorem rows_read {s : State} (hw : s.params.distinct) (hd : s.kpChip.dir = rowsMask s.params) (d : Draw) :
    (rows.filter fun r => (s.pins d .kp).getLsbD (rowPin s.params r)) =
      rows.filter fun r => rowLevel s.params s.kpChip d r := by
  congr 1; funext r; exact pins_row hw hd d r

/-! ## One column of a pass (R803, R804), under either drive -/

/-- The keypad chip once a column is driven (R803). -/
def State.driven (s : State) (c : Column) (d : Draw) : Chip :=
  match s.params.columnDrive with
  | .exclusive => { s.kpChip with out := pinMask (columnPin s.params c) }
  | .latched => (s.latchColumn c d).kpChip

/-- The transport calls of one column: its drive and the read after it (R806). -/
def columnCalls (p : Params) : Nat :=
  match p.columnDrive with
  | .exclusive => 2
  | .latched => 3

theorem passCalls_eq (p : Params) : passCalls p = columnCalls p + (columnCalls p + columnCalls p) := by
  unfold passCalls columnCalls
  cases p.columnDrive <;> rfl

theorem columnCalls_pos (p : Params) : 2 ≤ columnCalls p := by
  unfold columnCalls
  cases p.columnDrive <;> decide

@[simp] theorem State.driven_dir (s : State) (c : Column) (d : Draw) : (s.driven c d).dir = s.kpChip.dir := by
  unfold State.driven
  cases s.params.columnDrive <;> rfl

/-- A column is high once it is driven. -/
theorem State.driven_high (s : State) (c : Column) (d : Draw) :
    (s.driven c d).out.getLsbD (columnPin s.params c) = true := by
  unfold State.driven State.latchColumn
  cases s.params.columnDrive <;> simp

/-- The rows found at a column: its drive, then the read. -/
theorem column_pad {s : State} (hw : s.params.distinct) (hq : s.inputs.Quiet (columnCalls s.params)) (c : Column) :
    ∃ t u rs, driveColumn c s = .done () t ∧ readRows t = .done rs u ∧
      Pad s u (columnCalls s.params) (columnCalls s.params) 0 ∧ u.kpChip = s.driven c (s.inputs.at 0) ∧
      (s.kpChip.dir = rowsMask s.params → rs = rows.filter
        (rowLevel s.params (s.driven c (s.inputs.at 0)) (s.inputs.at (columnCalls s.params - 1)))) := by
  obtain ⟨t, n, a1, a2, a3, hn⟩ : ∃ t n, driveColumn c s = .done () t ∧ Pad s t n n 0 ∧
      t.kpChip = s.driven c (s.inputs.at 0) ∧ n + 1 = columnCalls s.params := by
    cases hc : s.params.columnDrive with
    | exclusive =>
      have hn : 1 + 1 = columnCalls s.params := by simp [columnCalls, hc]
      obtain ⟨t, a1, a2, a3⟩ := driveColumn_exclusive hw hc (hq.mono (by omega)) c
      exact ⟨t, 1, a1, a2, by simp [State.driven, hc, a3], hn⟩
    | latched =>
      have hn : 2 + 1 = columnCalls s.params := by simp [columnCalls, hc]
      obtain ⟨t, a1, a2, a3⟩ := driveColumn_latched hw hc (hq.mono (by omega)) c
      exact ⟨t, 2, a1, a2, by simp [State.driven, State.latchColumn, hc, a3], hn⟩
  have pt := a2.frame.params
  have it : t.inputs.at 0 = s.inputs.at n := by rw [a2.inputs, Inputs.drop_at, Nat.add_zero]
  obtain ⟨u, b1, b2, b3⟩ := readRows_pad (s := t) (by rw [pt]; exact hw)
    (by rw [a2.inputs]; exact hq.drop n (by omega))
  refine ⟨t, u, _, a1, b1, hn ▸ a2.trans b2, b3.trans a3, fun hd => ?_⟩
  rw [rows_read (by rw [pt]; exact hw) (by rw [a3, State.driven_dir, pt]; exact hd), a3, pt, it, ← hn]
  rfl

/-! ## A pass (R806) -/

/-- The state with the keypad chip as it is once a column is driven. -/
def State.drive (s : State) (c : Column) (d : Draw) : State := { s with kpChip := s.driven c d }

/-- The keypad chip at each column's read of a pass. -/
def State.passChip (s : State) : Column → Chip
  | .c1 => s.driven .c1 (s.inputs.at 0)
  | .c2 => (s.drive .c1 (s.inputs.at 0)).driven .c2 (s.inputs.at (columnCalls s.params))
  | .c3 => ((s.drive .c1 (s.inputs.at 0)).drive .c2 (s.inputs.at (columnCalls s.params))).driven .c3
      (s.inputs.at (columnCalls s.params + columnCalls s.params))

/-- The draw of each column's read in a pass. -/
def State.passDraw (s : State) : Column → Draw
  | .c1 => s.inputs.at (columnCalls s.params - 1)
  | .c2 => s.inputs.at (columnCalls s.params + (columnCalls s.params - 1))
  | .c3 => s.inputs.at (columnCalls s.params + columnCalls s.params + (columnCalls s.params - 1))

theorem driven_congr {s t : State} (hp : t.params = s.params) (hk : t.kpChip = s.kpChip) (c : Column) (d : Draw) :
    t.driven c d = s.driven c d := by
  simp only [State.driven, State.latchColumn, State.pins, State.chip, State.ext, hp, hk]

/-- What a pass does, under either drive (R803 to R806, R809). -/
theorem rawScan_pass {s : State} (hw : s.params.distinct) (hq : s.inputs.Quiet (passCalls s.params)) :
    ∃ t ks, rawScan s = .done ks t ∧ Pad s t (passCalls s.params) (passCalls s.params) 0 ∧
      t.kpChip = s.passChip .c3 ∧
      (s.kpChip.dir = rowsMask s.params → ks = keysSeen s.params s.passChip s.passDraw) := by
  rw [passCalls_eq] at hq
  have n := columnCalls_pos s.params
  obtain ⟨a, t, rs, a1, a2, a3, a4, a5⟩ := column_pad hw (hq.mono (by omega)) .c1
  have pt := a3.frame.params
  obtain ⟨b, u, rs', b1, b2, b3, b4, b5⟩ := column_pad (s := t) (by rw [pt]; exact hw)
    (by rw [pt, a3.inputs]; exact hq.drop _ (by omega)) .c2
  have pu := b3.frame.params
  have iu : u.inputs = s.inputs.drop (columnCalls s.params + columnCalls s.params) := by
    rw [b3.inputs, a3.inputs, Inputs.drop_drop, pt]
  obtain ⟨c, v, rs'', c1, c2, c3, c4, c5⟩ := column_pad (s := u) (by rw [pu, pt]; exact hw)
    (by rw [pu, pt, iu]; exact hq.drop _ (by omega)) .c3
  have k2 : ∀ d, t.driven .c2 d = (s.drive .c1 (s.inputs.at 0)).driven .c2 d := fun d =>
    driven_congr (s := s.drive .c1 (s.inputs.at 0)) pt a4 _ d
  have i2 : ∀ k, t.inputs.at k = s.inputs.at (columnCalls s.params + k) := fun k => by rw [a3.inputs, Inputs.drop_at]
  have b4' : u.kpChip = ((s.drive .c1 (s.inputs.at 0)).drive .c2 (s.inputs.at (columnCalls s.params))).kpChip := by
    rw [b4, k2, i2, Nat.add_zero]; rfl
  have k3 : ∀ d, u.driven .c3 d =
      ((s.drive .c1 (s.inputs.at 0)).drive .c2 (s.inputs.at (columnCalls s.params))).driven .c3 d :=
    fun d => driven_congr (s := (s.drive .c1 _).drive .c2 _) (pu.trans pt) b4' _ d
  have i3 : ∀ k, u.inputs.at k = s.inputs.at (columnCalls s.params + columnCalls s.params + k) := fun k => by
    rw [iu, Inputs.drop_at]
  have d1 : t.kpChip.dir = s.kpChip.dir := by rw [a4, State.driven_dir]
  have d2 : u.kpChip.dir = s.kpChip.dir := by rw [b4, State.driven_dir, d1]
  refine ⟨v, rs.map (keyAt .c1) ++ (rs'.map (keyAt .c2) ++ (rs''.map (keyAt .c3) ++ [])), ?_, ?_, ?_, fun hd => ?_⟩
  · simp only [rawScan, columns, sweep, a1, a2, b1, b2, c1, c2, Ran.done_andThen]
  · rw [passCalls_eq]
    have := a3.trans (b3.trans c3)
    rwa [pt, pu, pt] at this
  · rw [c4, k3, i3]; rfl
  · rw [a5 hd, b5 (by rw [d1, pt]; exact hd), c5 (by rw [d2, pu, pt]; exact hd), k2, k3, pu, pt]
    simp only [i2, i3, Nat.add_zero]
    rfl

/-! ## A pass does not look at Main's marks -/

/-- BUS_OWNER, a scan's key and the value returned, which no completed transfer reads or writes. -/
def State.marked (o : Option PublicOp) (k : Option Key) (v : Option RetVal) (s : State) : State :=
  { s with busOwner := o, scanning := k, ret := v }

section
variable (o : Option PublicOp) (m : Option Key) (x : Option RetVal)

theorem delayUs_marked {s t : State} {d : Nat} (hq : s.inputs.Quiet 1) (h : delayUs d s = .done () t) :
    delayUs d (s.marked o m x) = .done () (t.marked o m x) := by
  have hf := (hq 0 (by omega)).2
  rw [delayUs_alone hf] at h
  cases h
  exact delayUs_alone (s := s.marked o m x) hf d

theorem regWrite_marked {s t : State} {a : BusAddr} (ha : chipAt s.params a = some .kp) (hq : s.inputs.Quiet 1)
    {rmw : Option ChipId} {v : Byte} (h : regWrite rmw a v s = .done () t) :
    regWrite rmw a v (s.marked o m x) = .done () (t.marked o m x) := by
  obtain ⟨ho, hf⟩ := hq 0 (by omega)
  rw [regWrite_ok ha ho hf] at h
  cases h
  exact regWrite_ok (s := s.marked o m x) ha ho hf rmw v

theorem regRead_marked {s t : State} (hw : s.params.distinct) (hq : s.inputs.Quiet 1) {b : Byte}
    (h : regRead s.params.kpAddr s = .done b t) :
    regRead s.params.kpAddr (s.marked o m x) = .done b (t.marked o m x) := by
  obtain ⟨ho, hf⟩ := hq 0 (by omega)
  rw [regRead_ok (chipAt_kp hw) ho hf] at h
  cases h
  exact regRead_ok (s := s.marked o m x) (chipAt_kp hw) ho hf

theorem column_marked {s t u : State} {rs : List Row} (hw : s.params.distinct)
    (hq : s.inputs.Quiet (columnCalls s.params)) {c : Column} (h1 : driveColumn c s = .done () t)
    (h2 : readRows t = .done rs u) :
    driveColumn c (s.marked o m x) = .done () (t.marked o m x) ∧
      readRows (t.marked o m x) = .done rs (u.marked o m x) := by
  have two := columnCalls_pos s.params
  have read : ∀ {t : State}, t.params = s.params → t.inputs.Quiet 1 → readRows t = .done rs u →
      readRows (t.marked o m x) = .done rs (u.marked o m x) := fun {t} hp hq h => by
    obtain ⟨v, b1, -, -⟩ := regRead_pad (s := t) (by rw [hp]; exact hw) hq
    have b2 := regRead_marked o m x (by rw [hp]; exact hw) hq b1
    rw [readRows, b1, Ran.done_andThen] at h
    cases h
    rw [readRows]
    exact (congrArg (Ran.andThen · _) b2).trans rfl
  cases hc : s.params.columnDrive with
  | exclusive =>
    obtain ⟨t', a1, a2, -⟩ := driveColumn_exclusive hw hc (hq.mono (by omega)) c
    obtain rfl : t' = t := by rw [a1] at h1; cases h1; rfl
    refine ⟨?_, read a2.frame.params (by rw [a2.inputs]; exact hq.drop 1 (by omega)) h2⟩
    simp only [driveColumn, hc] at h1
    have hc' : (s.marked o m x).params.columnDrive = .exclusive := hc
    simp only [driveColumn, hc']
    exact regWrite_marked o m x (chipAt_kp hw) (hq.mono (by omega)) h1
  | latched =>
    have three : columnCalls s.params = 3 := by simp [columnCalls, hc]
    obtain ⟨t', a1, a2, -⟩ := driveColumn_latched hw hc (hq.mono (by omega)) c
    obtain rfl : t' = t := by rw [a1] at h1; cases h1; rfl
    refine ⟨?_, read a2.frame.params (by rw [a2.inputs]; exact hq.drop 2 (by omega)) h2⟩
    obtain ⟨v, b1, b2, -⟩ := regRead_pad hw (hq.mono (by omega))
    have hp := b2.frame.params
    simp only [driveColumn, hc, setBits, b1, Ran.done_andThen] at h1
    have b3 := regRead_marked o m x hw (hq.mono (by omega)) b1
    have hc' : (s.marked o m x).params.columnDrive = .latched := hc
    simp only [driveColumn, hc', setBits]
    refine (congrArg (Ran.andThen · _) b3).trans ?_
    rw [Ran.done_andThen]
    exact regWrite_marked o m x (s := v) (by rw [hp]; exact chipAt_kp hw)
      (by rw [b2.inputs]; exact hq.drop 1 (by omega)) h1

/-- A pass is the same whatever Main's marks are. -/
theorem rawScan_marked {s t : State} {ks : List Key} (hw : s.params.distinct)
    (hq : s.inputs.Quiet (passCalls s.params)) (h : rawScan s = .done ks t) :
    rawScan (s.marked o m x) = .done ks (t.marked o m x) := by
  rw [passCalls_eq] at hq
  obtain ⟨a, t1, rs, a1, a2, a3, -, -⟩ := column_pad hw (hq.mono (by omega)) .c1
  have pt := a3.frame.params
  have q1 : t1.inputs.Quiet (columnCalls t1.params) := by rw [pt, a3.inputs]; exact hq.drop _ (by omega)
  obtain ⟨b, t2, rs', b1, b2, b3, -, -⟩ := column_pad (s := t1) (by rw [pt]; exact hw) q1 .c2
  have pu := b3.frame.params
  have q2 : t2.inputs.Quiet (columnCalls t2.params) := by
    rw [pu, pt, b3.inputs, a3.inputs, Inputs.drop_drop, pt]; exact hq.drop _ (by omega)
  obtain ⟨c, t3, rs'', c1, c2, -, -, -⟩ := column_pad (s := t2) (by rw [pu, pt]; exact hw) q2 .c3
  obtain ⟨m1, m2⟩ := column_marked o m x hw (hq.mono (by omega)) a1 a2
  obtain ⟨m3, m4⟩ := column_marked o m x (by rw [pt]; exact hw) q1 b1 b2
  obtain ⟨m5, m6⟩ := column_marked o m x (by rw [pu, pt]; exact hw) q2 c1 c2
  simp only [rawScan, columns, sweep, a1, a2, b1, b2, c1, c2, Ran.done_andThen] at h
  cases h
  simp only [rawScan, columns, sweep, m1, m2, m3, m4, m5, m6, Ran.done_andThen]

end

/-! ## What a pass finds (R806, R814) -/

/-- With no key held at the reads, none is found. -/
theorem keysSeen_none {p : Params} {chip : Column → Chip} {draw : Column → Draw} (h : ∀ c, (draw c).held = []) :
    keysSeen p chip draw = [] := by
  simp [keysSeen, rowLevel_none (h _)]

/-- A lone key is found at the columns at whose read its own column is high. -/
theorem keysSeen_lone {p : Params} (hw : p.distinct) {chip : Column → Chip} (hd : ∀ x, (chip x).dir = rowsMask p)
    {draw : Column → Draw} {c : Column} {r : Row} (h : ∀ x, LoneKey (draw x) (keyAt c r)) :
    keysSeen p chip draw =
      (columns.filter fun x => (chip x).out.getLsbD (columnPin p c)).map fun x => keyAt x r := by
  have hx : ∀ x, (rows.filter (rowLevel p (chip x) (draw x))).map (keyAt x) =
      if (chip x).out.getLsbD (columnPin p c) then [keyAt x r] else [] := by
    intro x
    have : rowLevel p (chip x) (draw x) =
        fun r' => decide (r' = r) && (chip x).out.getLsbD (columnPin p c) := by
      funext r'; exact rowLevel_lone hw (hd x) (h x) r'
    rw [this]
    cases (chip x).out.getLsbD (columnPin p c) <;> cases r <;> rfl
  simp only [keysSeen, hx]
  simp only [columns, List.flatMap_cons, List.flatMap_nil, List.filter_cons, List.filter_nil]
  split <;> split <;> split <;> rfl

theorem keyAt_surjective (k : Key) : ∃ c r, keyAt c r = k := by
  cases k
  exacts [⟨.c1, .r1, rfl⟩, ⟨.c2, .r1, rfl⟩, ⟨.c3, .r1, rfl⟩, ⟨.c1, .r2, rfl⟩, ⟨.c2, .r2, rfl⟩, ⟨.c3, .r2, rfl⟩,
    ⟨.c1, .r3, rfl⟩, ⟨.c2, .r3, rfl⟩, ⟨.c3, .r3, rfl⟩, ⟨.c1, .r4, rfl⟩, ⟨.c2, .r4, rfl⟩, ⟨.c3, .r4, rfl⟩]

@[simp] theorem State.passChip_dir (s : State) (c : Column) : (s.passChip c).dir = s.kpChip.dir := by
  cases c <;> simp [State.passChip, State.drive]

theorem State.passChip_high (s : State) (c : Column) : (s.passChip c).out.getLsbD (columnPin s.params c) = true := by
  cases c <;> exact State.driven_high _ _ _

/-- The draws of a pass's reads are among its draws. -/
theorem State.passDraw_mem (s : State) (c : Column) : ∃ j < passCalls s.params, s.passDraw c = s.inputs.at j := by
  have := columnCalls_pos s.params
  rw [passCalls_eq]
  cases c
  exacts [⟨_, by omega, rfl⟩, ⟨_, by omega, rfl⟩, ⟨_, by omega, rfl⟩]

theorem passKeys_none {s : State} (h : ∀ j < passCalls s.params, (s.inputs.at j).held = []) :
    keysSeen s.params s.passChip s.passDraw = [] :=
  keysSeen_none fun c => by
    obtain ⟨j, hj, e⟩ := s.passDraw_mem c
    rw [e]; exact h j hj

/-- A lone key held through a pass is among the keys found, under either drive (R810). -/
theorem passKeys_lone_ne {s : State} (hw : s.params.distinct) (hd : s.kpChip.dir = rowsMask s.params) {k : Key}
    (h : ∀ j < passCalls s.params, LoneKey (s.inputs.at j) k) : keysSeen s.params s.passChip s.passDraw ≠ [] := by
  obtain ⟨c, r, rfl⟩ := keyAt_surjective k
  rw [keysSeen_lone hw (fun x => by rw [State.passChip_dir]; exact hd) fun x => by
    obtain ⟨j, hj, e⟩ := s.passDraw_mem x
    rw [e]; exact h j hj]
  intro he
  have hm : keyAt c r ∈ (columns.filter fun x => (s.passChip x).out.getLsbD (columnPin s.params c)).map
      fun x => keyAt x r :=
    List.mem_map.2 ⟨c, List.mem_filter.2 ⟨by cases c <;> decide, s.passChip_high c⟩, rfl⟩
  rw [he] at hm
  cases hm

/-- Under `exclusive` a lone key held through a pass is found, and no other (R806). -/
theorem passKeys_lone {s : State} (hw : s.params.distinct) (he : s.params.columnDrive = .exclusive)
    (hd : s.kpChip.dir = rowsMask s.params) {k : Key} (h : ∀ j < 6, LoneKey (s.inputs.at j) k) :
    keysSeen s.params s.passChip s.passDraw = [k] := by
  obtain ⟨c, r, rfl⟩ := keyAt_surjective k
  have h6 : passCalls s.params = 6 := by simp [passCalls, he]
  rw [keysSeen_lone hw (fun x => by rw [State.passChip_dir]; exact hd) fun x => by
    obtain ⟨j, hj, e⟩ := s.passDraw_mem x
    rw [e]; exact h j (h6 ▸ hj)]
  have ho : ∀ x, (s.passChip x).out = pinMask (columnPin s.params x) := by
    intro x; cases x <;> simp [State.passChip, State.drive, State.driven, he]
  have hb : ∀ x, (s.passChip x).out.getLsbD (columnPin s.params c) = decide (x = c) := by
    intro x
    simp only [ho, pinMask_getLsbD, (kpPins_ne hw x c r r).1]
  simp only [hb]
  cases c <;> rfl

end Sys2Proof.Machine
end

