-- ==== Sys2Proof/Laws/Text.lean ====
section
/-! SUPPORT. Texts and digits (R720 to R725, R740 to R742), backspaces (R731), the clear (R710), and the invariant after
the first clear (R521), as effects on the controller. -/

namespace Sys2Proof.Machine

open Sys2Proof

/-! ## Segments of a text -/

theorem segments_single {text : List Char} (h : newlineChar ∉ text) : segments text = [text] := by
  induction text with
  | nil => rfl
  | cons c t ih =>
    simp only [List.mem_cons, not_or] at h
    rw [segments, if_neg (Ne.symm h.1), ih h.2]

theorem segments_split {first rest : List Char} (h : newlineChar ∉ first) :
    segments (first ++ newlineChar :: rest) = first :: segments rest := by
  induction first with
  | nil => simp [segments]
  | cons c t ih =>
    simp only [List.mem_cons, not_or] at h
    rw [List.cons_append, segments, if_neg (Ne.symm h.1), ih h.2]

theorem ValidText.length_le {text : List Char} (h : ValidText text) (hn : newlineChar ∉ text) : text.length ≤ 16 :=
  h.2.2 text (by simp [segments_single hn])

/-- The two lines of a valid text. -/
theorem ValidText.lines {first second : List Char} (h : ValidText (first ++ newlineChar :: second)) :
    newlineChar ∉ first ∧ newlineChar ∉ second ∧ first.length ≤ 16 ∧ second.length ≤ 16 := by
  have hc := h.2.1
  have hM : Config.MAX_NEWLINES = 1 := rfl
  rw [List.count_append, List.count_cons_self, hM] at hc
  have h1 : newlineChar ∉ first := List.count_eq_zero.1 (by omega)
  have h2 : newlineChar ∉ second := List.count_eq_zero.1 (by omega)
  have hs := h.2.2
  rw [segments_split h1, segments_single h2] at hs
  exact ⟨h1, h2, hs first (by simp), hs second (by simp)⟩

/-- The bytes of a text without a newline are its codes. -/
theorem charSend_line {text : List Char} (h : newlineChar ∉ text) :
    text.map charSend = (text.map charByte).map fun b => (true, b) := by
  induction text with
  | nil => rfl
  | cons c t ih =>
    simp only [List.mem_cons, not_or] at h
    rw [List.map_cons, ih h.2, charSend, if_neg (Ne.symm h.1)]
    rfl

theorem charSend_lines {first second : List Char} (h1 : newlineChar ∉ first) (h2 : newlineChar ∉ second) :
    (first ++ newlineChar :: second).map charSend =
      ((first.map charByte).map fun b => (true, b)) ++ (false, newlineByte) ::
        ((second.map charByte).map fun b => (true, b)) := by
  rw [List.map_append, List.map_cons, charSend_line h1, charSend_line h2]
  rfl

theorem charSend_tame (text : List Char) : ∀ p ∈ text.map charSend, Tame p := by
  intro p hp
  obtain ⟨c, -, rfl⟩ := List.mem_map.1 hp
  exact tame_char c

/-! ## Line 2 -/

/-- The cells of line 2 in order. -/
theorem line2_cell {k : Nat} (h : k ≤ 16) : ((incAc true)^[k] 0x40#7).toNat = 0x40 + k := by
  have : ∀ k ≤ 16, ((incAc true)^[k] 0x40#7).toNat = 0x40 + k := by decide
  exact this k h

/-- The cells of line 1 in order. -/
theorem line1_cell {k : Nat} (h : k ≤ 16) : ((incAc true)^[k] 0x00#7).toNat = k := by
  have : ∀ k ≤ 16, ((incAc true)^[k] 0x00#7).toNat = k := by decide
  exact this k h

/-! ## Digits -/

theorem decimalDigits_length (v k : Nat) : (decimalDigits v k).length = k := by
  induction k with
  | zero => rfl
  | succ k ih => simp [decimalDigits, ih]

/-- Digit `i`, counted from the most significant. -/
theorem decimalDigits_get {v k i : Nat} (h : i < k) : (decimalDigits v k)[i]? = some (v / 10 ^ (k - 1 - i) % 10) := by
  induction k generalizing i with
  | zero => omega
  | succ k ih =>
    cases i with
    | zero => simp [decimalDigits]
    | succ i =>
      rw [decimalDigits, List.getElem?_cons_succ, ih (by omega)]
      congr 4
      omega

/-! ## Backspaces -/

/-- DDRAM after `n` backspaces from address `a`. -/
def eraseRun (m : Memory) (a : DdAddr) : Nat → Memory
  | 0 => m
  | n + 1 => eraseRun (m.write (decAc true a).toNat 0x20) (decAc true a) n

theorem runAll_backspaces {k : Controller} (h : k.Tidy) (n : Nat) :
    runAll (backspacesSend n) k =
        { k with lcd := { k.lcd with ddram := eraseRun k.lcd.ddram k.lcd.ac n, ac := (decAc true)^[n] k.lcd.ac } } ∧
      (runAll (backspacesSend n) k).Tidy := by
  induction n generalizing k with
  | zero => exact ⟨rfl, h⟩
  | succ n ih =>
    have h1 : ({ k with lcd := { k.lcd with ac := decAc true k.lcd.ac } } : Controller).Tidy :=
      ⟨h.1, h.2, h.3, h.4, legal_dec _ h.5⟩
    have h2 : ({ k with lcd := { k.lcd with
        ddram := k.lcd.ddram.write (decAc true k.lcd.ac).toNat 0x20, ac := k.lcd.ac } } : Controller).Tidy :=
      ⟨h.1, h.2, h.3, h.4, h.5⟩
    have h3 : ({ k with lcd := { k.lcd with
        ddram := k.lcd.ddram.write (decAc true k.lcd.ac).toNat 0x20, ac := decAc true k.lcd.ac } } : Controller).Tidy :=
      ⟨h.1, h.2, h.3, h.4, legal_dec _ h.5⟩
    have hb : runAll backspaceSend k = { k with lcd := { k.lcd with
        ddram := k.lcd.ddram.write (decAc true k.lcd.ac).toNat 0x20, ac := decAc true k.lcd.ac } } := by
      have e2 := effect_data h1 blankByte
      simp only [inc_dec _ h.legal] at e2
      simp only [backspaceSend, runAll_cons, runAll_nil, effect_left h, e2]
      exact effect_left h2
    rw [backspacesSend, runAll_append, hb]
    exact ih h3

theorem eraseRun_other {m : Memory} {x : DdAddr} {n a : Nat} (h : ∀ i < n, ((decAc true)^[i + 1] x).toNat ≠ a) :
    (eraseRun m x n).read a = m.read a := by
  induction n generalizing m x with
  | zero => rfl
  | succ n ih =>
    have h0 : (decAc true x).toNat ≠ a := h 0 (by omega)
    rw [eraseRun, ih fun i hi => h (i + 1) (by omega), Memory.read_write_other _ h0.symm]

theorem eraseRun_same {m : Memory} {x : DdAddr} {n i : Nat} (hi : i < n) :
    (eraseRun m x n).read ((decAc true)^[i + 1] x).toNat = some 0x20 := by
  have kept : ∀ (n : Nat) (m : Memory) (x : DdAddr) (a : Nat), m.read a = some 0x20 →
      (eraseRun m x n).read a = some 0x20 := by
    intro n
    induction n with
    | zero => exact fun m x a h => h
    | succ n ih =>
      intro m x a h
      refine ih _ _ _ ?_
      rw [Memory.read_write]
      split
      · rfl
      · exact h
  induction n generalizing m x i with
  | zero => omega
  | succ n ih =>
    cases i with
    | zero => exact kept n _ _ _ (Memory.read_write_same _ _ _)
    | succ i => exact ih (x := decAc true x) (by omega)

/-! ## Shifts of the cursor -/

/-- Shifts of the cursor move AC and nothing else of the controller's view, and they leave every cell's code. -/
theorem runAll_shifts {k : Controller} (dir : Direction) (n : Nat) :
    (runAll (List.replicate n (false, shiftByte dir)) k).lcd = { k.lcd with
        ac := (runAll (List.replicate n (false, shiftByte dir)) k).lcd.ac } ∧
      (runAll (List.replicate n (false, shiftByte dir)) k).cells = k.cells ∧
      (legalAddr k.lcd.n k.lcd.ac = true → (runAll (List.replicate n (false, shiftByte dir)) k).lcd.ac =
        (stepAc k.lcd.n (decide (dir = .right)))^[n] k.lcd.ac) := by
  induction n generalizing k with
  | zero => exact ⟨rfl, rfl, fun _ => rfl⟩
  | succ n ih =>
    rw [List.replicate_succ, runAll_cons, decode_shift]
    simp only [cmdEffect, cmdCursorDisplayShift, Bool.false_eq_true, if_false, Controller.moveAc]
    split
    · next hl =>
      obtain ⟨h1, h2, h3⟩ := ih (k := { k with lcd := { k.lcd with ac := stepAc k.lcd.n (decide (dir = .right)) k.lcd.ac } })
      refine ⟨h1, h2, fun _ => h3 ?_⟩
      have key : ∀ n f : Bool, ∀ x : DdAddr, legalAddr n x = true → legalAddr n (stepAc n f x) = true := by decide
      exact key _ _ _ hl
    · next hl =>
      obtain ⟨h1, h2, -⟩ := ih (k := { k with lcd := { k.lcd with ac := _ }, epoch := k.epoch + 1 })
      exact ⟨h1, h2, fun h => absurd h hl⟩

/-! ## The clear (R510, R710) -/

/-- The clear, with its wait, from a settled interface. -/
theorem clearDisplayBody_settled {s : State} (hs : s.Settled) (hf : s.FourBit) (hq : s.inputs.Quiet 23) :
    ∃ t, clearDisplayBody s = .done () t ∧ s.LcdOnly t ∧ t.inputs = s.inputs.drop 23 ∧ s.now + 3080 ≤ t.now ∧
      lowered t = lowered s ∧ s.Issued t s.params.lcdAddr 16 ∧ t.Settled ∧ t.FourBit ∧
      t.ctl.view = (cmdClearDisplay s.ctl).view := by
  obtain ⟨t, h1, h2, h3, h4, h5, h6, -, h8⟩ := sendByte_settled hs hf (hq.mono (by omega)) false clearByte decode_clear
  obtain ⟨hw, hv, hfb, hb⟩ := h8 hs.defined
  have hp : t.params = s.params := h2.params
  have hfo : (t.inputs.at 0).foreign = none := by rw [h3]; simpa using (hq 22 (by omega)).2
  have hd : delayUs Config.T_CLEAR_WAIT t = .done () (t.tick Config.T_CLEAR_WAIT) := delayUs_alone hfo _
  have hk : (t.tick Config.T_CLEAR_WAIT).ctl = t.ctl := Controller.settle_defined hw.defined
  have hn : t.now + 2000 ≤ (t.tick Config.T_CLEAR_WAIT).now := by
    rw [State.tick_now]; simp only [Config.T_CLEAR_WAIT]; omega
  refine ⟨t.tick Config.T_CLEAR_WAIT, ?_, h2.trans rfl, ?_, by omega, ?_, ?_, ?_, ?_, ?_⟩
  · rw [clearDisplayBody, sendCommand, h1, Ran.done_andThen, hd]
  · rw [State.tick_inputs, h3, Inputs.rest_eq_drop, Inputs.drop_drop]
  · rw [lowered, State.tick_lcdChip, State.tick_params, h5, hp]; exact lowered_asserted false (loNibble clearByte)
  · refine ⟨_, h6, by simp [nibbleTrace], fun e he => ?_⟩
    rw [List.mem_append] at he
    rcases he with he | he
    · exact nibbleTrace_issued s _ _ e he
    · exact nibbleTrace_issued (nibbleState s false (hiNibble clearByte)) _ _ e he
  · obtain ⟨w1, w2, w3, w4, w5, w6, w7, w8, w9⟩ := hw
    refine { params := w1, outputs := w2, enableLow := w3, viewEn := ?_, viewRs := ?_, viewDb := ?_, lines := ?_,
             cycle := ?_, defined := ?_, busy := ?_ } <;> rw [hk]
    · exact w4
    · exact w5
    · exact w6
    · omega
    · intro tr htr; have := w8 tr htr; omega
    · exact w9
    · have : execTime .clearDisplay = 1520 := rfl
      omega
  · constructor <;> rw [hk]
    · exact hfb.1
    · exact hfb.2
  · rw [hk]; exact hv

/-- The clear's cells. -/
theorem clear_read (k : Controller) (a : DdAddr) : (cmdClearDisplay k).lcd.ddram.read a.toNat =
    if legalAddr k.lcd.n a = true then some 0x20 else k.lcd.ddram.read a.toNat := by
  simp only [cmdClearDisplay, Memory.read_fill, mem_legalAddrs]

/-! ## What the driver sends keeps the controller tidy (R521) -/

theorem tidy_char {k : Controller} (h : k.Tidy) (c : Char) :
    (cmdEffect (decodeCmd (busWord (charSend c).1 (charSend c).2)) k).Tidy := by
  unfold charSend
  split
  · rw [effect_newline h]; exact ⟨h.1, h.2, h.3, h.4, rfl⟩
  · rw [effect_data h]; exact ⟨h.1, h.2, h.3, h.4, legal_inc _ h.5⟩

theorem tidy_text {k : Controller} (h : k.Tidy) (text : List Char) : (runAll (text.map charSend) k).Tidy := by
  induction text generalizing k with
  | nil => exact h
  | cons c t ih => exact ih (tidy_char h c)

theorem tidy_shift {k : Controller} (h : k.Tidy) (dir : Direction) :
    (cmdEffect (decodeCmd (busWord false (shiftByte dir))) k).Tidy := by
  cases dir
  · rw [effect_left h]; exact ⟨h.1, h.2, h.3, h.4, legal_dec _ h.5⟩
  · rw [effect_right h]; exact ⟨h.1, h.2, h.3, h.4, legal_inc _ h.5⟩

theorem tidy_shifts {k : Controller} (h : k.Tidy) (dir : Direction) (n : Nat) :
    (runAll (List.replicate n (false, shiftByte dir)) k).Tidy := by
  induction n generalizing k with
  | zero => exact h
  | succ n ih => exact ih (tidy_shift h dir)

theorem tidy_display {k : Controller} (h : k.Tidy) (p : Params) (d : Bool) :
    (cmdEffect (decodeCmd (busWord false (displayByte p d))) k).Tidy := by
  rw [decode_display]
  exact ⟨h.1, h.2, h.3, h.4, h.5⟩

theorem tidy_clear {k : Controller} (h : k.Tidy) : (cmdClearDisplay k).Tidy := ⟨rfl, rfl, h.3, h.4, rfl⟩

end Sys2Proof.Machine
end

