-- ==== Sys2Proof/Laws/Race.lean ====
section
/-! SUPPORT. How many primitives each operation makes, and what a second bus user's call before any of them does while the
bus is held (R913, R931). -/

namespace Sys2Proof.Machine

open Sys2Proof

/-- A run of `n` primitives under a hold of `o`: with quiet inputs it is done, having used up `n` draws, with the hold and
the parameters as they were; a second bus user's call before the first primitive that is not quiet stops it with F_RACE. -/
def Counted {α : Type} (o : PublicOp) (s : State) (n : Nat) (r : Ran α) : Prop :=
  (s.inputs.Quiet n → ∃ v t, r = .done v t ∧ t.inputs = s.inputs.drop n ∧ t.busOwner = some o ∧ t.params = s.params) ∧
  ∀ k g, k < n → s.inputs.Quiet k → (s.inputs.at k).foreign = some g → ∃ t, r = .stopped t ∧ t.fatal = some .race ∧
    t.fatalInfo = some (.race (some o) g) ∧ t.busOwner = some o ∧ t.inputs = s.inputs.drop (k + 1)

variable {α β : Type} {o : PublicOp} {s : State}

theorem Counted.done (v : α) {t : State} (hi : t.inputs = s.inputs) (ho : t.busOwner = some o) (hp : t.params = s.params) :
    Counted o s 0 (.done v t) := by
  refine ⟨fun _ => ⟨v, t, rfl, hi, ho, hp⟩, fun k g hk => ?_⟩
  omega

theorem Counted.andThen {m n : Nat} {r : Ran α} {next : α → State → Ran β} (h : Counted o s m r)
    (hn : ∀ v t, t.busOwner = some o → t.params = s.params → Counted o t n (next v t)) :
    Counted o s (m + n) (r.andThen next) := by
  refine ⟨fun hq => ?_, fun k g hk hq hf => ?_⟩
  · obtain ⟨v, t, rfl, hi, ho, hp⟩ := h.1 (hq.mono (by omega))
    obtain ⟨w, u, e, hi', ho', hp'⟩ := (hn v t ho hp).1 (by rw [hi]; exact hq.drop m (by omega))
    exact ⟨w, u, e, by rw [hi', hi, Inputs.drop_drop], ho', hp'.trans hp⟩
  · rcases Nat.lt_or_ge k m with hlt | hge
    · obtain ⟨t, rfl, ht⟩ := h.2 k g hlt hq hf
      exact ⟨t, rfl, ht⟩
    · obtain ⟨v, t, rfl, hi, ho, hp⟩ := h.1 (hq.mono hge)
      obtain ⟨j, rfl⟩ : ∃ j, k = m + j := ⟨k - m, by omega⟩
      obtain ⟨u, e, h1, h2, h3, h4⟩ := (hn v t ho hp).2 j g (by omega)
        (by rw [hi]; exact hq.drop m (by omega)) (by rw [hi, Inputs.drop_at]; exact hf)
      exact ⟨u, e, h1, h2, h3, by rw [h4, hi, Inputs.drop_drop, Nat.add_assoc]⟩

theorem Counted.of_eq {m n : Nat} {r : Ran α} (h : Counted o s m r) (e : m = n) : Counted o s n r := e ▸ h

/-- One primitive. -/
theorem Counted.primitive {rmw : Option ChipId} {least : Nat} {act : Draw → State → Ran α} (ho : s.busOwner = some o)
    (hact : (s.inputs.at 0).ok = true → ∃ v t, act (s.inputs.at 0) (s.tick least) = .done v t ∧
      t.inputs = s.inputs.rest ∧ t.busOwner = some o ∧ t.params = s.params) :
    Counted o s 1 (Machine.primitive rmw least act s) := by
  refine ⟨fun hq => ?_, fun k g hk _ hf => ?_⟩
  · obtain ⟨hk, hf⟩ := hq 0 (by omega)
    rw [primitive_alone hf, ← Inputs.rest_eq_drop]
    exact hact hk
  · obtain rfl : k = 0 := by omega
    refine ⟨((s.foreignCall g (s.inputs.at 0)).dropDraw).raiseFatal .race (.race (some o) g), ?_, ?_⟩
    · simp only [Machine.primitive, hf, ho, Option.isSome_some, Bool.true_or, if_true, fatal]
    simp [ho, State.dropDraw, Inputs.rest_eq_drop]

theorem counted_delayUs (ho : s.busOwner = some o) (d : Nat) : Counted o s 1 (delayUs d s) :=
  .primitive ho fun _ => ⟨_, _, rfl, rfl, ho, rfl⟩

theorem counted_busWriteCall (ho : s.busOwner = some o) {a : BusAddr} {c : ChipId} (ha : chipAt s.params a = some c)
    {reg : Byte} {r : ChipReg} (hr : regAt s.params reg = some r) (rmw : Option ChipId) (v : Byte)
    {next : Bool → State → Ran Unit} (hn : ∀ t, next true t = .done () t) :
    Counted o s 1 ((busWriteCall rmw a reg v s).andThen next) := by
  have key : Counted o s 1 ((busWriteCall rmw a reg v s)) := by
    simp only [busWriteCall, ha, hr]
    refine .primitive ho fun hk => ⟨_, _, rfl, ?_, ?_, ?_⟩
    · cases c <;> simp [hk, State.chipWrite]
    · cases c <;> simp [hk, State.chipWrite, ho]
    · cases c <;> simp [hk, State.chipWrite]
  refine ⟨fun hq => ?_, fun k g hk hq hf => ?_⟩
  · obtain ⟨h1, h2⟩ := hq 0 (by omega)
    obtain ⟨v', t, e, h3⟩ := key.1 hq
    have hv : v' = true := by
      simp only [busWriteCall, ha, hr, primitive_alone h2, h1] at e
      cases e; rfl
    exact ⟨(), t, by rw [e, hv, Ran.done_andThen, hn], h3⟩
  · obtain ⟨t, e, h⟩ := key.2 k g hk hq hf
    exact ⟨t, by rw [e, Ran.stopped_andThen], h⟩

theorem counted_regWrite (ho : s.busOwner = some o) {a : BusAddr} {c : ChipId} (ha : chipAt s.params a = some c)
    (rmw : Option ChipId) (v : Byte) : Counted o s 1 (regWrite rmw a v s) :=
  counted_busWriteCall ho ha (regAt_gpio _) rmw v fun _ => rfl

theorem counted_regRead (ho : s.busOwner = some o) {a : BusAddr} {c : ChipId} (ha : chipAt s.params a = some c) :
    Counted o s 1 (regRead a s) := by
  refine ⟨fun hq => ?_, fun k g hk _ hf => ?_⟩
  · obtain ⟨h1, h2⟩ := hq 0 (by omega)
    exact ⟨_, _, regRead_ok ha h1 h2, by simp [Inputs.rest_eq_drop], by simp [ho], by simp⟩
  · obtain rfl : k = 0 := by omega
    refine ⟨((s.foreignCall g (s.inputs.at 0)).dropDraw).raiseFatal .race (.race (some o) g), ?_, ?_⟩
    · simp only [regRead, busReadCall, ha, regAt_gpio, Machine.primitive, hf, ho, Option.isSome_some, Bool.true_or, if_true,
        fatal, Ran.stopped_andThen]
    simp [ho, State.dropDraw, Inputs.rest_eq_drop]

theorem counted_setBits (ho : s.busOwner = some o) {a : BusAddr} {c : ChipId} (ha : chipAt s.params a = some c)
    (m : Byte) : Counted o s 2 (setBits a m s) :=
  (counted_regRead ho ha).andThen fun _ _ ho' hp => counted_regWrite ho' (hp ▸ ha) _ _

theorem counted_clearBits (ho : s.busOwner = some o) {a : BusAddr} {c : ChipId} (ha : chipAt s.params a = some c)
    (m : Byte) : Counted o s 2 (clearBits a m s) :=
  (counted_regRead ho ha).andThen fun _ _ ho' hp => counted_regWrite ho' (hp ▸ ha) _ _

theorem counted_configureDirection (ho : s.busOwner = some o) (hin : o = .lcdInit ∨ o = .keypadInit)
    (hw : s.params.distinct) {a : BusAddr} {c : ChipId} (ha : chipAt s.params a = some c) (m : Byte) :
    Counted o s 1 (configureDirection a m s) := by
  have : s.insideInit = true := by rcases hin with rfl | rfl <;> simp [State.insideInit, ho]
  rw [configureDirection, if_pos this]
  exact counted_busWriteCall ho ha (regAt_dir hw) none m fun _ => rfl

theorem counted_repeat {n : Nat} {op : State → Ran Unit}
    (h : ∀ t : State, t.busOwner = some o → Counted o t n (op t)) (ho : s.busOwner = some o) (count : Nat) :
    Counted o s (n * count) (repeatOp op count s) := by
  induction count generalizing s with
  | zero => exact .done () rfl ho rfl
  | succ k ih => exact ((h s ho).andThen fun _ _ ho' _ => ih ho').of_eq (by rw [Nat.mul_succ, Nat.add_comm])

/-! ## The LCD driver -/

theorem counted_writeNibble (ho : s.busOwner = some o) (rs : Bool) (n : Nibble) : Counted o s 11 (writeNibble rs n s) :=
  ((counted_clearBits ho (chipAt_lcd _) _).andThen fun _ _ ho _ => (counted_setBits ho (chipAt_lcd _) _).andThen
    fun _ _ ho _ => (counted_delayUs ho _).andThen fun _ _ ho _ => (counted_setBits ho (chipAt_lcd _) _).andThen
    fun _ _ ho _ => (counted_delayUs ho _).andThen fun _ _ ho _ => (counted_clearBits ho (chipAt_lcd _) _).andThen
    fun _ _ ho _ => counted_delayUs ho _ : Counted o s (2 + (2 + (1 + (2 + (1 + (2 + 1)))))) _)

theorem counted_sendByte (ho : s.busOwner = some o) (rs : Bool) (b : Byte) : Counted o s 22 (sendByte rs b s) :=
  (counted_writeNibble ho _ _).andThen fun _ _ ho _ => counted_writeNibble ho _ _

theorem counted_sendText (ho : s.busOwner = some o) (text : List Char) :
    Counted o s (22 * text.length) (sendText text s) := by
  induction text generalizing s with
  | nil => exact .done () rfl ho rfl
  | cons c t ih =>
    refine (Counted.andThen (m := 22) ?_ fun _ _ ho' _ => ih ho').of_eq (by rw [List.length_cons]; omega)
    split
    · exact counted_sendByte ho _ _
    · exact counted_sendByte ho _ _

theorem counted_writeString (ho : s.busOwner = some o) {text : List Char} (h : ValidText text) :
    Counted o s (22 * text.length) (writeStringBody text s) := by
  rw [writeStringBody, validate_ok h, Ran.done_andThen]
  exact counted_sendText ho text

theorem digit_valid {d : Nat} (h : d < 10) : ValidText [digitChar d] := by
  have : ∀ d : Fin 10, ValidText [digitChar d.val] := by decide +kernel
  exact this ⟨d, h⟩

theorem counted_writeDigits (ho : s.busOwner = some o) {ds : List Nat} (h : ∀ d ∈ ds, d < 10) :
    Counted o s (22 * ds.length) (writeDigits ds s) := by
  induction ds generalizing s with
  | nil => exact .done () rfl ho rfl
  | cons d ds ih =>
    exact ((counted_writeString ho (digit_valid (h d (by simp)))).andThen fun _ _ ho' _ =>
      ih ho' fun x hx => h x (by simp [hx])).of_eq (by simp only [List.length_cons, List.length_nil]; omega)

theorem decimalDigits_lt (v k : Nat) : ∀ d ∈ decimalDigits v k, d < 10 := by
  induction k with
  | zero => intro d h; cases h
  | succ k ih =>
    intro d h
    rcases List.mem_cons.1 h with rfl | h
    · exact Nat.mod_lt _ (by decide)
    · exact ih d h

theorem counted_clearDisplay (ho : s.busOwner = some o) : Counted o s 23 (clearDisplayBody s) :=
  (counted_sendByte ho _ _).andThen fun _ _ ho _ => counted_delayUs ho _

theorem counted_lcdInit (ho : s.busOwner = some .lcdInit) (hw : s.params.distinct) :
    Counted .lcdInit s 79 (lcdInitBody s) := by
  have step1 : Counted .lcdInit s 2 (initStep1 s) := by
    refine Counted.andThen (m := 1) (n := 1) (counted_delayUs ho _) fun _ t ho hp => ?_
    exact Counted.andThen (n := 0) (counted_configureDirection ho (.inl rfl) (hp ▸ hw) (chipAt_lcd _) _)
      fun _ u ho _ => Counted.done (t := u.enterPhase .pinsConfigured) () rfl ho rfl
  have step2 : ∀ t : State, t.busOwner = some .lcdInit → Counted .lcdInit t 11 (initStep2 t) := fun t ho =>
    Counted.andThen (n := 0) (counted_writeNibble ho _ _)
      fun _ u ho _ => Counted.done (t := u.enterPhase .functionSetPhase1) () rfl ho rfl
  have send : ∀ (t : State) (b : Byte) (p : LcdPhase), t.busOwner = some .lcdInit →
      Counted .lcdInit t 22 ((sendCommand b t).andThen fun _ u => .done () (u.enterPhase p)) := fun t b p ho =>
    Counted.andThen (n := 0) (counted_sendByte ho _ _) fun _ u ho _ =>
      Counted.done (t := u.enterPhase p) () rfl ho rfl
  exact step1.andThen fun _ _ ho _ => (step2 _ ho).andThen fun _ _ ho _ => (send _ _ _ ho).andThen fun _ _ ho _ =>
    (send _ _ _ ho).andThen fun _ _ ho _ => send _ _ _ ho

/-! ## The keypad scanner -/

theorem counted_column (ho : s.busOwner = some o) (hw : s.params.distinct) (c : Column)
    {next : List Row → State → Ran β} {n : Nat}
    (hn : ∀ v t, t.busOwner = some o → t.params = s.params → Counted o t n (next v t)) :
    Counted o s (columnCalls s.params + n) ((driveColumn c s).andThen fun _ t => (readRows t).andThen next) := by
  have drive : ∃ m, m + 1 = columnCalls s.params ∧ Counted o s m (driveColumn c s) := by
    cases hc : s.params.columnDrive with
    | exclusive =>
      refine ⟨1, by simp [columnCalls, hc], ?_⟩
      simp only [driveColumn, hc]
      exact counted_regWrite ho (chipAt_kp hw) _ _
    | latched =>
      refine ⟨2, by simp [columnCalls, hc], ?_⟩
      simp only [driveColumn, hc]
      exact counted_setBits ho (chipAt_kp hw) _
  obtain ⟨m, hm, hd⟩ := drive
  refine (hd.andThen fun _ t ho hp => (Counted.andThen (m := 1) (n := n) ?_ fun v u ho hp' =>
    hn v u ho (hp'.trans hp))).of_eq (by omega)
  exact (counted_regRead ho (chipAt_kp (hp ▸ hw))).andThen fun _ _ ho _ => .done _ rfl ho rfl

theorem counted_sweep (ho : s.busOwner = some o) (hw : s.params.distinct) (cs : List Column) :
    Counted o s (columnCalls s.params * cs.length) (sweep cs s) := by
  induction cs generalizing s with
  | nil => exact .done _ rfl ho rfl
  | cons c cs ih =>
    refine (counted_column ho hw c (n := columnCalls s.params * cs.length + 0) fun rs t ho' hp =>
      Counted.andThen ?_ fun ks u ho _ => .done _ rfl ho rfl).of_eq (by rw [List.length_cons, Nat.mul_succ]; omega)
    rw [← hp]
    exact ih ho' (hp ▸ hw)

theorem counted_rawScan (ho : s.busOwner = some o) (hw : s.params.distinct) :
    Counted o s (passCalls s.params) (rawScan s) :=
  (counted_sweep ho hw columns).of_eq (by rw [passCalls_eq]; show columnCalls s.params * 3 = _; omega)

end Sys2Proof.Machine
end

