-- ==== Sys2Proof/Tests/Slice0.lean ====
section
/-! SUPPORT. The model's own tests, and the witnesses of the statements' hypotheses. Expected results come from the
tables of 30_encoding and the vectors of 95_test_vectors (cited as V<n>); each runs one step on a small state. -/

namespace Sys2Proof.Tests

set_option Elab.async false

open Sys2Proof Sys2Proof.Machine

/-! ## Small states -/

/-- 95_test_vectors section 0: every transaction succeeds, every delay takes exactly its minimum. -/
def ideal (held : List Key) : Draw :=
  { ok := true, took := false, elapsed := 0, beat := none, ext := 0, lo := 0x8, held := held, foreign := none }

/-- The ideal draw, for ever. -/
def always (held : List Key) : Inputs := { upcoming := [], thereafter := ideal held }

/-- One draw, then the ideal one for ever. -/
def first (d : Draw) : Inputs := { upcoming := [d], thereafter := ideal [] }

/-- A controller as after power-on, with values where R1000 leaves them open. -/
def coldLcd : Lcd where
  dl := .eight
  phase := .hi
  pendHi := 0
  pendRs := false
  n := true
  f := false
  d := false
  c := false
  b := false
  id := true
  s := false
  ac := 0x05
  ddram := [(0x00, 0x41), (0x05, 0x42)]
  shift := 0
  busyUntil := 10000
  en := false
  rs := false
  db := 0
  tRise := none
  tLines := 0

/-- The machine as after power-on. -/
def cold : State where
  params := Params.ref
  lcdChip := { out := 0x00, dir := 0xFF }
  kpChip := { out := 0x00, dir := 0xFF }
  ctl := { lcd := coldLcd, undefined := false, epoch := 1, cells := 0, afterInit := false }
  lcdPhase := .unpowered
  kpPhase := .uninit
  trace := []
  now := 0
  fatal := none
  fatalInfo := none
  refused := false
  refusedReason := none
  busOwner := none
  scanning := none
  ret := none
  calls := []
  inputs := always []

/-- The driver ready: the interface of `Clean` (95_test_vectors section 0), with AC = 0x05 and two cells written. -/
def ready : State :=
  { cold with
    lcdChip := { out := 0x10, dir := 0x00 }
    lcdPhase := .ready
    now := 16860
    ctl := { lcd := { coldLcd with
               dl := .four, d := true, c := true, busyUntil := 16110, db := 0x1, tRise := some 14360, tLines := 14320 }
             undefined := false, epoch := 1, cells := 0, afterInit := true } }

/-- `ready` with AC elsewhere. -/
def readyAt (n : Bool) (a : DdAddr) : State := { ready with ctl := { ready.ctl with lcd := { ready.ctl.lcd with n := n, ac := a } } }

/-- An init that runs again on a controller in 4-bit mode, its pins configured (R1004), with AC = 5. -/
def rerun (n : Bool) : State :=
  { readyAt n 0x05 with lcdPhase := .pinsConfigured, ctl := { (readyAt n 0x05).ctl with afterInit := false } }

/-- `ready` with the low nibble of a byte expected (R505, R506). -/
def readyLow : State :=
  { ready with ctl := { ready.ctl with lcd := { ready.ctl.lcd with phase := .lo, pendHi := 0x4, pendRs := true } } }

/-- Initialization between its steps 1 and 2 (R701): the pins are outputs, the controller in 8-bit mode. -/
def configured : State :=
  { cold with lcdChip := { out := 0x00, dir := 0x00 }, lcdPhase := .pinsConfigured, now := 10000 }

/-- The keypad ready, with some keys held. -/
def pad (held : List Key) : State :=
  { cold with kpChip := { out := 0x00, dir := 0xF0 }, kpPhase := .ready, inputs := always held }

/-- The same, under `COLUMN_DRIVE = latched`. -/
def padLatched (held : List Key) : State := { pad held with params := { Params.ref with columnDrive := .latched } }

/-- A debounced scan's loop that will return key 5. -/
def looping (held : List Key) : State := { pad held with scanning := some .k5, busOwner := some .keypadScan }

/-- A state in which the next transport call fails. -/
def failing (s : State) : State := { s with inputs := first { ideal [] with ok := false } }

/-- The next state, if the answer is one. -/
def after (o : Host.Outcome State Fault Refusal) : Option State :=
  match o with
  | .next t => some t
  | .fault _ => none
  | .refused _ => none

/-- Some observation of the next state. -/
def sees {α : Type} (i : Instr) (s : State) (f : State → α) : Option α := (after (exec i s)).map f

/-- The last value written to a chip's GPIO register, read back from TRACE: all values, oldest first. -/
def written (s : State) : List Byte :=
  s.trace.filterMap fun e =>
    match e.call with
    | .w _ [reg, v] => if reg = 0x09 then some v else none
    | .w _ _ => none
    | .wr _ _ _ => none

/-! ## Decoding: words written out bit by bit -/

/-- R307's table, one word for each row. -/
theorem test_decode_command_words :
    decode (.cmd 0b0000000000) = .ok .nopInvalid ∧
    decode (.cmd 0b0000000001) = .ok .clearDisplay ∧
    decode (.cmd 0b0000000011) = .ok (.returnHome true) ∧
    decode (.cmd 0b0000000110) = .ok (.entryModeSet true false) ∧
    decode (.cmd 0b0000001110) = .ok (.displayControl true true false) ∧
    decode (.cmd 0b0000010100) = .ok (.cursorDisplayShift false true 0) ∧
    decode (.cmd 0b0000101010) = .ok (.functionSet false true false 2) ∧
    decode (.cmd 0b0001000101) = .ok (.setCgramAddr 0x05) ∧
    decode (.cmd 0b0011000000) = .ok (.setDdramAddr 0x40) ∧
    decode (.cmd 0b0110000001) = .ok (.readBusyAddr 0x81) ∧
    decode (.cmd 0b1001000001) = .ok (.writeData 0x41) ∧
    decode (.cmd 0b1100000010) = .ok (.readData 0x02) := by decide

/-- The fields of R307 are read from their own bits: DB4 L, DB3 N, DB2 F; DB3 S/C, DB2 R/L; DB2 D, DB1 C, DB0 B. -/
theorem test_decode_command_fields :
    decode (.cmd 0b0000110000) = .ok (.functionSet true false false 0) ∧
    decode (.cmd 0b0000100100) = .ok (.functionSet false false true 0) ∧
    decode (.cmd 0b0000011000) = .ok (.cursorDisplayShift true false 0) ∧
    decode (.cmd 0b0000001001) = .ok (.displayControl false false true) ∧
    decode (.cmd 0b0000000101) = .ok (.entryModeSet false true) ∧
    decode (.cmd 0b10000000000) = .error .wideCommandWord := by decide

/-- R304: bit 4 is RS, bits 3..0 the nibble; the word 0x02 is the row `init_nibble_8bit`. -/
theorem test_decode_nibble_words :
    decode (.nib 0b10100) = .ok (.writeNibble true 0x4) ∧
    decode (.nib 0b01111) = .ok (.writeNibble false 0xF) ∧
    decode (.nib 0b10010) = .ok (.writeNibble true 0x2) ∧
    decode (.nib 0b00010) = .ok .initNibble8bit ∧
    decode (.nib 0b100000) = .error .wideNibbleWord := by decide

/-- R301's frames; "There is no other frame". -/
theorem test_decode_frames :
    decode (.frameW 0x20 [0x09, 0x45]) = .ok (.busWrite 0x20 0x09 0x45) ∧
    decode (.frameW 0x21 [0x00, 0xF0]) = .ok (.busWrite 0x21 0x00 0xF0) ∧
    decode (.frameWR 0x21 [0x09] 1) = .ok (.busWriteRead 0x21 0x09) ∧
    decode (.frameW 0x20 [0x09]) = .error .noSuchFrame ∧
    decode (.frameW 0x20 [0x09, 0x45, 0x00]) = .error .noSuchFrame ∧
    decode (.frameWR 0x20 [0x09] 2) = .error .noSuchFrame := by decide

/-- R314's calls of the register model and the primitives. -/
theorem test_decode_register_and_primitive_calls :
    decode (.call .read [.u7 0x20]) = .ok (.read 0x20) ∧
    decode (.call .write [.u7 0x20, .u8 0x5A]) = .ok (.write 0x20 0x5A) ∧
    decode (.call .setBits [.u7 0x20, .u8 0x04]) = .ok (.setBits 0x20 0x04) ∧
    decode (.call .clearBits [.u7 0x20, .u8 0xF5]) = .ok (.clearBits 0x20 0xF5) ∧
    decode (.call .configureDirection [.u7 0x21, .u8 0xF0]) = .ok (.configureDirection 0x21 0xF0) ∧
    decode (.call .writeNibble [.bit false, .u4 0x2]) = .ok (.writeNibble false 0x2) ∧
    decode (.call .sendByte [.bit true, .u8 0x80]) = .ok (.sendByte true 0x80) ∧
    decode (.call .sendCommand [.u8 0xC0]) = .ok (.sendCommand 0xC0) ∧
    decode (.call .sendData [.u8 0x41]) = .ok (.sendData 0x41) ∧
    decode (.call .delayUs [.nat 250]) = .ok (.delay .us 250) ∧
    decode (.call .delayMs [.nat 10]) = .ok (.delay .ms 10) ∧
    decode (.call .write [.u7 0x20]) = .error (.badArguments .write) := by decide

/-- R314's calls of the LCD driver. -/
theorem test_decode_lcd_calls :
    decode (.call .lcdInit []) = .ok .lcdInit ∧
    decode (.call .lcdPowerOn []) = .ok .lcdPowerOn ∧
    decode (.call .lcdPowerOff []) = .ok .lcdPowerOff ∧
    decode (.call .lcdDisplayGreeting []) = .ok .lcdDisplayGreeting ∧
    decode (.call .lcdWriteString [.text ['H', 'I']]) = .ok (.lcdWriteString ['H', 'I']) ∧
    decode (.call .lcdWriteU32 [.u32 42]) = .ok (.lcdWriteU32 42) ∧
    decode (.call .lcdWriteU8 [.u8 7]) = .ok (.lcdWriteU8 7) ∧
    decode (.call .lcdBackspace [.nat 2]) = .ok (.lcdBackspace 2) ∧
    decode (.call .lcdClearDisplay []) = .ok .lcdClearDisplay ∧
    decode (.call .lcdShiftCursor [.dir .left, .nat 1]) = .ok (.lcdShiftCursor .left 1) ∧
    decode (.call .lcdNewline []) = .ok .lcdNewline ∧
    decode (.call .lcdWriteChar [.char 'A']) = .ok (.lcdWriteChar 'A') := by decide

/-- R314's calls of the keypad scanner. -/
theorem test_decode_keypad_calls :
    decode (.call .keypadInit []) = .ok .keypadInit ∧
    decode (.call .keypadDriveColumn [.col .c2]) = .ok (.keypadDriveColumn .c2) ∧
    decode (.call .keypadReadRows []) = .ok .keypadReadRows ∧
    decode (.call .keypadRawScan []) = .ok .keypadRawScan ∧
    decode (.call .keypadScan []) = .ok .keypadScan ∧
    decode (.call .keypadScanSet []) = .ok .keypadScanSet := by decide

/-! ## WellFormed refuses ill-formed terms -/

/-- `send_data` takes a code of 0x00..0x7F (R605). -/
theorem smoke_send_data :
    (Instr.sendData 0x7F).wellFormed = true ∧ (Instr.sendData 0x80).wellFormed = false ∧
    decode (.call .sendData [.u8 0x80]) = .error .operandOutOfRange := by decide

/-- `write_char` takes a 7-bit character other than the newline (R713). -/
theorem smoke_write_char :
    (Instr.lcdWriteChar '~').wellFormed = true ∧ (Instr.lcdWriteChar '\n').wellFormed = false ∧
    (Instr.lcdWriteChar (Char.ofNat 0xE9)).wellFormed = false ∧
    decode (.call .lcdWriteChar [.char '\n']) = .error .operandOutOfRange := by decide

/-- The parameters' constraints (R12, R13): equal addresses, equal register indices, a shared pin. -/
theorem smoke_params :
    Params.ref.distinct ∧ ¬ ({ Params.ref with kpAddr := 0x20 } : Params).distinct ∧ ¬ ({ Params.ref with regDir := 0x09 } : Params).distinct ∧
    ¬ ({ Params.ref with pinEN := 0 } : Params).distinct ∧ ¬ ({ Params.ref with pinR4 := 0 } : Params).distinct := by decide

/-- GREETING's constraint (R12, R722): two newlines are too many. -/
theorem smoke_greeting :
    Params.ref.wf ∧ ¬ ({ Params.ref with greeting := ['A', '\n', 'B', '\n'] } : Params).wf := by decide +kernel

/-- M_COLS of the reference pins (R12, R13). -/
theorem test_cols_mask : colsMask Params.ref = 0x07 := by decide

/-- The canonical form of DDRAM: an unsorted and a repeating list are refused. -/
theorem smoke_memory :
    Memory.wf [(0, 1), (5, 2)] ∧ ¬ Memory.wf [(5, 2), (0, 1)] ∧ ¬ Memory.wf [(5, 2), (5, 1)] := by decide

/-! ## F-BUS (V1 to V14) -/

/-- The chips' registers and what the call returned. -/
def chips (s : State) : Chip × Chip × Option RetVal × Nat := (s.lcdChip, s.kpChip, s.ret, s.trace.length)

/-- R400: the frame `W-GPIO(0x20, 0x5A)`. -/
theorem test_bus_write :
    sees (.busWrite 0x20 0x09 0x5A) configured chips =
      some ({ out := 0x5A, dir := 0x00 }, { out := 0x00, dir := 0xFF }, some (.transport true), 1) := by decide +kernel

/-- R402: a failed frame that did not take the value returns `Err` and raises nothing. -/
theorem test_bus_write_fails :
    sees (.busWrite 0x20 0x09 0x5A) (failing configured) (fun t => (t.lcdChip.out, t.ret, t.fatal)) =
      some (0x00, some (.transport false), none) := by decide +kernel

/-- R401: `WR-GPIO(0x21)` with key 5 held and column C2 high (V8's value). -/
theorem test_bus_write_read :
    sees (.busWriteRead 0x21 0x09) { pad [.k5] with kpChip := { out := 0x02, dir := 0xF0 } } State.ret =
      some (some (.transportRead (some 0x22))) := by decide +kernel

/-- V8. -/
theorem test_read : sees (.read 0x21) { pad [.k5] with kpChip := { out := 0x02, dir := 0xF0 } } State.ret =
    some (some (.byte 0x22)) := by decide +kernel

/-- V13: a foreign target. -/
theorem test_write_foreign : sees (.write 0x22 0x00) ready (fun t => (t.refused, t.refusedReason, t.trace)) =
    some (true, some .foreignTarget, []) := by decide +kernel

/-- V2. -/
theorem test_write : sees (.write 0x20 0x5A) cold (fun t => (t.lcdChip.out, t.trace.map TraceEntry.call)) =
    some (0x5A, [.w 0x20 [0x09, 0x5A]]) := by decide +kernel

/-- V9: the row bit read is copied into OUT. -/
theorem test_set_bits :
    sees (.setBits 0x21 0x04) { pad [.k5] with kpChip := { out := 0x03, dir := 0xF0 } }
      (fun t => (t.kpChip.out, t.trace.map TraceEntry.call)) =
    some (0x27, [.wr 0x21 [0x09] [0x23], .w 0x21 [0x09, 0x27]]) := by decide +kernel

/-- V12: the read fails, nothing is written. -/
theorem test_set_bits_read_fails :
    sees (.setBits 0x20 0x04) (failing { configured with lcdChip := { out := 0x41, dir := 0 } })
      (fun t => (t.lcdChip.out, t.trace.length, t.fatal)) = some (0x41, 1, some .bus) := by decide +kernel

/-- V6: the bits outside M_LCD_ALL are kept. -/
theorem test_clear_bits :
    sees (.clearBits 0x20 0xF5) { configured with lcdChip := { out := 0xFF, dir := 0 } } (fun t => t.lcdChip.out) =
      some 0x0A := by decide +kernel

/-- V1, the call as `lcd.init` makes it. -/
theorem test_configure_direction :
    sees (.configureDirection 0x20 0x00) { cold with busOwner := some .lcdInit } (fun t => (t.lcdChip.dir, t.trace.map TraceEntry.call)) =
      some (0x00, [.w 0x20 [0x00, 0x00]]) := by decide +kernel

/-- V14: refused other than from an init, while Unpowered too. -/
theorem test_configure_direction_outside :
    sees (.configureDirection 0x20 0x00) ready (fun t => (t.refusedReason, t.trace)) =
      some (some .directionOutsideInit, []) ∧
    sees (.configureDirection 0x20 0x00) cold (fun t => (t.refusedReason, t.trace)) =
      some (some .directionOutsideInit, []) := by decide +kernel

/-! ## F-CMD (V20 to V40) -/

/-- V37. -/
theorem test_nop_invalid : sees .nopInvalid ready (fun t => t.ctl.undefined) = some true := by decide +kernel

/-- V24. -/
theorem test_clear_display :
    sees .clearDisplay (readyAt true 0x45)
      (fun t => (t.ctl.lcd.ac, t.ctl.lcd.ddram.read 0x67, t.ctl.lcd.ddram.read 0x28, t.ctl.lcd.busyUntil)) =
      some (0x00, some 0x20, none, 16860 + 1520) := by decide +kernel

/-- V40. -/
theorem test_return_home :
    sees (.returnHome false) (readyAt true 0x45) (fun t => (t.ctl.lcd.ac, t.ctl.lcd.ddram, t.ctl.lcd.busyUntil)) =
      some (0x00, [(0x00, 0x41), (0x05, 0x42)], 16860 + 1520) := by decide +kernel

/-- V23, with the other values: I = 0, S = 1. -/
theorem test_entry_mode_set :
    sees (.entryModeSet false true) ready (fun t => (t.ctl.lcd.id, t.ctl.lcd.s)) = some (false, true) := by decide +kernel

/-- V22. -/
theorem test_display_control :
    sees (.displayControl true true false) ready (fun t => (t.ctl.lcd.d, t.ctl.lcd.c, t.ctl.lcd.b, t.ctl.lcd.busyUntil)) =
      some (true, true, false, 16860 + 37) := by decide +kernel

/-- V28. -/
theorem test_cursor_shift_wraps :
    sees (.cursorDisplayShift false false 0) (readyAt true 0x00) (fun t => t.ctl.lcd.ac) = some 0x67 := by decide +kernel

/-- V39. -/
theorem test_display_shift :
    sees (.cursorDisplayShift true false 0) ready (fun t => (t.ctl.lcd.shift.val, t.ctl.lcd.ac)) =
      some (1, 0x05) := by decide +kernel

/-- V20: the 8-bit mode's Function set with the drawn low bits N = 1, F = 0. -/
theorem test_function_set :
    sees (.functionSet false true false 0) configured (fun t => (t.ctl.lcd.dl, t.ctl.lcd.phase, t.ctl.lcd.n, t.ctl.lcd.f)) =
      some (.four, .hi, true, false) := by decide +kernel

/-- V35: L = 1 from 4-bit mode. R530: after init, 0x28 again. R1004 (a): in an init that runs again, 0x22 sets N = 0. -/
theorem test_function_set_back :
    sees (.functionSet true true false 0) (rerun true) (fun t => t.ctl.undefined) = some true ∧
    sees (.functionSet false true false 0) ready (fun t => t.ctl.undefined) = some true ∧
    sees (.functionSet false false false 2) (rerun true) (fun t => (t.ctl.lcd.n, t.ctl.undefined)) =
      some (false, false) := by decide +kernel

/-- V36. -/
theorem test_set_cgram_addr : sees (.setCgramAddr 0) ready (fun t => t.ctl.undefined) = some true := by decide +kernel

/-- V25. -/
theorem test_set_ddram_addr :
    sees (.setDdramAddr 0x40) ready (fun t => (t.ctl.lcd.ac, t.ctl.undefined)) = some (0x40, false) := by decide +kernel

/-- V38; R312: an address the N = 1 map lacks, under N = 0; R1004 (a): under N = 0, 0x80 runs and 0xE0 sets the mark.
R530: after init, 0x80. -/
theorem test_set_ddram_addr_illegal :
    sees (.setDdramAddr 0x28) (rerun true) (fun t => t.ctl.undefined) = some true ∧
    sees (.setDdramAddr 0x28) (rerun false) (fun t => t.ctl.undefined) = some true ∧
    sees (.setDdramAddr 0x00) (rerun false) (fun t => (t.ctl.lcd.ac, t.ctl.undefined)) = some (0x00, false) ∧
    sees (.setDdramAddr 0x60) (rerun false) (fun t => t.ctl.undefined) = some true ∧
    sees (.setDdramAddr 0x00) ready (fun t => t.ctl.undefined) = some true := by decide +kernel

/-- R530: a read instruction sets LCD_UNDEFINED. -/
theorem test_read_busy_addr : sees (.readBusyAddr 0) ready (fun t => t.ctl.undefined) = some true := by decide +kernel

/-- V31. -/
theorem test_write_data :
    sees (.writeData 0x41) (readyAt true 0x67) (fun t => (t.ctl.lcd.ddram.read 0x67, t.ctl.lcd.ac)) =
      some (some 0x41, 0x00) := by decide +kernel

/-- V33. -/
theorem test_write_data_one_line :
    sees (.writeData 0x41) (readyAt false 0x4F) (fun t => (t.ctl.lcd.ddram.read 0x4F, t.ctl.lcd.ac)) =
      some (some 0x41, 0x00) := by decide +kernel

/-- R530: a read instruction sets LCD_UNDEFINED. -/
theorem test_read_data : sees (.readData 0) ready (fun t => t.ctl.undefined) = some true := by decide +kernel

/-! ## Enable timing (V41 to V48), on one edge of the controller -/

/-- V42: an address setup of 39 us; V41: of 40. -/
theorem test_address_setup :
    (Controller.rise 39 cold.ctl).undefined = true ∧
    (Controller.rise 40 cold.ctl).undefined = false := by decide +kernel

/-- V43: a pulse of 229 us; V41: of 230. V47 and V48: a fall before, and at, `busy_until`. -/
theorem test_pulse_width_and_busy :
    fallViolates 20229 { coldLcd with tRise := some 20000 } = true ∧
    fallViolates 20230 { coldLcd with tRise := some 20000 } = false ∧
    fallViolates 9999 { coldLcd with tRise := some 9000 } = true ∧
    fallViolates 10000 { coldLcd with tRise := some 9000 } = false := by decide

/-! ## F-NIB (V50 to V58) -/

/-- V50's trace and times. -/
theorem test_write_nibble :
    sees (.writeNibble true 0x4) { ready with lcdChip := { out := 0x00, dir := 0 } }
      (fun t => (written t, t.trace.map TraceEntry.time, t.now)) =
      some ([0x00, 0x41, 0x45, 0x41],
        [16860, 16860, 16860, 16860, 16900, 16900, 17130, 17130], 17400) := by decide +kernel

/-- V52: the unused bits 0x0A are kept. -/
theorem test_write_nibble_unused :
    sees (.writeNibble false 0xF) { ready with lcdChip := { out := 0x0A, dir := 0 } } written =
      some [0x0A, 0xFA, 0xFE, 0xFA] := by decide +kernel

/-- V54's bytes, from the lines of `ready`; V25's address. -/
theorem test_send_byte :
    sees (.sendByte false 0xC0) ready (fun t => (written t, t.ctl.lcd.ac, t.ctl.undefined)) =
      some ([0x00, 0xC0, 0xC4, 0xC0, 0x00, 0x00, 0x04, 0x00], 0x40, false) := by decide +kernel

/-- V56: cursor right. -/
theorem test_send_command :
    sees (.sendCommand 0x14) ready (fun t => (written t, t.ctl.lcd.ac)) =
      some ([0x00, 0x10, 0x14, 0x10, 0x00, 0x40, 0x44, 0x40], 0x06) := by decide +kernel

/-- V53. -/
theorem test_send_data :
    sees (.sendData 0x41) ready (fun t => (written t, t.ctl.lcd.ddram.read 0x05, t.ctl.lcd.ac)) =
      some ([0x00, 0x41, 0x45, 0x41, 0x00, 0x11, 0x15, 0x11], some 0x41, 0x06) := by decide +kernel

/-- V20 through the driver: the low bits drawn are 0x8. -/
theorem test_init_nibble :
    sees .initNibble8bit configured
      (fun t => (written t, t.ctl.lcd.dl, t.ctl.lcd.n, t.ctl.lcd.f, t.lcdPhase)) =
      some ([0x00, 0x20, 0x24, 0x20], .four, true, false, .functionSetPhase1) := by decide +kernel

/-! ## F-OP: the LCD (V70 to V105) -/

/-- The init trace of 95_test_vectors section 2.4 ends in `Boot`. -/
theorem test_lcd_init :
    sees .lcdInit cold (fun t => (t.now, t.trace.length, t.lcdChip, t.lcdPhase, t.ctl.undefined)) =
      some (13780, 57, { out := 0x60, dir := 0x00 }, .ready, false) := by decide +kernel

/-- V114's second write: EN, driven high at 10000, is lowered at once. -/
theorem test_enable_lowered_at_once :
    sees (.write 0x20 0x00)
        { configured with
          lcdChip := { out := 0x04, dir := 0x00 }
          ctl := { configured.ctl with lcd := { coldLcd with en := true, tRise := some 10000 } } }
        (fun t => t.ctl.undefined) = some true := by decide +kernel

/-- V101: command 0x0E. -/
theorem test_lcd_power_on :
    sees .lcdPowerOn ready (fun t => (t.ctl.lcd.d, t.ctl.lcd.c, t.ctl.lcd.b, t.trace.length)) =
      some (true, true, false, 16) := by decide +kernel

/-- V100: command 0x0A. -/
theorem test_lcd_power_off :
    sees .lcdPowerOff ready (fun t => (t.ctl.lcd.d, t.shown 0 0, t.lcdPhase)) = some (false, none, .ready) := by
  decide +kernel

/-- R121, R3: the display is 2 lines of 16 places; the cursor is at AC's place. -/
theorem test_shown :
    ready.shown 0 5 = some 0x42 ∧ ready.shown 0 16 = none ∧ ready.shown 2 0 = none ∧
    ready.cursorShown 0 5 = true ∧ ready.cursorShown 0 4 = false := by decide +kernel

/-- V102: "HELLO" at 0x00..0x04, AC = 0x05. -/
theorem test_lcd_display_greeting :
    sees .lcdDisplayGreeting ready
      (fun t => (t.ctl.lcd.ac, [0, 1, 2, 3, 4, 5].map t.ctl.lcd.ddram.read, t.trace.length)) =
      some (0x05, [some 0x48, some 0x45, some 0x4C, some 0x4C, some 0x4F, some 0x20], 96) := by decide +kernel

/-- V79's text, from AC = 0x00. -/
theorem test_lcd_write_string :
    sees (.lcdWriteString ['A', 'B', '\n', 'C', 'D']) (readyAt true 0x00)
      (fun t => (t.ctl.lcd.ac, [0, 1, 0x40, 0x41].map t.ctl.lcd.ddram.read)) =
      some (0x42, [some 0x41, some 0x42, some 0x43, some 0x44]) := by decide +kernel

/-- V76: the newline check comes before the length check. -/
theorem test_lcd_write_string_bad :
    sees (.lcdWriteString ("0123456789ABCDEFG\n\n".toList)) ready (fun t => (t.fatal, t.trace)) =
      some (some .cvNewlines, []) := by decide +kernel

/-- V96: the low five digits. -/
theorem test_lcd_write_u32 :
    sees (.lcdWriteU32 4294967295) (readyAt true 0x00)
      (fun t => (t.ctl.lcd.ac, [0, 1, 2, 3, 4].map t.ctl.lcd.ddram.read)) =
      some (0x05, [some 0x36, some 0x37, some 0x32, some 0x39, some 0x35]) := by decide +kernel

/-- V98. -/
theorem test_lcd_write_u8 :
    sees (.lcdWriteU8 7) (readyAt true 0x00) (fun t => (t.ctl.lcd.ac, [0, 1, 2].map t.ctl.lcd.ddram.read)) =
      some (0x03, [some 0x30, some 0x30, some 0x37]) := by decide +kernel

/-- V91: from line 2's start to line 1's last cell. -/
theorem test_lcd_backspace :
    sees (.lcdBackspace 1) (readyAt true 0x40) (fun t => (t.ctl.lcd.ac, t.ctl.lcd.ddram.read 0x27, t.trace.length)) =
      some (0x27, some 0x20, 48) := by decide +kernel

/-- V103: 1080 + 2000 us. -/
theorem test_lcd_clear_display :
    sees .lcdClearDisplay ready (fun t => (t.ctl.lcd.ac, t.ctl.lcd.ddram.read 0x05, t.now, t.lcdChip.out)) =
      some (0x00, some 0x20, 16860 + 3080, 0x10) := by decide +kernel

/-- V84. -/
theorem test_lcd_shift_cursor :
    sees (.lcdShiftCursor .left 1) (readyAt true 0x00) (fun t => t.ctl.lcd.ac) = some 0x67 := by decide +kernel

/-- V86: no call. -/
theorem test_lcd_shift_cursor_zero :
    sees (.lcdShiftCursor .right 0) ready (fun t => (t.ctl.lcd.ac, t.trace, t.ret)) = some (0x05, [], some .unit) := by
  decide +kernel

/-- V78: AC = 0x40. -/
theorem test_lcd_newline : sees .lcdNewline ready (fun t => t.ctl.lcd.ac) = some 0x40 := by decide +kernel

/-- V73's character, at 0x10. -/
theorem test_lcd_write_char :
    sees (.lcdWriteChar 'G') (readyAt true 0x10) (fun t => (t.ctl.lcd.ddram.read 0x10, t.ctl.lcd.ac)) =
      some (some 0x47, 0x11) := by decide +kernel

/-- V104: refused before `lcd.init`. -/
theorem test_lcd_not_ready :
    sees (.lcdWriteString ['A']) cold (fun t => (t.refused, t.refusedReason, t.trace)) =
      some (true, some .notReady, []) := by decide +kernel

/-! ## F-OP: the keypad (V60 to V69c) and the timer -/

/-- P3's first call. -/
theorem test_keypad_init :
    sees .keypadInit cold (fun t => (t.kpChip, t.kpPhase, t.trace.map TraceEntry.call)) =
      some ({ out := 0x00, dir := 0xF0 }, .ready, [.w 0x21 [0x00, 0xF0]]) := by decide +kernel

/-- V60: column C2 is written as 0x02. -/
theorem test_keypad_drive_column :
    sees (.keypadDriveColumn .c2) { pad [] with kpChip := { out := 0x01, dir := 0xF0 } } (fun t => t.kpChip.out) =
      some 0x02 := by decide +kernel

/-- V66: latched, from 0x01 the write is 0x03. -/
theorem test_keypad_drive_column_latched :
    sees (.keypadDriveColumn .c2) { padLatched [.k5] with kpChip := { out := 0x01, dir := 0xF0 } } (fun t => t.kpChip.out) =
      some 0x03 := by decide +kernel

/-- V60: key 5 at column C2 reads row R2. -/
theorem test_keypad_read_rows :
    sees .keypadReadRows { pad [.k5] with kpChip := { out := 0x02, dir := 0xF0 } } State.ret =
      some (some (.rows [.r2])) := by decide +kernel

/-- V61. -/
theorem test_keypad_raw_scan :
    sees .keypadRawScan (pad [.k5]) (fun t => (t.ret, t.trace.map TraceEntry.call)) =
      some (some (.keys [.k5]),
        [.w 0x21 [0x09, 0x01], .wr 0x21 [0x09] [0x01], .w 0x21 [0x09, 0x02], .wr 0x21 [0x09] [0x22],
         .w 0x21 [0x09, 0x04], .wr 0x21 [0x09] [0x04]]) := by decide +kernel

/-- V66's second pass: latched, all columns high, the whole of row R2. -/
theorem test_keypad_raw_scan_latched :
    sees .keypadRawScan { padLatched [.k5] with kpChip := { out := 0x27, dir := 0xF0 } } State.ret =
      some (some (.keys [.k4, .k5, .k6])) := by decide +kernel

/-- E5: no key, `None` after 6 calls, the bus free. -/
theorem test_keypad_scan_none :
    sees .keypadScan (pad []) (fun t => (t.ret, t.trace.length, t.busOwner)) =
      some (some (.optKey none), 6, none) := by decide +kernel

/-- V69: with 5 and 9 held the key to return is 5. -/
theorem test_keypad_scan_first_key :
    sees .keypadScan (pad [.k9, .k5]) (fun t => (t.ret, t.scanning)) = some (none, some .k5) := by decide +kernel

/-- V62. -/
theorem test_keypad_scan_set :
    sees .keypadScanSet (pad [.k1, .k9]) State.ret = some (some (.optKeySet (some [.k1, .k9]))) := by decide +kernel

/-- V64: contention on R1 with the draw 1 reads both keys. -/
theorem test_keypad_contention :
    sees .keypadScanSet
        { pad [] with inputs := { upcoming := [], thereafter := { ideal [.k1, .k2] with ext := 0xFF } } } State.ret =
      some (some (.optKeySet (some [.k1, .k2]))) := by decide +kernel

/-- R19: `delay_ms(10)` takes 10000 us. -/
theorem test_delay : sees (.delay .ms 10) cold (fun t => (t.now, t.trace)) = some (10000, []) := by decide +kernel

/-! ## Steps -/

/-- A step runs the call placed. -/
theorem test_step_runs_the_call :
    (after (step (ready.withFetchWord 10 0b0011000000))).map (fun t => (t.ctl.lcd.ac, t.calls)) = some (0x40, []) := by
  decide +kernel

/-- V68: the loop of key 5 ends with key 5, at the first empty pass, 250 us later. -/
theorem test_step_ends_the_scan :
    (after (step (looping []))).map (fun t => (t.ret, t.busOwner, t.now)) = some (some (.optKey (some .k5)), none, 250) := by
  decide +kernel

/-- V68: while another key is held, it goes on. -/
theorem test_step_goes_on :
    (after (step (looping [.k8]))).map (fun t => (t.ret, t.scanning)) = some (none, some .k5) := by decide +kernel

/-- V111: after a fault under PANIC = halt nothing goes on. -/
theorem test_step_after_a_fault : after (step { ready with fatal := some .bus }) = none := by decide +kernel

/-- Words of the table run from reset as they decode. -/
theorem test_reset_runs_table_words :
    decodeTableWord 10 0b0000000001 = some .clearDisplay ∧ decodeTableWord 5 0b10100 = some (.writeNibble true 4) ∧
    (after (step (State.reset.withFetchWord 10 0b0000000001))).map (fun t => t.ctl.lcd.ac) = some 0x00 ∧
    (after (step (State.reset.withFetchWord 5 0b10100))).map (fun t => t.refusedReason) = some (some .notReady) := by
  decide +kernel

/-! ## Witnesses: states and operands that meet the hypotheses of the statements, clause by clause -/

/-- The ideal inputs meet no failure and no second bus user. -/
theorem quiet (held : List Key) (n : Nat) : (always held).Quiet n := fun _ _ => ⟨rfl, rfl⟩

/-- One draw, whatever it is but a failure or a second bus user, then ideal ones. -/
theorem alone (held : List Key) : (always held).Alone := ⟨(fun _ h => by cases h), rfl⟩

theorem ref_wf : Params.ref.distinct := by decide

theorem cold_is_cold : cold.Cold :=
  { params := by decide, phase := rfl, eightBit := rfl, enableLow := by decide, viewEn := rfl, lines := by decide
    cycle := by intro tr h; cases h
    busy := by decide, defined := rfl, running := by decide, free := by decide }

theorem wired_of (l : Lcd) (h : l.en = false ∧ l.rs = false ∧ l.db = 0x1 ∧ l.tLines = 14320 ∧ l.tRise = some 14360) :
    ({ ready with ctl := { ready.ctl with lcd := l } } : State).Wired :=
  { params := ref_wf, outputs := rfl, enableLow := (by decide : (0x10 : Byte).getLsbD 2 = false), viewEn := h.1
    viewRs := h.2.1.trans (by decide : false = (0x10 : Byte).getLsbD 0)
    viewDb := h.2.2.1.trans (by decide : (0x1 : Nibble) = dataNibble Params.ref 0x10)
    lines := h.2.2.2.1.trans_le (by decide : 14320 ≤ 16860)
    cycle := by
      intro tr e
      obtain rfl : 14360 = tr := Option.some.inj (h.2.2.2.2.symm.trans e)
      exact (by decide : 14360 + 500 ≤ 16860)
    defined := rfl }

theorem readyAt_is_ready (n : Bool) (a : DdAddr) : (readyAt n a).LcdReady :=
  { wired_of _ ⟨rfl, rfl, rfl, rfl, rfl⟩ with
    busy := (by decide : 16110 ≤ 16860), running := ⟨rfl, rfl⟩, free := ⟨rfl, rfl⟩
    phase := rfl, fourBit := ⟨rfl, rfl⟩ }

theorem ready_is_ready : ready.LcdReady := readyAt_is_ready true 0x05

theorem readyAt_cleared (a : DdAddr) (h : legalAddr true a = true) : (readyAt true a).Cleared :=
  { unshifted := rfl, increments := rfl, noShift := rfl, twoLines := rfl, legal := h }

theorem ready_cleared : ready.Cleared := readyAt_cleared 0x05 (by decide)

theorem readyLow_is_settled : readyLow.Settled :=
  { wired_of _ (by decide) with busy := by decide }

/-- 8-bit mode, in `ready`'s interface. -/
def readyEight : State := { ready with ctl := { ready.ctl with lcd := { ready.ctl.lcd with dl := .eight } } }

theorem readyEight_is_settled : readyEight.Settled := { wired_of _ (by decide) with busy := by decide }

theorem configured_is_settled : configured.Settled :=
  { params := by decide, outputs := rfl, enableLow := by decide, viewEn := rfl, viewRs := by decide, viewDb := by decide
    lines := by decide
    cycle := by intro tr h; cases h
    defined := rfl, busy := by decide }

theorem pad_is_ready (held : List Key) : (pad held).KeypadReady :=
  { params := ref_wf, running := ⟨rfl, rfl⟩, free := ⟨rfl, rfl⟩, phase := rfl
    dir := (by decide : (0xF0 : Byte) = rowsMask Params.ref) }

theorem padLatched_is_ready (held : List Key) : (padLatched held).KeypadReady :=
  { params := (ref_wf :), running := ⟨rfl, rfl⟩, free := ⟨rfl, rfl⟩, phase := rfl
    dir := (by decide : (0xF0 : Byte) = rowsMask Params.ref) }

theorem lone (k : Key) : LoneKey (ideal [k]) k := fun x => by simp [ideal]

/-- The inputs of a state are quiet for `n`, and with a second bus user in draw `k`. -/
def intruded (s : State) (k : Nat) (f : ForeignCall) : State :=
  { s with inputs := { upcoming := List.replicate k (ideal []) ++ [{ ideal [] with foreign := some f }], thereafter := ideal [] } }

/-! ### Encoding and the step -/

theorem witness_StepRunsTheDecodedCall :
    ({ ready with calls := [.cmd 0x001] } : State).Running ∧ ready.scanning = none ∧ decode (.cmd 0x001) = .ok .clearDisplay ∧
    decodeTableWord 10 0x3FF = some (.readData 0xFF) ∧ decodeTableWord 5 0x1F = some (.writeNibble true 0xF) := by decide

theorem witness_EveryCommandWordIsOneInstruction :
    decode (.cmd 0) = .ok .nopInvalid ∧ decode (.cmd 1023) = .ok (.readData 0xFF) ∧
    decode (.cmd 1024) = .error .wideCommandWord := by decide

theorem witness_DecodeOfEncode :
    (Instr.sendData 0x7F).wellFormed = true ∧ (Instr.lcdWriteChar (Char.ofNat 0x7F)).wellFormed = true ∧
    (Instr.writeNibble false 2).wellFormed = true := by decide

theorem witness_DatamaskAssertsTheNibble : Params.ref.distinct := by decide

/-! ### Reset and the controller -/

theorem witness_ResetMeetsTheInvariants :
    Params.ref.distinct ∧ Params.ref.expResetOut.getLsbD Params.ref.pinEN = false := by decide

theorem witness_AddressStepsAreInverse :
    (∀ a ∈ [0x00, 0x27, 0x40, 0x67], legalAddr true (BitVec.ofNat 7 a) = true) ∧
    (∀ a ∈ [0x00, 0x27, 0x28, 0x3F, 0x4F], legalAddr false (BitVec.ofNat 7 a) = true) := by decide

theorem witness_ClearDisplayBlanksAndHomes :
    ready.ctl.undefined = false ∧ legalAddr ready.ctl.lcd.n 0x67 = true ∧ legalAddr ready.ctl.lcd.n 0x28 = false := by decide

theorem witness_ModeInstructionsWriteTheirFields :
    ready.ctl.undefined = false ∧ legalAddr ready.ctl.lcd.n 0x27 = true ∧ legalAddr ready.ctl.lcd.n 0x40 = true ∧
    legalAddr true 0x27 = true ∧ legalAddr true 0x40 = true ∧ ready.ctl.afterInit = true ∧
    (rerun true).ctl.undefined = false ∧ (rerun true).ctl.afterInit = false ∧ legalAddr (rerun true).ctl.lcd.n 0x27 = true ∧
    (rerun false).ctl.undefined = false ∧ (rerun false).ctl.afterInit = false ∧
    legalAddr (rerun false).ctl.lcd.n 0x4F = true ∧ legalAddr true 0x4F = true := by decide

theorem witness_CursorOrDisplayShiftMovesOne :
    (readyAt true 0x67).ctl.undefined = false ∧
    legalAddr (readyAt true 0x67).ctl.lcd.n (readyAt true 0x67).ctl.lcd.ac = true ∧
    legalAddr (readyAt true 0x28).ctl.lcd.n (readyAt true 0x28).ctl.lcd.ac = false ∧
    legalAddr (readyAt false 0x50).ctl.lcd.n (readyAt false 0x50).ctl.lcd.ac = false := by decide

theorem witness_FunctionSetSetsTheMode :
    cold.ctl.undefined = false ∧ cold.ctl.afterInit = false ∧ cold.ctl.lcd.dl = .eight ∧
    (rerun true).ctl.undefined = false ∧ (rerun true).ctl.afterInit = false ∧ (rerun true).ctl.lcd.dl = .four ∧
    ready.ctl.undefined = false ∧ ready.ctl.afterInit = true := by decide

theorem witness_WriteDataStoresAtTheCursor :
    (readyAt true 0x67).ctl.undefined = false ∧
    legalAddr (readyAt true 0x67).ctl.lcd.n (readyAt true 0x67).ctl.lcd.ac = true ∧
    legalAddr (readyAt false 0x4F).ctl.lcd.n (readyAt false 0x4F).ctl.lcd.ac = true := by decide

theorem witness_MeaninglessWordsSetTheMark :
    legalAddr ready.ctl.lcd.n 0x28 = false ∧ legalAddr ready.ctl.lcd.n 0x3F = false ∧
    legalAddr ready.ctl.lcd.n 0x68 = false ∧ legalAddr (readyAt false 0).ctl.lcd.n 0x50 = false ∧
    legalAddr (rerun false).ctl.lcd.n 0x28 = true ∧ legalAddr true 0x28 = false ∧
    ready.ctl.afterInit = true ∧ legalAddr ready.ctl.lcd.n 0x00 = true ∧ (0x00 : DdAddr) ≠ 0x40 := by decide

theorem witness_UndefinedIsSticky :
    let s : State := { ready with ctl := { ready.ctl with undefined := true }, calls := [.cmd 0x001] }
    s.ctl.undefined = true ∧ ∃ t, step s = .next t := ⟨rfl, _, rfl⟩

/-! ### The transport and the register model -/

theorem witness_BusWriteActsOnItsChip :
    configured.Running ∧ chipAt configured.params 0x20 = some .lcd ∧ chipAt configured.params 0x21 = some .kp ∧
    regAt configured.params 0x09 = some .gpio ∧ regAt configured.params 0x00 = some .dir ∧
    (configured.inputs.at 0).foreign = none ∧ configured.ctl.undefined = false ∧ (failing configured).Running ∧
    ((failing configured).inputs.at 0).foreign = none ∧
    (((failing configured).inputs.at 0).ok || ((failing configured).inputs.at 0).took) = false := by decide

theorem witness_ReadsReturnThePins :
    (pad [.k5]).Running ∧ chipAt (pad [.k5]).params 0x21 = some .kp ∧ chipAt (pad [.k5]).params 0x20 = some .lcd ∧
    ((pad [.k5]).inputs.at 0).foreign = none ∧ ((pad [.k5]).inputs.at 0).ok = true := by decide

theorem witness_WriteSetsTheLatch :
    ready.Running ∧ chipAt ready.params 0x20 = some .lcd ∧ chipAt ready.params 0x21 = some .kp ∧ ready.inputs.Quiet 1 ∧
    ready.ctl.undefined = false := ⟨by decide, by decide, by decide, quiet _ _, rfl⟩

/-- From `ready` (the lines 0x10), writing 0x05 raises EN and RS together; writing 0x04 raises EN and lowers D4. -/
theorem witness_SimultaneousChangeSetsTheMark :
    ready.Running ∧ regAt ready.params 0x09 = some .gpio ∧ ready.inputs.Quiet 1 ∧ ready.ctl.undefined = false ∧
    ∀ v ∈ [0x05#8, 0x04#8, 0x15#8],
      let new := lcdLines ready.params (ready.lcdChip.set .gpio v) (ready.inputs.at 0) ready.ctl.lcd.en
      new.en ≠ ready.ctl.lcd.en ∧ (new.rs ≠ ready.ctl.lcd.rs ∨ new.db ≠ ready.ctl.lcd.db) :=
  ⟨by decide, by decide, quiet _ _, rfl, by decide +kernel⟩

theorem witness_BitOperationsReadThenWrite :
    ready.Running ∧ chipAt ready.params 0x20 = some .lcd ∧ chipAt ready.params 0x21 = some .kp ∧ ready.inputs.Quiet 2 :=
  ⟨by decide, by decide, by decide, quiet _ _⟩

/-- Inside an init, and outside one while Unpowered. -/
theorem witness_ConfigureDirectionOnlyFromInit :
    (∀ op ∈ [PublicOp.lcdInit, .keypadInit],
      let s : State := { cold with busOwner := some op }
      s.Running ∧ (s.busOwner = some .lcdInit ∨ s.busOwner = some .keypadInit) ∧
      chipAt s.params 0x20 = some .lcd ∧ chipAt s.params 0x21 = some .kp ∧ s.params.distinct ∧ s.inputs.Quiet 1) ∧
    cold.Running ∧ ¬ (cold.busOwner = some .lcdInit ∨ cold.busOwner = some .keypadInit) := by
  refine ⟨fun op h => ⟨⟨rfl, rfl⟩, ?_, (by decide : chipAt Params.ref 0x20 = _), (by decide : chipAt Params.ref 0x21 = _),
    ref_wf, quiet _ _⟩, by decide, by decide⟩
  revert op; decide

theorem witness_ForeignTargetsAreRefused :
    ready.Running ∧ chipAt ready.params 0x1F = none ∧ chipAt ready.params 0x22 = none ∧ regAt ready.params 0x01 = none ∧
    (0x00 : Byte) ≠ ready.params.regGpio ∧ ({ cold with busOwner := some .keypadInit } : State).Running ∧
    chipAt cold.params 0x22 = none := by decide

/-- The first call fails, from an init and else; and the second call fails, of two. -/
theorem witness_FailedCallsAreFatal :
    (let s : State := { failing ready with busOwner := some .lcdInit }
     s.Running ∧ (s.inputs.at 0).ok = false ∧ (s.inputs.at 0).foreign = none ∧ s.ctl.undefined = false ∧
     chipAt s.params 0x20 = some .lcd ∧ chipAt s.params 0x21 = some .kp ∧ s.params.distinct ∧
     (s.inputs.at 0).took = false ∧ s.busOwner = some .lcdInit) ∧
    let s : State := { ready with inputs := { upcoming := [ideal []], thereafter := { ideal [] with ok := false } } }
    s.Running ∧ (s.inputs.at 0).ok = true ∧ (s.inputs.at 0).foreign = none ∧ (s.inputs.at 1).foreign = none ∧
    (s.inputs.at 1).ok = false := by decide

/-- From `ready` (the lines 0x10): 0x10 changes no line, 0x14 raises EN; from `enabled`, EN was raised at 16000 and 0x10
lowers it. -/
def enabled : State :=
  { ready with
    lcdChip := { out := 0x14, dir := 0x00 }
    ctl := { ready.ctl with lcd := { ready.ctl.lcd with en := true, tRise := some 16000 } } }

/-- What the LCD chip's value 0x10 and 0x14 show: RS low, the nibble 1, EN low and high. -/
theorem witness_EnableEdgesAreTimed :
    (ready.Running ∧ regAt ready.params 0x09 = some .gpio ∧ regAt ready.params 0x00 = some .dir ∧ ready.inputs.Quiet 1 ∧
      ready.ctl.undefined = false) ∧
    (let l := lcdLines ready.params (ready.lcdChip.set .gpio 0x10) (ready.inputs.at 0) ready.ctl.lcd.en
     l.en = ready.ctl.lcd.en ∧ l.rs = ready.ctl.lcd.rs ∧ l.db = ready.ctl.lcd.db) ∧
    (let l := lcdLines ready.params (ready.lcdChip.set .gpio 0x14) (ready.inputs.at 0) ready.ctl.lcd.en
     l.rs = ready.ctl.lcd.rs ∧ l.db = ready.ctl.lcd.db ∧ ready.ctl.lcd.en = false ∧ l.en = true) ∧
    (let l := lcdLines enabled.params (enabled.lcdChip.set .gpio 0x10) (enabled.inputs.at 0) enabled.ctl.lcd.en
     enabled.Running ∧ enabled.ctl.undefined = false ∧ l.rs = enabled.ctl.lcd.rs ∧ l.db = enabled.ctl.lcd.db ∧
     enabled.ctl.lcd.en = true ∧ l.en = false ∧ enabled.ctl.lcd.tRise = some 16000 ∧ 16000 + 230 ≤ enabled.now ∧
     enabled.ctl.lcd.tLines ≤ 16000 ∧ enabled.ctl.lcd.busyUntil ≤ enabled.now ∧ enabled.FourBit) ∧
    enabled.inputs.Quiet 1 :=
  ⟨⟨by decide, by decide, by decide, quiet _ _, rfl⟩, by decide +kernel, by decide +kernel, by decide +kernel, quiet _ _⟩

theorem witness_DelayLetsTimePass : ready.Running ∧ (ready.inputs.at 0).foreign = none := by decide

/-! ### The primitives -/

theorem witness_NibbleWriteIsEightCalls :
    ready.Running ∧ ready.lcdPhase ≠ .unpowered ∧ ready.params.distinct ∧ ready.lcdChip.dir = 0 ∧ ready.inputs.Quiet 11 :=
  ⟨by decide, by decide, by decide, rfl, quiet _ _⟩

/-- The four clauses: a high nibble; a low nibble of the same RS, and of the other; 8-bit mode. -/
theorem witness_NibbleIsLatchedOnce :
    (ready.Running ∧ ready.lcdPhase ≠ .unpowered ∧ ready.Settled ∧ ready.inputs.Quiet 11 ∧ ready.FourBit) ∧
    (readyLow.Running ∧ readyLow.lcdPhase ≠ .unpowered ∧ readyLow.Settled ∧ readyLow.inputs.Quiet 11 ∧
      readyLow.ctl.lcd.dl = .four ∧ readyLow.ctl.lcd.phase = .lo ∧
      true = readyLow.ctl.lcd.pendRs ∧ false ≠ readyLow.ctl.lcd.pendRs) ∧
    (readyEight.Running ∧ readyEight.lcdPhase ≠ .unpowered ∧ readyEight.Settled ∧ readyEight.inputs.Quiet 11 ∧
      readyEight.ctl.lcd.dl = .eight) :=
  ⟨⟨by decide, by decide, ready_is_ready.toSettled, quiet _ _, by decide⟩,
   ⟨by decide, by decide, readyLow_is_settled, quiet _ _, rfl, rfl, rfl, by decide⟩,
   ⟨by decide, by decide, readyEight_is_settled, quiet _ _, rfl⟩⟩

theorem witness_SendByteExecutesItsWordOnce :
    (cold.Running ∧ cold.lcdPhase = .unpowered) ∧
    (ready.Running ∧ ready.lcdPhase ≠ .unpowered ∧ ready.Settled ∧ ready.FourBit ∧ ready.inputs.Quiet 22) :=
  ⟨by decide, by decide, by decide, ready_is_ready.toSettled, by decide, quiet _ _⟩

theorem witness_InitNibbleEntersFourBitMode :
    (configured.Running ∧ configured.lcdPhase = .pinsConfigured ∧ configured.ctl.afterInit = false ∧ configured.Settled ∧
      configured.ctl.lcd.dl = .eight ∧ configured.inputs.Quiet 11) ∧
    (cold.Running ∧ cold.lcdPhase = .unpowered) ∧
    (ready.Running ∧ ready.lcdPhase ≠ .pinsConfigured ∧ ready.lcdPhase ≠ .unpowered) :=
  ⟨⟨by decide, rfl, rfl, configured_is_settled, rfl, quiet _ _⟩, by decide, by decide⟩

/-! ### The LCD operations -/

theorem witness_InitBringsTheLcdUp : cold.Cold ∧ cold.inputs.Quiet 79 := ⟨cold_is_cold, quiet _ _⟩

theorem witness_LcdOperationsNeedTheirPhase :
    cold.Running ∧ cold.lcdPhase ≠ .ready ∧ ready.Running ∧ ready.lcdPhase ≠ .unpowered := by decide

theorem witness_ClearDisplayOperation :
    ready.LcdReady ∧ ready.inputs.Quiet 23 ∧ legalAddr ready.ctl.lcd.n 0x67 = true ∧ legalAddr ready.ctl.lcd.n 0x68 = false :=
  ⟨ready_is_ready, quiet _ _, by decide, by decide⟩

theorem witness_PowerBlanksAndRestores : ready.LcdReady ∧ ready.inputs.Quiet 22 := ⟨ready_is_ready, quiet _ _⟩

theorem witness_ShiftCursorSteps :
    (readyAt true 0x67).LcdReady ∧ (readyAt true 0x67).inputs.Quiet (22 * 3) ∧
    legalAddr (readyAt true 0x67).ctl.lcd.n (readyAt true 0x67).ctl.lcd.ac = true :=
  ⟨readyAt_is_ready _ _, quiet _ _, by decide⟩

theorem witness_NewlineAndWriteChar :
    (cold.Running ∧ cold.lcdPhase ≠ .ready) ∧
    ((readyAt true 0x27).LcdReady ∧ (readyAt true 0x27).inputs.Quiet 22 ∧ (readyAt true 0x27).Cleared) :=
  ⟨by decide, readyAt_is_ready _ _, quiet _ _, readyAt_cleared _ (by decide)⟩

/-- A line of 16 characters is the longest (V72). -/
theorem witness_WriteStringOnOneLine :
    ready.LcdReady ∧ ValidText "0123456789ABCDEF".toList ∧ newlineChar ∉ "0123456789ABCDEF".toList ∧
    ready.inputs.Quiet (22 * "0123456789ABCDEF".toList.length) ∧ ready.Cleared :=
  ⟨ready_is_ready, ⟨by decide, by decide, by decide⟩, by decide, quiet _ _, ready_cleared⟩

/-- The two parts, each at its longest (V83), from line 2: the first part then reaches cells the second overwrites. -/
theorem witness_WriteStringOnTwoLines :
    (readyAt true 0x40).LcdReady ∧ ValidText ("0123456789ABCDEF".toList ++ newlineChar :: "0123456789ABCDEF".toList) ∧
    (readyAt true 0x40).inputs.Quiet (22 * (16 + 1 + 16)) ∧ (readyAt true 0x40).Cleared :=
  ⟨readyAt_is_ready _ _, ⟨by decide, by decide, by decide⟩, quiet _ _, readyAt_cleared _ (by decide)⟩

/-- V77, V75 and V74's texts. -/
theorem witness_BadTextsStopBeforeTheBus :
    ready.LcdReady ∧ ['A', Char.ofNat 0xE9].all isSevenBit = false ∧
    ("A\nB\nC".toList.all isSevenBit = true ∧ 2 ≤ "A\nB\nC".toList.count newlineChar) ∧
    ("0123456789ABCDEFG".toList.all isSevenBit = true ∧ "0123456789ABCDEFG".toList.count newlineChar ≤ 1 ∧
      segments "0123456789ABCDEFG".toList = [] ++ "0123456789ABCDEFG".toList :: [] ∧
      16 < "0123456789ABCDEFG".toList.length) :=
  ⟨ready_is_ready, by decide, by decide, by decide⟩

theorem witness_BackspaceErases :
    (readyAt true 0x40).LcdReady ∧ (readyAt true 0x40).inputs.Quiet (66 * 2) ∧ (readyAt true 0x40).Cleared :=
  ⟨readyAt_is_ready _ _, quiet _ _, readyAt_cleared _ (by decide)⟩

theorem witness_NumbersAreWrittenInDecimal :
    ready.LcdReady ∧ ready.inputs.Quiet 110 ∧ ready.inputs.Quiet 66 ∧ ready.Cleared :=
  ⟨ready_is_ready, quiet _ _, quiet _ _, ready_cleared⟩

/-- A greeting of one line, and one of two, each part at its longest. -/
theorem witness_GreetingIsClearThenText :
    (ready.LcdReady ∧ ready.params.wf ∧ ready.inputs.Quiet (23 + 22 * ready.params.greeting.length) ∧
      newlineChar ∉ ready.params.greeting ∧ ready.ctl.lcd.n = true ∧ ready.ctl.lcd.s = false ∧
      legalAddr true 0x05 = true ∧ legalAddr true 0x67 = true) ∧
    let p : Params :=
      { Params.ref with greeting := "0123456789ABCDEF".toList ++ newlineChar :: "0123456789ABCDEF".toList }
    let s : State := { ready with params := p }
    s.LcdReady ∧ s.params.wf ∧ s.inputs.Quiet (23 + 22 * s.params.greeting.length) :=
  ⟨⟨ready_is_ready, ⟨ref_wf, by decide, by decide, by decide⟩, quiet _ _, by decide, rfl, rfl, by decide, by decide⟩,
   { ready_is_ready with params := (ref_wf :) }, ⟨ref_wf, by decide, by decide, by decide⟩, quiet _ _⟩

theorem witness_DriverKeepsTheControllerCleared :
    ready.LcdReady ∧ ready.Cleared ∧ (∀ n, ready.inputs.Quiet n) ∧ ∃ t, exec .lcdPowerOn ready = .next t :=
  ⟨ready_is_ready, ready_cleared, quiet _, _, rfl⟩

/-! ### The keypad -/

theorem witness_KeypadInitConfiguresThePins :
    cold.Running ∧ cold.BusFree ∧ cold.params.distinct ∧ cold.kpPhase = .uninit ∧ cold.inputs.Quiet 1 :=
  ⟨by decide, by decide, by decide, rfl, quiet _ _⟩

theorem witness_KeypadOperationsNeedTheirPhase :
    (pad []).Running ∧ (pad []).kpPhase ≠ .uninit ∧ cold.Running ∧ cold.kpPhase ≠ .ready := by decide

theorem witness_DriveColumnRaisesTheColumn :
    ((pad [.k5]).Running ∧ (pad [.k5]).params.distinct ∧ (pad [.k5]).params.columnDrive = .exclusive ∧ (pad [.k5]).inputs.Quiet 1) ∧
    ((padLatched [.k5]).Running ∧ (padLatched [.k5]).params.distinct ∧ (padLatched [.k5]).params.columnDrive = .latched ∧
      (padLatched [.k5]).inputs.Quiet 2) :=
  ⟨⟨by decide, by decide, rfl, quiet _ _⟩, by decide, by decide, rfl, quiet _ _⟩

/-- Rows R1 and R2 with the keys 1, 2 and 5 held and column C1 alone driven high: C1 and C2 are one net, in contention
(V64's case), and with both columns high there is none. The rows are inputs; under EXP_RESET_DIR's complement they are not. -/
theorem witness_ReadRowsReturnsTheHighRows :
    let s : State := { pad [.k1, .k2, .k5] with kpChip := { out := 0x01, dir := 0xF0 } }
    s.Running ∧ s.params.distinct ∧ s.inputs.Quiet 1 ∧ (∀ r, s.kpChip.dir.getLsbD (rowPin s.params r) = true) ∧
    (SameNet (s.inputs.at 0).held .r2 .c1 ∧ s.kpChip.dir.getLsbD (columnPin s.params .c1) = false ∧
      s.kpChip.out.getLsbD (columnPin s.params .c1) = true) ∧
    (SameNet (s.inputs.at 0).held .r2 .c2 ∧ s.kpChip.out.getLsbD (columnPin s.params .c2) = false) ∧
    (¬ ∃ c, SameNet (s.inputs.at 0).held .r3 c) ∧
    ({ s with kpChip := { out := 0x80, dir := 0x00 } } : State).kpChip.dir.getLsbD (rowPin s.params .r4) = false := by
  have h2 : SameNet ((pad [.k1, .k2, .k5]).inputs.at 0).held .r2 .c2 := .key (by decide)
  refine ⟨by decide, by decide, quiet _ _, by intro r; cases r <;> decide, ⟨.path h2 (r' := .r1) (by decide) (by decide),
    by decide, by decide⟩, ⟨h2, by decide⟩, ?_, by decide⟩
  rintro ⟨c, h⟩
  induction h with
  | key h => rename_i c; revert h; cases c <;> decide
  | path _ _ _ ih => exact ih

theorem witness_RawScanFindsTheLoneKey :
    ((pad [.k5]).Running ∧ (pad [.k5]).params.distinct ∧ (pad [.k5]).params.columnDrive = .exclusive ∧ (pad [.k5]).inputs.Quiet 6 ∧
      (pad [.k5]).kpChip.dir = rowsMask (pad [.k5]).params ∧ ∀ j < 6, LoneKey ((pad [.k5]).inputs.at j) .k5) ∧
    (pad []).Running ∧ (pad []).inputs.Quiet 6 ∧ ∀ j < 6, ((pad []).inputs.at j).held = [] :=
  ⟨⟨by decide, by decide, rfl, quiet _ _, by decide, fun _ _ => lone _⟩, by decide, quiet _ _, fun _ _ => rfl⟩

/-- After a first pass: all three columns high. -/
theorem witness_LatchedPassReportsEveryColumn :
    let s : State := { padLatched [.k5] with kpChip := { out := 0x07, dir := 0xF0 } }
    s.Running ∧ s.params.distinct ∧ s.params.columnDrive = .latched ∧ s.inputs.Quiet 9 ∧ s.kpChip.dir = rowsMask s.params ∧
    (∀ x, s.kpChip.out.getLsbD (columnPin s.params x) = true) ∧ ∀ j < 9, LoneKey (s.inputs.at j) (keyAt .c2 .r2) :=
  ⟨by decide, by decide, rfl, quiet _ _, by decide, by intro x; cases x <;> decide, fun _ _ => lone _⟩

/-- Under both column drives; a lone key, and none. -/
theorem witness_ScanSetIsOnePass :
    ((pad [.k5]).KeypadReady ∧ (pad [.k5]).params.columnDrive = .exclusive ∧
      (pad [.k5]).inputs.Quiet (passCalls (pad [.k5]).params) ∧ ∀ j < 6, LoneKey ((pad [.k5]).inputs.at j) .k5) ∧
    (padLatched []).KeypadReady ∧ (padLatched []).inputs.Quiet (passCalls (padLatched []).params) ∧
    ∀ j < 9, ((padLatched []).inputs.at j).held = [] :=
  ⟨⟨pad_is_ready _, rfl, quiet _ _, fun _ _ => lone _⟩, padLatched_is_ready _, quiet _ _, fun _ _ => rfl⟩

/-- Under both column drives: a lone key, and with key 5 held under `latched`, a pass that sees keys; and none. -/
theorem witness_ScanStartsTheDebounceLoop :
    ((pad [.pound]).KeypadReady ∧ (pad [.pound]).params.columnDrive = .exclusive ∧
      (pad [.pound]).inputs.Quiet (passCalls (pad [.pound]).params) ∧
      ∀ j < 6, LoneKey ((pad [.pound]).inputs.at j) .pound) ∧
    ((padLatched [.k5]).KeypadReady ∧ (padLatched [.k5]).inputs.Quiet (passCalls (padLatched [.k5]).params) ∧
      sees .keypadRawScan (padLatched [.k5]) State.ret = some (some (.keys [.k5, .k6]))) ∧
    (pad []).KeypadReady ∧ ∀ j < 6, ((pad []).inputs.at j).held = [] :=
  ⟨⟨pad_is_ready _, rfl, quiet _ _, fun _ _ => lone _⟩, ⟨padLatched_is_ready _, quiet _ _, by decide +kernel⟩,
   pad_is_ready _, fun _ _ => rfl⟩

/-- A round that sees no key, and one that sees one. -/
theorem witness_ScanReturnsTheFirstKeyAtRelease :
    (let s := looping []
     s.Running ∧ s.params.distinct ∧ s.scanning = some .k5 ∧ s.inputs.Quiet (1 + passCalls s.params) ∧
     s.kpChip.dir = rowsMask s.params ∧ ∀ j < 7, (s.inputs.at j).held = []) ∧
    let s := looping [.k8]
    s.Running ∧ s.scanning = some .k5 ∧ s.inputs.Quiet (1 + passCalls s.params) ∧
    sees .keypadRawScan s State.ret = some (some (.keys [.k8])) :=
  ⟨⟨by decide, by decide, rfl, quiet _ _, by decide, fun _ _ => rfl⟩, by decide, rfl, quiet _ _, by decide +kernel⟩

theorem witness_ScanNeverReturnsWhileHeld :
    let s := looping [.k8]
    s.Running ∧ s.params.distinct ∧ s.kpChip.dir = rowsMask s.params ∧ s.scanning = some .k5 ∧ s.ret = none ∧
    ∀ j, (s.inputs.at j).ok = true ∧ (s.inputs.at j).foreign = none ∧ LoneKey (s.inputs.at j) .k8 :=
  ⟨by decide, by decide, by decide, rfl, rfl, fun _ => ⟨rfl, rfl, lone _⟩⟩

/-! ### Faults, refusals and the whole machine -/

theorem witness_StepsThatRunNoOperation :
    let f : State := { ready with fatal := some .bus }
    (f.refused = false ∧ f.fatal = some .bus ∧ f.params.panic = .halt ∧ f.ctl.undefined = false ∧ (f.inputs.at 0).beat = none) ∧
    (({ f with inputs := first { ideal [] with beat := some 5 } } : State).inputs.at 0).beat = some 5 ∧
    ({ f with params := { Params.ref with panic := .reset } } : State).params.panic = .reset ∧
    ({ ready with refused := true } : State).refused = true ∧
    ready.Running ∧ ready.scanning = none ∧ ready.calls = [] ∧ (ready.inputs.at 0).foreign = none := by decide

/-- A failing `write` on the keypad chip, and a round of a scan whose second call fails: the last call is marked `err`,
and FATAL is F_BUS. -/
theorem witness_BusFaultsArePrecise :
    (failing (pad [])).Running ∧ (after (exec (.write 0x21 0x01) (failing (pad [])))).map (fun t =>
      (t.trace.getLast?.map TraceEntry.err, t.fatal)) = some (some true, some .bus) ∧
    let s : State := { looping [] with
      inputs := { upcoming := [ideal [], ideal []], thereafter := { ideal [] with ok := false } } }
    s.Running ∧ s.scanning ≠ none ∧ (after (step s)).map (fun t => (t.trace.map TraceEntry.err, t.fatal)) =
      some ([false, true], some .bus) := by decide +kernel

theorem witness_PhasesParametersAndTime :
    (∃ t, exec .lcdInit cold = .next t) ∧ (∃ t, exec .keypadInit cold = .next t) ∧
    (∃ t, step { ready with calls := [.call .lcdWriteU8 [.u8 7]] } = .next t) ∧
    ready.InitMarked ∧ (rerun true).InitMarked ∧ cold.InitMarked ∧
    (looping []).Running ∧ (looping []).scanning ≠ none ∧ ∃ t, step (looping []) = .next t :=
  ⟨⟨_, rfl⟩, ⟨_, rfl⟩, ⟨_, rfl⟩, by decide, by decide, by decide, by decide, by decide, _, rfl⟩

theorem witness_ComponentsAreIsolated :
    ((looping [.k5]).params.distinct ∧ (looping [.k5]).inputs.Alone ∧ (looping [.k5]).Running ∧
      (looping [.k5]).scanning ≠ none ∧ ∃ t, step (looping [.k5]) = .next t) ∧
    cold.params.distinct ∧ cold.inputs.Alone ∧ cold.ctl.undefined = false ∧
    (∃ t, exec .keypadScan (pad [.k5]) = .next t) ∧ ∃ t, exec .lcdClearDisplay ready = .next t :=
  ⟨⟨by decide, alone _, by decide, by decide, _, rfl⟩, by decide, alone _, rfl, ⟨_, rfl⟩, _, rfl⟩

/-- The last primitive of `power_on`, the last of a scan's round, and the second half of a bit operation. -/
theorem witness_RacesAreFaults :
    (let s := intruded ready 21 (.read 0x20 0x09)
     s.Running ∧ s.BusFree ∧ s.params.distinct ∧ s.PublicCall .lcdPowerOn .lcdPowerOn 22 ∧ s.inputs.Quiet 21 ∧
     (s.inputs.at 21).foreign = some (.read 0x20 0x09)) ∧
    (let s := intruded (looping []) 6 (.write 0x20 0x00 0xFF)
     s.Running ∧ s.params.distinct ∧ s.scanning = some .k5 ∧ s.busOwner = some .keypadScan ∧
     6 < 1 + passCalls s.params ∧ s.inputs.Quiet 6 ∧ (s.inputs.at 6).foreign = some (.write 0x20 0x00 0xFF)) ∧
    (let s := intruded ready 1 (.write 0x21 0x09 0xFF)
     s.Running ∧ s.busOwner = none ∧ chipAt s.params 0x21 = some .kp ∧ s.inputs.Quiet 1 ∧
     (s.inputs.at 1).foreign = some (.write 0x21 s.params.regGpio 0xFF)) ∧
    ready.inputs.Alone ∧ ∃ t, step { ready with fatal := some .race, params := { Params.ref with panic := .reset } } = .next t :=
  ⟨⟨by decide, by decide, by decide, .powerOn rfl, by decide, rfl⟩, by decide +kernel, by decide +kernel, alone _, _, rfl⟩

/-- R913: the intruder's call falls once; its draw is used up by the race (log entry 22). -/
theorem test_race_draw_is_used_up :
    sees .lcdPowerOn (intruded ready 0 (.read 0x20 0x09)) (fun t => (t.fatal, t.inputs.upcoming)) =
      some (some .race, []) := by decide +kernel

theorem witness_BusHoldEndsWithItsOperation :
    (looping [.k5]).busOwner = some .keypadScan ∧ (looping [.k5]).scanning ≠ none ∧ (∃ t, step (looping [.k5]) = .next t) ∧
    ready.busOwner = none ∧ ∃ t, step { ready with calls := [.call .lcdClearDisplay []] } = .next t :=
  ⟨rfl, by decide, ⟨_, rfl⟩, rfl, _, rfl⟩

theorem witness_DdramStaysCanonical :
    (ready.withFetchWord 10 0b1001000001).DdramWf ∧ ∃ t, step (ready.withFetchWord 10 0b1001000001) = .next t :=
  ⟨by decide, _, rfl⟩

end Sys2Proof.Tests
end

/-! The time a delay takes (R19, R151), and the isolation of the two components while Main is the only bus user
(R13, R412, R813). -/

namespace Sys2Proof.Machine

open Sys2Proof

/-! ## Delays -/

/-- The delay of `u` and `d`, in microseconds (R19). -/
def delayMicros (u : TimeUnit) (d : Nat) : Nat :=
  match u with
  | .us => d
  | .ms => 1000 * d

/-- A delay that meets no second bus user is one passage of time. -/
theorem exec_delay_alone {s : State} (hr : s.Running) (hf : (s.inputs.at 0).foreign = none) (u : TimeUnit) (d : Nat) :
    exec (.delay u d) s =
      .next { ({ s with ret := none } : State).tick (delayMicros u d) with ret := some .unit } := by
  have run : ∀ n, (unitOp (delayUs n) { s with ret := none }).finish =
      { ({ s with ret := none } : State).tick n with ret := some .unit } := fun n => by
    rw [unitOp, delayUs_alone (s := { s with ret := none }) hf]; rfl
  cases u with
  | us => rw [exec_delayUs hr, run]; rfl
  | ms => rw [exec_delayMs hr, run]; rfl

/-- Settles O26: the delay is one primitive, and a tick moves only `now`, the inputs and an undefined controller. -/
theorem delayLetsTimePass : Obligations.DelayLetsTimePass := by
  unfold Obligations.DelayLetsTimePass
  intro s u d hr hf
  refine ⟨_, exec_delay_alone hr hf u d, ?_, rfl, rfl, Inputs.rest_eq_drop _, settle_keypadOnly rfl⟩
  exact (State.tick_spent (delayMicros u d) { s with ret := none }).symm

/-! ## What a part of the state keeps, whatever the operation -/

/-- While Main is alone on the bus, it stays so, and the part `f` of the state is as it was; the parameters are in any
case. -/
structure KeptAlone {α : Type} (f : State → α) (s t : State) : Prop where
  params : t.params = s.params
  kept : s.inputs.Alone → t.inputs.Alone ∧ f t = f s

/-- A part of the state that the primitives of Main leave alone while they write no chip outside `C`: it reads no more
than the chips and the controller, no passage of time changes it, and no write to a chip of `C` does. -/
structure UntouchedBy {α : Type} (C : ChipId → Prop) (f : State → α) : Prop where
  reads : ∀ {s t : State}, t.lcdChip = s.lcdChip → t.kpChip = s.kpChip → t.ctl = s.ctl → f t = f s
  tick : ∀ d s, f (State.tick d s) = f s
  write : ∀ {c}, C c → ∀ r v d s, f (State.chipWrite c r v d s) = f s

section
variable {α : Type} {f : State → α} {s t u : State}

theorem KeptAlone.trans (h1 : KeptAlone f s t) (h2 : KeptAlone f t u) : KeptAlone f s u where
  params := h2.params.trans h1.params
  kept ha := by
    obtain ⟨hat, ht⟩ := h1.kept ha
    obtain ⟨hau, hu⟩ := h2.kept hat
    exact ⟨hau, hu.trans ht⟩

/-- Nothing is claimed of what follows a second bus user's call. -/
theorem KeptAlone.of_foreign {g : ForeignCall} (hg : (s.inputs.at 0).foreign = some g) (hp : t.params = s.params) :
    KeptAlone f s t where
  params := hp
  kept ha := by rw [ha.at 0] at hg; cases hg

/-- A primitive uses up its draw. -/
theorem KeptAlone.of_rest (hp : t.params = s.params) (hi : t.inputs = s.inputs.rest) (hf : f t = f s) :
    KeptAlone f s t where
  params := hp
  kept ha := ⟨hi ▸ ha.rest, hf⟩

variable {C : ChipId → Prop} (h : UntouchedBy C f)
include h

/-- An update of other fields than the parameters, the inputs, the chips and the controller. -/
theorem UntouchedBy.marks (hp : t.params = s.params) (hi : t.inputs = s.inputs) (hl : t.lcdChip = s.lcdChip)
    (hk : t.kpChip = s.kpChip) (hc : t.ctl = s.ctl) : KeptAlone f s t where
  params := hp
  kept ha := ⟨hi ▸ ha, h.reads hl hk hc⟩

theorem UntouchedBy.tick_record (s : State) (b : BusCall) (e : Bool) : f ((s.tick 0).record b e) = f s :=
  calc f ((s.tick 0).record b e)
    _ = f (s.tick 0) := h.reads rfl rfl rfl
    _ = f s := h.tick 0 s

/-- A transport call that leaves the chips alone, completed or not. -/
theorem UntouchedBy.recorded (s : State) (b : BusCall) (e : Bool) : KeptAlone f s ((s.tick 0).record b e) :=
  .of_rest rfl rfl (h.tick_record s b e)

/-- A transport call that writes a chip of `C`, completed or not. -/
theorem UntouchedBy.wrote {c : ChipId} (hc : C c) (s : State) (b : BusCall) (e : Bool) (r : ChipReg) (v : Byte)
    (d : Draw) : KeptAlone f s (((s.tick 0).record b e).chipWrite c r v d) :=
  .of_rest (by simp) (by simp) ((h.write hc r v d _).trans (h.tick_record s b e))

theorem UntouchedBy.raiseFatal (ht : KeptAlone f s t) (code : FaultCode) (info : FaultInfo) :
    KeptAlone f s (t.raiseFatal code info) :=
  ht.trans (h.marks rfl rfl rfl rfl rfl)

theorem UntouchedBy.held (op : PublicOp) (s : State) : KeptAlone f s (s.hold op) :=
  h.marks rfl rfl rfl rfl rfl

/-- The hold with which `keypad.scan` starts its first pass (R808, R931). -/
theorem UntouchedBy.scanHeld (s : State) :
    KeptAlone f s (State.hold .keypadScan { s with ret := none, scanning := none }) :=
  h.marks rfl rfl rfl rfl rfl

theorem UntouchedBy.afterPass (ks : List Key) (s : State) : KeptAlone f s (afterPass ks s) := by
  unfold Machine.afterPass
  split <;> exact h.marks rfl rfl rfl rfl rfl

/-- No operation whose transport calls go to the chips of `C` changes the part. -/
theorem UntouchedBy.closed : Closed C (KeptAlone f) (KeptAlone f) where
  refl s := h.marks rfl rfl rfl rfl rfl
  trans := KeptAlone.trans
  transS := KeptAlone.trans
  params ht := ht.params
  delay s d := .of_rest rfl rfl (h.tick d s)
  foreign s g hg := .of_foreign hg (State.foreignCall_params g _ s)
  race s g i hg := .of_foreign hg (by simp)
  wrote s c b r v hc := h.wrote hc s b false r v _
  writeFailed s b i := h.raiseFatal (h.recorded s b true) .bus i
  writeTook s c b r v i hc := h.raiseFatal (h.wrote hc s b true r v _) .bus i
  didRead s b := h.recorded s b false
  readFailed s b i := h.raiseFatal (h.recorded s b true) .bus i
  newlines s i := h.marks rfl rfl rfl rfl rfl
  lineLen s i := h.marks rfl rfl rfl rfl rfl
  refused s r := h.marks rfl rfl rfl rfl rfl

/-- The same for the instructions: the hold, the value returned and the scan's key are other fields. -/
theorem UntouchedBy.closedExec : ClosedExec C (KeptAlone f) (KeptAlone f) (KeptAlone f) where
  toClosed := h.closed
  clear _ := h.marks rfl rfl rfl rfl rfl
  ret _ _ := h.marks rfl rfl rfl rfl rfl
  held {s _} op ht := (h.held op s).trans (ht.trans (h.marks rfl rfl rfl rfl rfl))
  heldStop {s _} op ht := (h.held op s).trans ht
  done ht := ht
  stop ht := ht
  scanned {s t} ks ht := (h.scanHeld s).trans (ht.trans (h.afterPass ks t))
  scanStopped {s _} ht := (h.scanHeld s).trans ht

end

/-! ## The two sides -/

/-- What the LCD has behind its address: its chip, and its controller while that is not undefined (R123). -/
def State.lcdSide (s : State) : Chip × Option Controller :=
  (s.lcdChip, if s.ctl.undefined then none else some s.ctl)

theorem State.lcdSide_eq {s t : State} (h : t.lcdSide = s.lcdSide) :
    t.lcdChip = s.lcdChip ∧ (s.ctl.undefined = false → t.ctl = s.ctl) := by
  simp only [State.lcdSide, Prod.mk.injEq] at h
  obtain ⟨hchip, hctl⟩ := h
  refine ⟨hchip, fun hu => ?_⟩
  rw [hu] at hctl
  split at hctl
  · cases hctl
  · exact Option.some.inj hctl

/-- A passage of time keeps a defined controller, and an undefined one undefined. -/
theorem State.lcdSide_tick (d : Nat) (s : State) : (s.tick d).lcdSide = s.lcdSide := by
  cases hu : s.ctl.undefined with
  | false => simp [State.lcdSide, State.tick, Controller.settle_defined hu]
  | true => simp [State.lcdSide, State.tick, hu]

theorem lcdSide_untouchedBy_kp : UntouchedBy (· = .kp) State.lcdSide where
  reads hl _ hc := by rw [State.lcdSide, hl, hc, State.lcdSide]
  tick := State.lcdSide_tick
  write hc r v d s := by subst hc; rfl

theorem kpChip_untouchedBy_lcd : UntouchedBy (· = .lcd) State.kpChip where
  reads _ hk _ := hk
  tick _ _ := rfl
  write hc r v d s := by subst hc; rfl

/-- A step of a running Main inside a debounced scan is a round of its loop. -/
theorem step_scanning {s : State} (hr : s.Running) (hs : s.scanning ≠ none) : step s = .next (rescan s) := by
  obtain ⟨hfatal, hrefused⟩ := hr
  obtain ⟨k, hk⟩ := Option.ne_none_iff_exists'.1 hs
  simp [step, hfatal, hrefused, hk]

theorem rescan_keeps_lcdSide {s : State} (hp : s.params.distinct) : KeptAlone State.lcdSide s (rescan s) :=
  lcdSide_untouchedBy_kp.closed.rescan (kp_allowed (C := (· = .kp)) rfl hp)
    (fun ks _ ht => ht.trans (lcdSide_untouchedBy_kp.afterPass ks _)) fun _ ht => ht

theorem exec_keypad_keeps_lcdSide {s t : State} {i : Instr} (hp : s.params.distinct)
    (hi : i ∈ [Instr.keypadInit, .keypadReadRows, .keypadRawScan, .keypadScan, .keypadScanSet] ∨
      ∃ c, i = .keypadDriveColumn c) (e : exec i s = .next t) : KeptAlone State.lcdSide s t := by
  have closed := lcdSide_untouchedBy_kp.closedExec
  have hk := kp_allowed (C := (· = .kp)) rfl hp
  rw [List.mem_cons, or_assoc] at hi
  rcases hi with rfl | hi
  · exact closed.keypadInit (fun s p => lcdSide_untouchedBy_kp.marks rfl rfl rfl rfl rfl) hk e
  · exact closed.keypad hk hi e

/-- The instructions that initialise the LCD move its phase and its controller's mark, and nothing of the keypad's. -/
theorem exec_lcdInit_keeps_kpChip {s t : State} {i : Instr} (hi : i = .lcdInit ∨ i = .initNibble8bit)
    (e : exec i s = .next t) : KeptAlone State.kpChip s t :=
  kpChip_untouchedBy_lcd.closedExec.lcdInit rfl (fun _ _ => ⟨rfl, fun ha => ⟨ha, rfl⟩⟩) hi e

/-- Settles O57: every transport call of a component goes to its own chip's address, so the other side is untouched by
every primitive, and with it by every operation and every round of a scan. -/
theorem componentsAreIsolated : Obligations.ComponentsAreIsolated := by
  unfold Obligations.ComponentsAreIsolated
  refine ⟨fun s t hp ha hr hs e => ?_, fun s t i hp ha e => ⟨fun hi => ?_, fun hi => ?_⟩⟩
  · rw [step_scanning hr hs] at e
    cases e
    exact State.lcdSide_eq ((rescan_keeps_lcdSide hp).kept ha).2
  · exact State.lcdSide_eq ((exec_keypad_keeps_lcdSide hp hi e).kept ha).2
  · rw [List.mem_cons, List.mem_cons, or_assoc, or_assoc] at hi
    rcases hi with hi | hi | hi
    · exact ((exec_lcdInit_keeps_kpChip (.inr hi) e).kept ha).2
    · exact ((exec_lcdInit_keeps_kpChip (.inl hi) e).kept ha).2
    · exact ((kpChip_untouchedBy_lcd.closedExec.lcd rfl hi e).kept ha).2

end Sys2Proof.Machine

/-! The invariants of every step (R117, R123, R130, R131, R151): the sticky mark, DDRAM's canonical form, the phases,
the parameters and the time; and what a read returns and leaves (R103, R401, R404, R411). -/

namespace Sys2Proof.Machine

open Sys2Proof

/-! ## A property of the controller and `lcd_phase` that a step keeps -/

/-- `P` is upheld by every event that touches what it reads: the controller and `lcd_phase`. -/
structure Upheld (P : State → Prop) : Prop where
  reads : ∀ {s t : State}, t.lcdPhase = s.lcdPhase → t.ctl = s.ctl → P s → P t
  settle : ∀ {s : State}, P s → P { s with ctl := s.ctl.settle }
  write : ∀ {s : State} c r v d, P s → P (s.chipWrite c r v d)
  command : ∀ {s : State} c, P s → P (s.command c)
  phase : ∀ {s : State} p, P s → P (s.enterPhase p)
  restart : ∀ {s : State}, P s → P s.restart

/-- From `s` to `t` the parameters stay, `now` does not go back, and `P` is kept. -/
structure Advances (P : State → Prop) (s t : State) : Prop where
  params : t.params = s.params
  now : s.now ≤ t.now
  kept : P s → P t

section
variable {P : State → Prop} {s t u : State}

theorem Advances.trans (h1 : Advances P s t) (h2 : Advances P t u) : Advances P s u where
  params := h2.params.trans h1.params
  now := h1.now.trans h2.now
  kept hs := h2.kept (h1.kept hs)

variable (h : Upheld P)
include h

/-- An update of fields that neither the parameters, nor the time, nor `P` depend on. -/
theorem Upheld.marks (hp : t.params = s.params) (hn : t.now = s.now) (hl : t.lcdPhase = s.lcdPhase)
    (hc : t.ctl = s.ctl) : Advances P s t where
  params := hp
  now := hn.ge
  kept := h.reads hl hc

theorem Upheld.settled (hp : t.params = s.params) (hn : s.now ≤ t.now) (hl : t.lcdPhase = s.lcdPhase)
    (hc : t.ctl = s.ctl.settle) : Advances P s t where
  params := hp
  now := hn
  kept hs := h.reads (s := { s with ctl := s.ctl.settle }) hl hc (h.settle hs)

theorem Upheld.tick (d : Nat) (s : State) : Advances P s (s.tick d) :=
  h.settled rfl (by rw [State.tick_spent]; omega) rfl rfl

theorem Upheld.tick_record (s : State) (b : BusCall) (e : Bool) : Advances P s ((s.tick 0).record b e) :=
  (h.tick 0 s).trans (h.marks rfl rfl rfl rfl)

theorem Upheld.chipWrite (c : ChipId) (r : ChipReg) (v : Byte) (d : Draw) (s : State) :
    Advances P s (s.chipWrite c r v d) where
  params := by simp
  now := by simp
  kept := h.write c r v d

/-- A second bus user's call writes a register of a chip or does nothing (R913). -/
theorem Upheld.foreignCall (g : ForeignCall) (d : Draw) (s : State) : Advances P s (s.foreignCall g d) := by
  have same : Advances P s s := h.marks rfl rfl rfl rfl
  unfold State.foreignCall
  split
  · exact same
  · split
    · exact h.chipWrite _ _ _ d s
    · exact same

theorem Upheld.wrote (s : State) (c : ChipId) (b : BusCall) (e : Bool) (r : ChipReg) (v : Byte) (d : Draw) :
    Advances P s (((s.tick 0).record b e).chipWrite c r v d) :=
  (h.tick_record s b e).trans (h.chipWrite c r v d _)

theorem Upheld.raiseFatal (ht : Advances P s t) (code : FaultCode) (info : FaultInfo) :
    Advances P s (t.raiseFatal code info) :=
  ht.trans (h.marks rfl rfl rfl rfl)

/-- What every event upholds, every step does. -/
theorem Upheld.closedStep : ClosedStep (Advances P) where
  refl _ := h.marks rfl rfl rfl rfl
  trans := Advances.trans
  transS := Advances.trans
  params ht := ht.params
  delay s d := h.tick d s
  foreign s g _ := h.foreignCall g _ s
  race s g _ _ := (h.foreignCall g _ s).trans (h.marks rfl rfl rfl rfl)
  wrote s c b r v _ := h.wrote s c b false r v _
  writeFailed s b i := h.raiseFatal (h.tick_record s b true) .bus i
  writeTook s c b r v i _ := h.raiseFatal (h.wrote s c b true r v _) .bus i
  didRead s b := h.tick_record s b false
  readFailed s b i := h.raiseFatal (h.tick_record s b true) .bus i
  newlines _ _ := h.marks rfl rfl rfl rfl
  lineLen _ _ := h.marks rfl rfl rfl rfl
  refused _ _ := h.marks rfl rfl rfl rfl
  raw := h.tick_record
  rawWrote s c b e r v := h.wrote s c b e r v _
  marks _ _ _ _ := h.marks rfl rfl rfl rfl
  command _ c := ⟨rfl, le_rfl, h.command c⟩
  lcdPhase _ p := ⟨rfl, le_rfl, h.phase p⟩
  kpPhase _ _ := h.marks rfl rfl rfl rfl
  calls _ _ := h.marks rfl rfl rfl rfl
  beat _ := h.settled rfl (Nat.le_add_right _ _) rfl rfl
  restart _ := ⟨rfl, le_rfl, h.restart⟩

theorem Upheld.step (e : step s = .next t) : Advances P s t := step_closed h.closedStep e

end

/-! ## The three properties -/

/-- No event clears LCD_UNDEFINED (R123). -/
theorem undefined_upheld : Upheld fun s => s.ctl.undefined = true where
  reads _ hc h := by rw [hc]; exact h
  settle h := (Controller.settle_undefined _).trans h
  write c r v d h := chipWrite_sticky h c r v d
  command c h := (Controller.settle_undefined _).trans (cmdEffect_sticky c h)
  phase _ h := h
  restart h := h

/-- Settles O16: LCD_UNDEFINED, once set, is upheld by every event of the controller. -/
theorem undefinedIsSticky : Obligations.UndefinedIsSticky := by
  unfold Obligations.UndefinedIsSticky
  exact fun s t e => (undefined_upheld.step e).kept

/-- Every event keeps DDRAM's cells in ascending order, none twice (R117). -/
theorem ddramWf_upheld : Upheld State.DdramWf where
  reads _ hc h := by rw [State.DdramWf, hc]; exact h
  settle := settle_wf
  write c r v d h := chipWrite_wf h c r v d
  command c h := settle_wf (cmdEffect_wf c h)
  phase _ h := h
  restart h := h

/-- Settles O60: DDRAM's canonical form is upheld by every event of the controller. -/
theorem ddramStaysCanonical : Obligations.DdramStaysCanonical := by
  unfold Obligations.DdramStaysCanonical
  exact fun s t h e => (ddramWf_upheld.step e).kept h

/-- Only init writes the mark of a finished init, and together with `lcd_phase` (log entry 16). -/
theorem initMarked_upheld : Upheld State.InitMarked where
  reads hl hc h := h.congr hl (by rw [hc])
  settle h := h.congr rfl (Controller.settle_afterInit _)
  write c r v d h := h.congr (by simp) (by simp)
  command c h := h.congr rfl (by simp)
  phase _ _ := .inr rfl
  restart _ := .inl rfl

/-! ## The phases -/

/-- From `s` to `t`, `lcd_phase` moves only if `L` allows it, and `kp_phase` only if `K` does; the parameters stay. -/
structure MovesPhases (L K : Prop) (s t : State) : Prop where
  params : t.params = s.params
  lcd : ¬L → t.lcdPhase = s.lcdPhase
  kp : ¬K → t.kpPhase = s.kpPhase

section
variable {L K : Prop} {s t u : State}

theorem MovesPhases.of_same (hp : t.params = s.params) (hl : t.lcdPhase = s.lcdPhase) (hk : t.kpPhase = s.kpPhase) :
    MovesPhases L K s t := ⟨hp, fun _ => hl, fun _ => hk⟩

theorem MovesPhases.trans (h1 : MovesPhases L K s t) (h2 : MovesPhases L K t u) : MovesPhases L K s u where
  params := h2.params.trans h1.params
  lcd hL := (h2.lcd hL).trans (h1.lcd hL)
  kp hK := (h2.kp hK).trans (h1.kp hK)

theorem afterPass_movesPhases (ks : List Key) (s : State) : MovesPhases L K s (afterPass ks s) := by
  unfold afterPass
  split <;> exact .of_same rfl rfl rfl

/-- No primitive, fault or refusal moves a phase. -/
theorem closed_movesPhases : Closed (fun _ => True) (MovesPhases L K) (MovesPhases L K) where
  refl _ := .of_same rfl rfl rfl
  trans := MovesPhases.trans
  transS := MovesPhases.trans
  params h := h.params
  delay _ _ := .of_same rfl rfl rfl
  foreign _ _ _ := .of_same (by simp) (by simp) (by simp)
  race _ _ _ _ := .of_same (by simp) (by simp) (by simp)
  wrote _ _ _ _ _ _ := .of_same (by simp) (by simp) (by simp)
  writeFailed _ _ _ := .of_same rfl rfl rfl
  writeTook _ _ _ _ _ _ _ := .of_same (by simp) (by simp) (by simp)
  didRead _ _ := .of_same rfl rfl rfl
  readFailed _ _ _ := .of_same rfl rfl rfl
  newlines _ _ := .of_same rfl rfl rfl
  lineLen _ _ := .of_same rfl rfl rfl
  refused _ _ := .of_same rfl rfl rfl

theorem closedExec_movesPhases : ClosedExec (fun _ => True) (MovesPhases L K) (MovesPhases L K) (MovesPhases L K) where
  toClosed := closed_movesPhases
  clear _ := .of_same rfl rfl rfl
  ret _ _ := .of_same rfl rfl rfl
  held _ h := ⟨h.params, h.lcd, h.kp⟩
  heldStop _ h := ⟨h.params, h.lcd, h.kp⟩
  done h := h
  stop h := h
  scanned {_ t} ks h := MovesPhases.trans ⟨h.params, h.lcd, h.kp⟩ (afterPass_movesPhases ks t)
  scanStopped h := ⟨h.params, h.lcd, h.kp⟩

end

/-- Only the instructions of an init move a phase (R130, R131). -/
theorem exec_movesPhases {i : Instr} {s t : State} (e : exec i s = .next t) :
    MovesPhases (i = .lcdInit ∨ i = .initNibble8bit) (i = .keypadInit) s t := by
  have closed := closedExec_movesPhases (L := i = .lcdInit ∨ i = .initNibble8bit) (K := i = .keypadInit)
  refine exec_closed closed (fun hi => ?_) (fun _ => .of_same rfl rfl rfl) (fun hL _ _ => ?_) (fun hK _ _ => ?_) e
  · exact closed.transport (fun _ => trivial) (fun _ _ _ => .of_same rfl rfl rfl)
      (fun _ _ _ _ _ _ _ => .of_same (by simp) (by simp) (by simp)) hi e
  · exact ⟨rfl, fun hn => absurd hL hn, fun _ => rfl⟩
  · exact ⟨rfl, fun _ => rfl, fun hn => absurd hK hn⟩

/-- A round of a debounced scan moves no phase (R808). -/
theorem rescan_movesPhases (s : State) : MovesPhases False False s (rescan s) :=
  closed_movesPhases.rescan (fun _ _ => trivial) (fun ks t h => h.trans (afterPass_movesPhases ks t)) fun _ h => h

/-- Settles O56: the phases by what each instruction may move, the rest by what every event upholds. -/
theorem phasesParametersAndTime : Obligations.PhasesParametersAndTime := by
  unfold Obligations.PhasesParametersAndTime
  refine ⟨fun s t i e => ?_, fun s t e => ?_⟩
  · have moves := exec_movesPhases e
    exact ⟨not_imp_comm.1 moves.lcd, not_imp_comm.1 moves.kp⟩
  · obtain ⟨hparams, hnow, hmarked⟩ := initMarked_upheld.step e
    refine ⟨hparams, hnow, fun hr hs => ?_, hmarked⟩
    rw [step_scanning hr hs] at e
    cases e
    exact ⟨(rescan_movesPhases s).lcd id, (rescan_movesPhases s).kp id⟩

/-! ## Reads -/

/-- `PINS` bit by bit: the outside level on an input pin, the latch on an output pin (R103). -/
theorem pins_getLsbD (s : State) (d : Draw) (c : ChipId) (i : Pin) : (s.pins d c).getLsbD i =
    if (s.chip c).dir.getLsbD i then (s.ext d c).getLsbD i else (s.chip c).out.getLsbD i := by
  simp only [State.pins, BitVec.getLsbD_or, BitVec.getLsbD_and, BitVec.getLsbD_not]
  cases (s.chip c).dir.getLsbD i <;> simp

/-- The byte in the buffer of a read under the next draw: PINS, or what the draw puts there when the call fails (R401;
log entry 14). -/
def State.readBuffer (s : State) (c : ChipId) : Byte :=
  if (s.inputs.at 0).ok then s.pins (s.inputs.at 0) c else (s.inputs.at 0).ext

/-- The state after a read of the GPIO register at `a` with `b` in the buffer, whose call returned `v`. -/
def State.afterRead (a : BusAddr) (b : Byte) (v : RetVal) (s : State) : State :=
  { (({ s with ret := none } : State).tick 0).record (.wr a [s.params.regGpio] [b]) (!(s.inputs.at 0).ok) with
    ret := some v }

section
variable {s : State} {a : BusAddr} {c : ChipId}

theorem afterRead_trace (b : Byte) (v : RetVal) : (s.afterRead a b v).trace = s.trace ++
    [{ call := .wr a [s.params.regGpio] [b], err := !(s.inputs.at 0).ok, time := s.now + s.inputs.spent 1 }] := by
  have hnow : (State.tick 0 { s with ret := none }).now = s.now + s.inputs.spent 1 := State.tick_spent 0 _
  rw [← hnow]
  rfl

/-- A read takes its draw, and changes no chip and no defined controller (R411). -/
theorem afterRead_frame (b : Byte) (v : RetVal) : (s.afterRead a b v).inputs = s.inputs.drop 1 ∧
    (s.afterRead a b v).kpChip = s.kpChip ∧ ({ s with ret := some v } : State).KeypadOnly (s.afterRead a b v) :=
  ⟨Inputs.rest_eq_drop _, rfl, settle_keypadOnly rfl⟩

variable (hr : s.Running) (ha : chipAt s.params a = some c) (hf : (s.inputs.at 0).foreign = none)
include hr ha hf

/-- What a bare BusWriteRead leaves and returns, completed or failed (R401; log entry 18). -/
theorem exec_busWriteRead_alone : exec (.busWriteRead a s.params.regGpio) s = .next (s.afterRead a (s.readBuffer c)
    (.transportRead (if (s.inputs.at 0).ok then some (s.pins (s.inputs.at 0) c) else none))) := by
  rw [exec_busWriteRead hr]
  simp only [busReadCall, ha, regAt_gpio, primitive_alone (s := { s with ret := none }) hf, State.readBuffer,
    State.afterRead]
  cases (s.inputs.at 0).ok <;> cases c <;> rfl

/-- What a completed `read` leaves and returns (R404). -/
theorem exec_read_alone (ho : (s.inputs.at 0).ok = true) : exec (.read a) s =
    .next (s.afterRead a (s.pins (s.inputs.at 0) c) (.byte (s.pins (s.inputs.at 0) c))) := by
  rw [exec_read hr, regRead_ok (s := { s with ret := none }) ha ho hf, State.afterRead, ho]
  cases c <;> rfl

end

/-- Settles O18: both reads end in `State.afterRead`, with PINS in the buffer when the call completes. -/
theorem readsReturnThePins : Obligations.ReadsReturnThePins := by
  unfold Obligations.ReadsReturnThePins
  intro s a c hr ha hf
  refine ⟨pins_getLsbD s _ c,
    ⟨_, s.readBuffer c, exec_busWriteRead_alone hr ha hf, fun ho => ?_, rfl, ?_, ?_⟩, fun ho => ?_⟩
  · rw [State.readBuffer, if_pos ho]
  · exact afterRead_trace ..
  · exact afterRead_frame ..
  · have htrace := afterRead_trace (s := s) (a := a) (s.pins (s.inputs.at 0) c) (.byte (s.pins (s.inputs.at 0) c))
    rw [ho] at htrace
    exact ⟨_, _, exec_read_alone hr ha hf ho, rfl, rfl, htrace, afterRead_frame ..⟩

end Sys2Proof.Machine

/-! Targets no chip or register answers at (R214, R301, R911): the transport call is refused, and with it every operation
that begins with one. -/

namespace Sys2Proof.Machine

open Sys2Proof

/-! ## A refusal ends the operation -/

@[simp] theorem refuse_andThen {α β : Type} (r : RefusalReason) (s : State) (next : α → State → Ran β) :
    (refuse r s : Ran α).andThen next = refuse r s := rfl

@[simp] theorem refuse_finish (r : RefusalReason) (s : State) : (refuse r s : Ran RetVal).finish = s.refuse r := rfl

/-- An operation without a value that is refused leaves the refusal alone. -/
theorem unitOp_refused {op : State → Ran Unit} {r : RefusalReason} {s : State} (h : op s = refuse r s) :
    (unitOp op s).finish = s.refuse r := by
  rw [unitOp, h, refuse_andThen, refuse_finish]

/-! ## The transport calls (R214) -/

theorem regAt_ne_gpio {p : Params} {reg : Byte} (h : reg ≠ p.regGpio) : regAt p reg ≠ some .gpio := by
  rw [regAt, if_neg h]
  split <;> simp

section
variable {s : State} {a : BusAddr} {reg : Byte}

theorem busWriteCall_foreign (h : chipAt s.params a = none ∨ regAt s.params reg = none) (rmw : Option ChipId) (v : Byte) :
    busWriteCall rmw a reg v s = refuse .foreignTarget s := by
  unfold busWriteCall
  split
  next hc hr => simp [hc, hr] at h
  next => rfl

theorem busReadCall_foreign (h : chipAt s.params a = none ∨ reg ≠ s.params.regGpio) :
    busReadCall a reg s = refuse .foreignTarget s := by
  unfold busReadCall
  split
  next hc hr => exact (h.elim (by simp [hc]) fun hn => regAt_ne_gpio hn hr).elim
  next => rfl

/-! ## The register operations -/

variable (h : chipAt s.params a = none)
include h

theorem regRead_foreign : regRead a s = refuse .foreignTarget s := by
  rw [regRead, busReadCall_foreign (.inl h), refuse_andThen]

theorem regWrite_foreign (rmw : Option ChipId) (v : Byte) : regWrite rmw a v s = refuse .foreignTarget s := by
  rw [regWrite, busWriteCall_foreign (.inl h), refuse_andThen]

theorem setBits_foreign (m : Byte) : setBits a m s = refuse .foreignTarget s := by
  rw [setBits, regRead_foreign h, refuse_andThen]

theorem clearBits_foreign (m : Byte) : clearBits a m s = refuse .foreignTarget s := by
  rw [clearBits, regRead_foreign h, refuse_andThen]

/-- Inside an init the legality of the call holds, so its target is looked at (log entry 32). -/
theorem configureDirection_foreign (hi : s.busOwner = some .lcdInit ∨ s.busOwner = some .keypadInit) (m : Byte) :
    configureDirection a m s = refuse .foreignTarget s := by
  have inside : s.insideInit = true := by simpa [State.insideInit] using hi
  rw [configureDirection, if_pos inside, busWriteCall_foreign (.inl h), refuse_andThen]

end

/-! ## The instructions -/

section
variable {s : State} {a : BusAddr} {reg : Byte} (hs : s.Running)
include hs

theorem exec_busWrite_foreign (h : chipAt s.params a = none ∨ regAt s.params reg = none) (v : Byte) :
    exec (.busWrite a reg v) s = .next (({ s with ret := none } : State).refuse .foreignTarget) := by
  rw [exec_busWrite hs, busWriteCall_foreign (s := { s with ret := none }) h, refuse_andThen, refuse_finish]

theorem exec_busWriteRead_foreign (h : chipAt s.params a = none ∨ reg ≠ s.params.regGpio) :
    exec (.busWriteRead a reg) s = .next (({ s with ret := none } : State).refuse .foreignTarget) := by
  rw [exec_busWriteRead hs, busReadCall_foreign (s := { s with ret := none }) h, refuse_andThen, refuse_finish]

theorem exec_read_foreign (h : chipAt s.params a = none) :
    exec (.read a) s = .next (({ s with ret := none } : State).refuse .foreignTarget) := by
  rw [exec_read hs, regRead_foreign (s := { s with ret := none }) h, refuse_andThen, refuse_finish]

end

/-- Settles O24: at a foreign target each of the seven instructions stops in its first transport call. -/
theorem foreignTargetsAreRefused : Obligations.ForeignTargetsAreRefused := by
  unfold Obligations.ForeignTargetsAreRefused
  intro s a hs
  refine ⟨fun i h hi => ?_, fun reg v hr => exec_busWrite_foreign hs (.inr hr) v,
    fun reg hr => exec_busWriteRead_foreign hs (.inr hr)⟩
  have h' : chipAt ({ s with ret := none } : State).params a = none := h
  rcases hi with ⟨reg, v, rfl⟩ | ⟨reg, rfl⟩ | rfl | ⟨v, rfl⟩ | ⟨m, rfl⟩ | ⟨m, rfl⟩ | ⟨⟨m, rfl⟩, hinit⟩
  · exact exec_busWrite_foreign hs (.inl h) v
  · exact exec_busWriteRead_foreign hs (.inl h)
  · exact exec_read_foreign hs h
  · rw [exec_write hs, unitOp_refused (regWrite_foreign h' none v)]; rfl
  · rw [exec_setBits hs, unitOp_refused (setBits_foreign h' m)]; rfl
  · rw [exec_clearBits hs, unitOp_refused (clearBits_foreign h' m)]; rfl
  · rw [exec_configureDirection hs, unitOp_refused (configureDirection_foreign h' hinit m)]; rfl

end Sys2Proof.Machine

/-! The encodings (R300 to R316): the controller's words and the nibble transfers, with decoder and encoder inverse to
each other, the request an instruction is delivered as, and the bits of `datamask`. -/

namespace Sys2Proof

/-! ## Runs of bits -/

section
variable {n k m : Nat} {w : BitVec n}

theorem ofBool_getLsbD (w : BitVec n) (k : Nat) : BitVec.ofBool (w.getLsbD k) = w.extractLsb' k 1 := by
  ext i hi
  simp [show i = 0 by omega]

/-- A run of bits grows by the bit below it. -/
theorem extractLsb'_append_bit :
    w.extractLsb' (k + 1) m ++ BitVec.ofBool (w.getLsbD k) = w.extractLsb' k (m + 1) := by
  rw [ofBool_getLsbD, BitVec.extractLsb'_append_extractLsb'_eq_extractLsb' rfl]

variable (above : w.extractLsb' (k + 1) m = 0#m)
include above

theorem extractLsb'_of_bit_true (bit : w.getLsbD k = true) : w.extractLsb' k (m + 1) = 1#(m + 1) := by
  rw [← extractLsb'_append_bit, above, bit]
  simp [BitVec.toNat_eq]

theorem extractLsb'_of_bit_false (bit : ¬ w.getLsbD k = true) : w.extractLsb' k (m + 1) = 0#(m + 1) := by
  rw [← extractLsb'_append_bit, above, eq_false_of_ne_true bit]
  simp

end

/-! ## The controller's words (R307) -/

/-- The constant head of a word selects its row, and the fields below the head are the operands. -/
theorem decodeCmd_encodeCmd (c : Cmd) : decodeCmd (encodeCmd c) = c := by
  cases c <;> simp only [decodeCmd, encodeCmd, BitVec.getLsbD_append, BitVec.extractLsb'_append_eq_right] <;> simp

section
variable (w : BitVec 10)

/-- A word is its bits from `k` on, with the `k` bits below them. -/
theorem word_eq_append (k m : Nat) : w.extractLsb' k m ++ w.extractLsb' 0 k = w.extractLsb' 0 (m + k) :=
  BitVec.extractLsb'_append_extractLsb'_eq_extractLsb' (Nat.zero_add k).symm

/-- The words with RS = RW = 0: the bits from the top down to the highest 1 bit are the head of the row it selects. -/
theorem encodeCmd_decodeCmd_instruction (b9 : ¬ w.getLsbD 9 = true) (b8 : ¬ w.getLsbD 8 = true) :
    encodeCmd (decodeCmd w) = w := by
  have whole : w.extractLsb' 0 10 = w := BitVec.extractLsb'_eq_self
  have z9 := extractLsb'_of_bit_false BitVec.extractLsb'_eq_zero b9
  have z8 := extractLsb'_of_bit_false z9 b8
  rw [decodeCmd, if_neg b8, if_neg b9]
  by_cases b7 : w.getLsbD 7
  · rw [if_pos b7, encodeCmd, ← extractLsb'_of_bit_true z8 b7, word_eq_append, whole]
  have z7 := extractLsb'_of_bit_false z8 b7
  rw [if_neg b7]
  by_cases b6 : w.getLsbD 6
  · rw [if_pos b6, encodeCmd, ← extractLsb'_of_bit_true z7 b6, word_eq_append, whole]
  have z6 := extractLsb'_of_bit_false z7 b6
  rw [if_neg b6]
  by_cases b5 : w.getLsbD 5
  · rw [if_pos b5, encodeCmd, ← extractLsb'_of_bit_true z6 b5]
    simp only [extractLsb'_append_bit, word_eq_append, whole]
  have z5 := extractLsb'_of_bit_false z6 b5
  rw [if_neg b5]
  by_cases b4 : w.getLsbD 4
  · rw [if_pos b4, encodeCmd, ← extractLsb'_of_bit_true z5 b4]
    simp only [extractLsb'_append_bit, word_eq_append, whole]
  have z4 := extractLsb'_of_bit_false z5 b4
  rw [if_neg b4]
  by_cases b3 : w.getLsbD 3
  · rw [if_pos b3, encodeCmd, ← extractLsb'_of_bit_true z4 b3]
    simp only [extractLsb'_append_bit, whole]
  have z3 := extractLsb'_of_bit_false z4 b3
  rw [if_neg b3]
  by_cases b2 : w.getLsbD 2
  · rw [if_pos b2, encodeCmd, ← extractLsb'_of_bit_true z3 b2]
    simp only [extractLsb'_append_bit, whole]
  have z2 := extractLsb'_of_bit_false z3 b2
  rw [if_neg b2]
  by_cases b1 : w.getLsbD 1
  · rw [if_pos b1, encodeCmd, ← extractLsb'_of_bit_true z2 b1, extractLsb'_append_bit, whole]
  have z1 := extractLsb'_of_bit_false z2 b1
  rw [if_neg b1]
  by_cases b0 : w.getLsbD 0
  · rw [if_pos b0, encodeCmd, ← extractLsb'_of_bit_true z1 b0, whole]
  · rw [if_neg b0, encodeCmd, ← extractLsb'_of_bit_false z1 b0, whole]

/-- RS and RW are the head of a read or a data write; the other words are instructions. -/
theorem encodeCmd_decodeCmd : encodeCmd (decodeCmd w) = w := by
  have head : BitVec.ofBool (w.getLsbD 9) ++ BitVec.ofBool (w.getLsbD 8) ++ w.extractLsb' 0 8 = w := by
    rw [ofBool_getLsbD, extractLsb'_append_bit, word_eq_append]
    exact BitVec.extractLsb'_eq_self
  cases b9 : w.getLsbD 9 <;> cases b8 : w.getLsbD 8
  case false.false => exact encodeCmd_decodeCmd_instruction w (Bool.eq_false_iff.mp b9) (Bool.eq_false_iff.mp b8)
  all_goals
    rw [b9, b8] at head
    simp only [decodeCmd, b9, b8, if_true, Bool.false_eq_true, if_false]
    exact head

end

/-! ## Nibble transfers (R304) -/

theorem decodeNib_nibWord {rs : Bool} {n : Nibble} (h : nibWord rs n ≠ 0x02#5) :
    decodeNib (nibWord rs n) = .writeNibble rs n := by
  rw [decodeNib, if_neg h]
  simp only [nibWord, BitVec.getLsbD_append, BitVec.extractLsb'_append_eq_right]
  simp

/-! ## Requests (R300, R316) -/

/-- A request whose form is a well-formed instruction is that instruction. -/
theorem decode_of_decodeForm {r : Request} {i : Instr} (h : decodeForm r = .ok i) (hw : i.wellFormed = true) :
    decode r = .ok i := by
  rw [decode, h]
  exact if_pos hw

theorem decodeForm_cmd (w : BitVec 10) : decodeForm (.cmd w.toNat) = .ok (decodeCmd w).toInstr := by
  rw [decodeForm, if_pos w.isLt, BitVec.ofNat_toNat, BitVec.setWidth_eq]

theorem decodeForm_nib (w : BitVec 5) : decodeForm (.nib w.toNat) = .ok (decodeNib w) := by
  rw [decodeForm, if_pos w.isLt, BitVec.ofNat_toNat, BitVec.setWidth_eq]

theorem decodeForm_encode_toInstr (c : Cmd) : decodeForm (encode c.toInstr) = .ok c.toInstr := by
  have word : encode c.toInstr = .cmd (encodeCmd c).toNat := by cases c <;> rfl
  rw [word, decodeForm_cmd, decodeCmd_encodeCmd]

theorem decodeForm_encode_writeNibble (rs : Bool) (n : Nibble) :
    decodeForm (encode (.writeNibble rs n)) = .ok (.writeNibble rs n) := by
  rw [encode]
  split
  next => rfl
  next h => rw [decodeForm_nib, decodeNib_nibWord h]

/-- Whatever its operands, an instruction is delivered in a form that stands for it: a word for the controller's rows
and for a nibble transfer, and otherwise a frame or a call that carries the operands as they are. -/
theorem decodeForm_encode (i : Instr) : decodeForm (encode i) = .ok i := by
  cases i with
  | nopInvalid => exact decodeForm_encode_toInstr .nopInvalid
  | clearDisplay => exact decodeForm_encode_toInstr .clearDisplay
  | returnHome x => exact decodeForm_encode_toInstr (.returnHome x)
  | entryModeSet i s => exact decodeForm_encode_toInstr (.entryModeSet i s)
  | displayControl d c b => exact decodeForm_encode_toInstr (.displayControl d c b)
  | cursorDisplayShift p r x => exact decodeForm_encode_toInstr (.cursorDisplayShift p r x)
  | functionSet l n f x => exact decodeForm_encode_toInstr (.functionSet l n f x)
  | setCgramAddr a => exact decodeForm_encode_toInstr (.setCgramAddr a)
  | setDdramAddr a => exact decodeForm_encode_toInstr (.setDdramAddr a)
  | readBusyAddr x => exact decodeForm_encode_toInstr (.readBusyAddr x)
  | writeData d => exact decodeForm_encode_toInstr (.writeData d)
  | readData x => exact decodeForm_encode_toInstr (.readData x)
  | writeNibble rs n => exact decodeForm_encode_writeNibble rs n
  | delay u d => cases u <;> rfl
  | _ => rfl

/-- Settles O4: the form gives the instruction back, and its operands are in the ranges the decoder checks. -/
theorem decodeOfEncode : Obligations.DecodeOfEncode := by
  unfold Obligations.DecodeOfEncode
  exact fun i hi => decode_of_decodeForm (decodeForm_encode i) hi

theorem toInstr_wellFormed (c : Cmd) : c.toInstr.wellFormed = true := by cases c <;> rfl

/-- Settles O3: `decodeCmd` and `encodeCmd` are inverse, so the instruction of a word is the one `decodeCmd` gives. -/
theorem everyCommandWordIsOneInstruction : Obligations.EveryCommandWordIsOneInstruction := by
  unfold Obligations.EveryCommandWordIsOneInstruction
  refine ⟨fun w hw => ?_, fun w hw => ?_⟩
  · obtain ⟨v, rfl⟩ : ∃ v : BitVec 10, v.toNat = w := ⟨.ofNat 10 w, Nat.mod_eq_of_lt hw⟩
    refine ⟨decodeCmd v, decode_of_decodeForm (decodeForm_cmd v) (toInstr_wellFormed _),
      congrArg BitVec.toNat (encodeCmd_decodeCmd v), fun c hc => ?_⟩
    rw [← BitVec.eq_of_toNat_eq hc, decodeCmd_encodeCmd]
  · rw [decode, decodeForm, if_neg (Nat.not_lt.mpr hw)]

/-- Settles O2: each written word is evaluated by the decoder. -/
theorem writtenWordsDecode : Obligations.WrittenWordsDecode := by
  unfold Obligations.WrittenWordsDecode
  decide

end Sys2Proof

namespace Sys2Proof.Machine

open Sys2Proof

/-! ## `datamask` (R305) -/

/-- A bit of `datamask` is that of the nibble's bit whose line stands there. -/
theorem dataMask_getLsbD (p : Params) (n : Nibble) (j : Nat) : (dataMask p n).getLsbD j =
    (n.getLsbD 0 && decide (p.pinD4.val = j) || n.getLsbD 1 && decide (p.pinD5.val = j) ||
      n.getLsbD 2 && decide (p.pinD6.val = j) || n.getLsbD 3 && decide (p.pinD7.val = j)) := by
  simp only [dataMask, BitVec.getLsbD_or, maskIf_getLsbD]

/-- Settles O5: the four lines are distinct, so of the terms of `dataMask_getLsbD` at a line only its own is left. -/
theorem datamaskAssertsTheNibble : Obligations.DatamaskAssertsTheNibble := by
  unfold Obligations.DatamaskAssertsTheNibble
  intro p hp n
  obtain ⟨-, -, ⟨h45, h46, h47⟩, ⟨h56, h57⟩, h67⟩ := lcdPins_ne hp
  simp only [dataMask_getLsbD]
  refine ⟨?_, ?_, ?_, ?_, fun j hj => ?_, ?_⟩
  · simp [h45.symm, h46.symm, h47.symm]
  · simp [h45, h56.symm, h57.symm]
  · simp [h46, h56, h67.symm]
  · simp [h47, h57, h67]
  · obtain ⟨h4, h5, h6, h7⟩ : j ≠ p.pinD4 ∧ j ≠ p.pinD5 ∧ j ≠ p.pinD6 ∧ j ≠ p.pinD7 := by simpa using hj
    simp [Fin.val_inj, h4.symm, h5.symm, h6.symm, h7.symm]
  · simp [dataMask, maskIf]

end Sys2Proof.Machine

/-! The register model of the expanders (R400 to R414): what one transport call leaves, completed or failed, and what
the operations made of one or two of them leave. -/

namespace Sys2Proof.Machine

open Sys2Proof

/-! ## What transport calls to one chip leave -/

/-- `n` transport calls to the chip `c` lead from `s` to `t`: the chip is then `chip`, `new` was added to TRACE, `n` draws
were used up, and no time but theirs has passed. `took` says whether a register took a value; when none did, a defined
controller is as it was. Everything else is as it was. -/
structure State.Transfers (s t : State) (c : ChipId) (n : Nat) (chip : Chip) (took : Bool) (new : List TraceEntry) :
    Prop where
  chip : t.chip c = chip
  trace : t.trace = s.trace ++ new
  inputs : t.inputs = s.inputs.drop n
  now : t.now = s.now + s.inputs.spent n
  kp : c = .kp → s.KeypadOnly t
  lcd : c = .lcd → s.LcdOnly t
  ctl : took = false → s.ctl.undefined = false → t.ctl = s.ctl

section
variable {s t u : State} {c : ChipId} {n m : Nat} {chip chip' : Chip} {took took' : Bool} {new new' : List TraceEntry}

theorem State.Transfers.trans (h : s.Transfers t c n chip took new) (h' : t.Transfers u c m chip' took' new') :
    s.Transfers u c (n + m) chip' (took || took') (new ++ new') where
  chip := h'.chip
  trace := by rw [h'.trace, h.trace, List.append_assoc]
  inputs := by rw [h'.inputs, h.inputs, Inputs.drop_drop]
  now := by rw [h'.now, h.now, h.inputs, Inputs.spent_add, Nat.add_assoc]
  kp hc := (h.kp hc).trans (h'.kp hc)
  lcd hc := (h.lcd hc).trans (h'.lcd hc)
  ctl ht hu := by
    obtain ⟨ht, ht'⟩ := Bool.or_eq_false_iff.1 ht
    have same := h.ctl ht hu
    rw [h'.ctl ht' (same ▸ hu), same]

/-- The value an operation returns is no part of what its calls change. -/
theorem State.Transfers.ret (h : s.Transfers t c n chip took new) (v : Option RetVal) :
    ({ s with ret := v } : State).Transfers { t with ret := v } c n chip took new where
  chip := by rw [← h.chip]; cases c <;> rfl
  trace := h.trace
  inputs := h.inputs
  now := h.now
  kp hc := ⟨congrArg (fun x : State => { x with ret := v }) (h.kp hc).frame, (h.kp hc).mark, (h.kp hc).ctl⟩
  lcd hc := (congrArg (fun x : State => { x with ret := v }) (h.lcd hc) :)
  ctl := h.ctl

/-- Nor are FATAL and its info record. -/
theorem State.Transfers.raiseFatal (h : s.Transfers t c n chip took new) (code : FaultCode) (info : FaultInfo) :
    (s.raiseFatal code info).Transfers (t.raiseFatal code info) c n chip took new where
  chip := by rw [← h.chip]; cases c <;> rfl
  trace := h.trace
  inputs := h.inputs
  now := h.now
  kp hc := ⟨congrArg (State.raiseFatal code info) (h.kp hc).frame, (h.kp hc).mark, (h.kp hc).ctl⟩
  lcd hc := (congrArg (State.raiseFatal code info) (h.lcd hc) :)
  ctl := h.ctl

end

/-! ## The calls without a second bus user (R400 to R403) -/

/-- The state after a BusWrite of `v` to the register `r`, at index `reg` of the chip `c` at `a`. The call completes, or
fails with the value taken or not (R402). -/
def State.didWrite (c : ChipId) (r : ChipReg) (a : BusAddr) (reg v : Byte) (s : State) : State :=
  let t := (s.tick 0).record (.w a [reg, v]) (!(s.inputs.at 0).ok)
  if (s.inputs.at 0).ok || (s.inputs.at 0).took then t.chipWrite c r v (s.inputs.at 0) else t

/-- The state after a read of the GPIO register at `a` with `b` in the buffer, completed or failed. -/
def State.didRead (a : BusAddr) (b : Byte) (s : State) : State :=
  (s.tick 0).record (.wr a [s.params.regGpio] [b]) (!(s.inputs.at 0).ok)

/-- The entry of the call `call` under the next draw. -/
def State.entry (s : State) (call : BusCall) : TraceEntry :=
  { call := call, err := !(s.inputs.at 0).ok, time := s.now + s.inputs.spent 1 }

/-- A passage of time and its entry leave both chips alone, and a defined controller. -/
theorem tick_record_transfers (s : State) (c : ChipId) (call : BusCall) :
    s.Transfers ((s.tick 0).record call (!(s.inputs.at 0).ok)) c 1 (s.chip c) false [s.entry call] where
  chip := by cases c <;> rfl
  trace := by rw [State.record_trace, State.tick_spent]; rfl
  inputs := Inputs.rest_eq_drop _
  now := State.tick_spent 0 s
  kp _ := settle_keypadOnly rfl
  lcd _ := rfl
  ctl _ := Controller.settle_defined

theorem didRead_transfers (s : State) (c : ChipId) (a : BusAddr) (b : Byte) :
    s.Transfers (s.didRead a b) c 1 (s.chip c) false [s.entry (.wr a [s.params.regGpio] [b])] :=
  tick_record_transfers s c _

theorem didRead_at (s : State) (a : BusAddr) (b : Byte) (k : Nat) :
    (s.didRead a b).inputs.at k = s.inputs.at (k + 1) :=
  Inputs.rest_at _ k

/-- A register of a chip takes a value: on the keypad chip nothing else changes, on the LCD chip the controller samples
its lines (R409, R410). -/
theorem chipWrite_transfers (s : State) (c : ChipId) (r : ChipReg) (v : Byte) (d : Draw) :
    s.Transfers (s.chipWrite c r v d) c 0 ((s.chip c).set r v) true [] where
  chip := by cases c <;> rfl
  trace := by simp
  inputs := by simp
  now := by simp [Inputs.spent]
  kp := by rintro rfl; exact ⟨rfl, rfl, fun _ => rfl⟩
  lcd := by rintro rfl; rfl
  ctl := nofun

theorem didWrite_transfers (s : State) (c : ChipId) (r : ChipReg) (a : BusAddr) (reg v : Byte) :
    s.Transfers (s.didWrite c r a reg v) c 1
      (if (s.inputs.at 0).ok || (s.inputs.at 0).took then (s.chip c).set r v else s.chip c)
      ((s.inputs.at 0).ok || (s.inputs.at 0).took) [s.entry (.w a [reg, v])] := by
  have call := tick_record_transfers s c (.w a [reg, v])
  rw [State.didWrite]
  cases (s.inputs.at 0).ok || (s.inputs.at 0).took with
  | false => exact call
  | true =>
    have both := call.trans (chipWrite_transfers _ c r v (s.inputs.at 0))
    rwa [call.chip] at both

section
variable {s : State} (c : ChipId) (r : ChipReg) (a : BusAddr) (reg v : Byte)

theorem didWrite_transfers_of_ok (ho : (s.inputs.at 0).ok = true) :
    s.Transfers (s.didWrite c r a reg v) c 1 ((s.chip c).set r v) true
      [{ call := .w a [reg, v], err := false, time := s.now + s.inputs.spent 1 }] := by
  have call := didWrite_transfers s c r a reg v
  rwa [State.entry, ho] at call

/-- The register holds the old value or the new one (R402). -/
theorem didWrite_transfers_of_failed (ho : (s.inputs.at 0).ok = false) :
    s.Transfers (s.didWrite c r a reg v) c 1 (if (s.inputs.at 0).took then (s.chip c).set r v else s.chip c)
      (s.inputs.at 0).took [{ call := .w a [reg, v], err := true, time := s.now + s.inputs.spent 1 }] := by
  have call := didWrite_transfers s c r a reg v
  rwa [State.entry, ho] at call

end

/-- A completed write to the LCD chip shows a defined controller the lines as they then are (R409, R500). -/
theorem didWrite_lcd_ctl {s : State} (ho : (s.inputs.at 0).ok = true) (hu : s.ctl.undefined = false) (r : ChipReg)
    (a : BusAddr) (reg v : Byte) : (s.didWrite .lcd r a reg v).ctl =
      s.ctl.sample (s.didWrite .lcd r a reg v).now (s.inputs.at 0).lo
        (lcdLines s.params (s.didWrite .lcd r a reg v).lcdChip (s.inputs.at 0) s.ctl.lcd.en) := by
  simp [State.didWrite, ho, State.chipWrite, Controller.settle_defined hu]

section
variable {s : State} {a : BusAddr} {c : ChipId} {reg : Byte} {r : ChipReg} (ha : chipAt s.params a = some c)
  (hf : (s.inputs.at 0).foreign = none)
include ha hf

theorem busWriteCall_alone (hr : regAt s.params reg = some r) (rmw : Option ChipId) (v : Byte) :
    busWriteCall rmw a reg v s = .done (s.inputs.at 0).ok (s.didWrite c r a reg v) := by
  simp only [busWriteCall, ha, hr, primitive_alone hf]
  rfl

/-- A failing write is fatal, whether its value was taken or not (R402, R405). -/
theorem regWrite_alone (rmw : Option ChipId) (v : Byte) : regWrite rmw a v s =
    if (s.inputs.at 0).ok then .done () (s.didWrite c .gpio a s.params.regGpio v)
    else fatal .bus (.bus (.write a v)) (s.didWrite c .gpio a s.params.regGpio v) := by
  rw [regWrite, busWriteCall_alone ha hf (regAt_gpio _), Ran.done_andThen]

theorem regRead_done (ho : (s.inputs.at 0).ok = true) :
    regRead a s = .done (s.pins (s.inputs.at 0) c) (s.didRead a (s.pins (s.inputs.at 0) c)) := by
  rw [regRead_ok ha ho hf, State.didRead, ho]
  cases c <;> rfl

/-- A failing read is fatal (R401, R404). -/
theorem regRead_failed (ho : (s.inputs.at 0).ok = false) :
    regRead a s = fatal .bus (.bus (.read a)) (s.didRead a (s.inputs.at 0).ext) := by
  simp [regRead, busReadCall, ha, primitive_alone hf, ho, State.didRead]

end

/-! ## `configure_direction` (R408) -/

theorem insideInit_iff (s : State) :
    s.insideInit = true ↔ s.busOwner = some .lcdInit ∨ s.busOwner = some .keypadInit := by
  simp [State.insideInit]

theorem configureDirection_alone {s : State} {a : BusAddr} {c : ChipId} (ha : chipAt s.params a = some c)
    (hf : (s.inputs.at 0).foreign = none) (hp : s.params.distinct)
    (hi : s.busOwner = some .lcdInit ∨ s.busOwner = some .keypadInit) (m : Byte) : configureDirection a m s =
    if (s.inputs.at 0).ok then .done () (s.didWrite c .dir a s.params.regDir m)
    else fatal .bus (.bus (.configureDirection a)) (s.didWrite c .dir a s.params.regDir m) := by
  rw [configureDirection, if_pos ((insideInit_iff s).2 hi), busWriteCall_alone ha hf (regAt_dir hp), Ran.done_andThen]

theorem configureDirection_refused {s : State} (hi : ¬ (s.busOwner = some .lcdInit ∨ s.busOwner = some .keypadInit))
    (a : BusAddr) (m : Byte) : configureDirection a m s = refuse .directionOutsideInit s := by
  rw [configureDirection, if_neg (mt (insideInit_iff s).1 hi)]

/-! ## The bit operations (R406, R407) -/

/-- A read of PINS and the write of `f` of the value read: what `set_bits` and `clear_bits` have in common. -/
def readModifyWrite (a : BusAddr) (f : Byte → Byte) (s : State) : Ran Unit :=
  (regRead a s).andThen fun v s => regWrite (chipAt s.params a) a (f v) s

theorem exec_setBits_readModifyWrite {s : State} (hs : s.Running) (a : BusAddr) (m : Byte) : exec (.setBits a m) s =
    .next (unitOp (readModifyWrite a (· ||| m)) { s with ret := none }).finish :=
  exec_setBits hs a m

theorem exec_clearBits_readModifyWrite {s : State} (hs : s.Running) (a : BusAddr) (m : Byte) : exec (.clearBits a m) s =
    .next (unitOp (readModifyWrite a (· &&& ~~~m)) { s with ret := none }).finish :=
  exec_clearBits hs a m

/-- The state after the two calls of a bit operation that writes `w`. -/
def State.didReadWrite (c : ChipId) (a : BusAddr) (w : Byte) (s : State) : State :=
  (s.didRead a (s.pins (s.inputs.at 0) c)).didWrite c .gpio a s.params.regGpio w

section
variable {s : State} {a : BusAddr} {c : ChipId}

theorem readModifyWrite_failed (ha : chipAt s.params a = some c) (hf : (s.inputs.at 0).foreign = none)
    (ho : (s.inputs.at 0).ok = false) (f : Byte → Byte) :
    readModifyWrite a f s = fatal .bus (.bus (.read a)) (s.didRead a (s.inputs.at 0).ext) := by
  rw [readModifyWrite, regRead_failed ha hf ho]
  rfl

/-- Once the read has completed, the operation is the write. -/
theorem readModifyWrite_alone (ha : chipAt s.params a = some c) (hf : (s.inputs.at 0).foreign = none)
    (ho : (s.inputs.at 0).ok = true) (hf' : (s.inputs.at 1).foreign = none) (f : Byte → Byte) :
    readModifyWrite a f s =
      let w := f (s.pins (s.inputs.at 0) c)
      if (s.inputs.at 1).ok then .done () (s.didReadWrite c a w)
      else fatal .bus (.bus (.write a w)) (s.didReadWrite c a w) := by
  rw [readModifyWrite, regRead_done ha hf ho, Ran.done_andThen,
    regWrite_alone (s := s.didRead a _) ha (by rwa [didRead_at]), didRead_at]
  rfl

theorem didReadWrite_transfers (ho : (s.inputs.at 0).ok = true) (w : Byte) :
    s.Transfers (s.didReadWrite c a w) c 2
      (if (s.inputs.at 1).ok || (s.inputs.at 1).took then { s.chip c with out := w } else s.chip c)
      ((s.inputs.at 1).ok || (s.inputs.at 1).took)
      [{ call := .wr a [s.params.regGpio] [s.pins (s.inputs.at 0) c], err := false, time := s.now + s.inputs.spent 1 },
       { call := .w a [s.params.regGpio, w], err := !(s.inputs.at 1).ok, time := s.now + s.inputs.spent 2 }] := by
  have read := didRead_transfers s c a (s.pins (s.inputs.at 0) c)
  have write := didWrite_transfers (s.didRead a (s.pins (s.inputs.at 0) c)) c .gpio a s.params.regGpio w
  have spent : s.inputs.spent 2 = s.inputs.spent 1 + (s.inputs.drop 1).spent 1 := Inputs.spent_add _ 1 1
  have both := read.trans write
  simp only [State.entry, read.chip, read.now, read.inputs, Inputs.drop_at, ho, Bool.not_true, Bool.false_or,
    List.singleton_append, Nat.add_assoc, ← spent] at both
  exact both

end

/-! ## The instructions -/

theorem unitOp_done {op : State → Ran Unit} {s t : State} (h : op s = .done () t) :
    (unitOp op s).finish = { t with ret := some .unit } := by
  rw [unitOp, h]; rfl

/-- An operation that stops in a fault returns nothing. -/
theorem unitOp_fatal {op : State → Ran Unit} {s t : State} {code : FaultCode} {info : FaultInfo}
    (h : op s = fatal code info t) : (unitOp op s).finish = t.raiseFatal code info := by
  rw [unitOp, h]; rfl

/-! ## The obligations -/

/-- Settles O17: the call leaves `State.didWrite`, whatever its draw. -/
theorem busWriteActsOnItsChip : Obligations.BusWriteActsOnItsChip := by
  unfold Obligations.BusWriteActsOnItsChip
  intro s a reg v c r hs ha hr hf
  have call := (didWrite_transfers { s with ret := none } c r a reg v).ret (some (.transport (s.inputs.at 0).ok))
  refine ⟨_, exec_busWrite hs a reg v, ?_⟩
  rw [busWriteCall_alone (s := { s with ret := none }) ha hf hr, Ran.done_andThen, Ran.finish_done]
  refine ⟨rfl, call.now, call.inputs, ?_, ?_, call.kp, call.lcd, fun _ hu ht => call.ctl ht hu⟩
  · rw [call.now]; exact call.trace
  · exact call.chip

/-- Settles O19: the controller's sample is in `State.chipWrite`, after a tick that leaves a defined controller. -/
theorem writeSetsTheLatch : Obligations.WriteSetsTheLatch := by
  unfold Obligations.WriteSetsTheLatch
  intro s a v c hs ha hq
  obtain ⟨ho, hf⟩ := hq 0 (by omega)
  have run := regWrite_alone (s := { s with ret := none }) ha hf none v
  have call := (didWrite_transfers_of_ok (s := { s with ret := none }) c .gpio a s.params.regGpio v ho).ret (some .unit)
  refine ⟨_, exec_write hs a v, ?_⟩
  rw [unitOp_done (run.trans (if_pos ho))]
  refine ⟨rfl, call.chip, ?_, call.inputs, call.now, call.kp, fun hc => ⟨call.lcd hc, fun hu => ?_⟩⟩
  · rw [call.now]; exact call.trace
  · subst hc
    exact didWrite_lcd_ctl (s := { s with ret := none }) ho hu .gpio a _ v

/-- Settles O22: both are a `readModifyWrite`, whose two calls complete. -/
theorem bitOperationsReadThenWrite : Obligations.BitOperationsReadThenWrite := by
  unfold Obligations.BitOperationsReadThenWrite
  intro s a m c hs ha hq v completes
  obtain ⟨ho, hf⟩ := hq 0 (by omega)
  obtain ⟨ho', hf'⟩ := hq 1 (by omega)
  have bit : ∀ (i : Instr) (f : Byte → Byte),
      exec i s = .next (unitOp (readModifyWrite a f) { s with ret := none }).finish → completes i (f v) := by
    intro i f e
    have run := readModifyWrite_alone (s := { s with ret := none }) ha hf ho hf' f
    have calls := (didReadWrite_transfers (s := { s with ret := none }) (a := a) (c := c) ho (f v)).ret (some .unit)
    rw [ho'] at calls
    refine ⟨_, e, ?_⟩
    rw [unitOp_done (run.trans (if_pos ho'))]
    exact ⟨rfl, calls.chip, calls.inputs, calls.trace, calls.kp, calls.lcd⟩
  exact ⟨bit _ _ (exec_setBits_readModifyWrite hs a m), bit _ _ (exec_clearBits_readModifyWrite hs a m)⟩

/-- Settles O23: from an init the call is one BusWrite to DIR, elsewhere it is refused before it. -/
theorem configureDirectionOnlyFromInit : Obligations.ConfigureDirectionOnlyFromInit := by
  unfold Obligations.ConfigureDirectionOnlyFromInit
  intro s a m hs fromInit
  refine ⟨fun hi c ha hp hq => ?_, fun hi => ?_⟩
  · obtain ⟨ho, hf⟩ := hq 0 (by omega)
    have run := configureDirection_alone (s := { s with ret := none }) ha hf hp hi m
    have call := (didWrite_transfers_of_ok (s := { s with ret := none }) c .dir a s.params.regDir m ho).ret (some .unit)
    refine ⟨_, exec_configureDirection hs a m, ?_⟩
    rw [unitOp_done (run.trans (if_pos ho))]
    refine ⟨rfl, call.chip, call.inputs, ?_, call.kp, call.lcd⟩
    rw [call.now]; exact call.trace
  · rw [exec_configureDirection hs, unitOp_refused (configureDirection_refused (s := { s with ret := none }) hi a m)]
    rfl

/-- Settles O25: the operation stops in the state its calls lead to, with FATAL and the info record set. -/
theorem failedCallsAreFatal : Obligations.FailedCallsAreFatal := by
  unfold Obligations.FailedCallsAreFatal
  intro s a c hs ha hp hf g stops v halves kept
  have stop : ∀ {i op t chip took new n}, exec i s = .next (t.raiseFatal .bus (.bus op)) →
      ({ s with ret := none } : State).Transfers t c n chip took new → stops i op chip took new := by
    intro i op t chip took new n e calls
    have raised := calls.raiseFatal .bus (.bus op)
    exact ⟨_, e, raised.chip, raised.trace, raised.kp, fun hc => ⟨raised.lcd hc, raised.ctl⟩⟩
  refine ⟨?_, ?_⟩
  · intro ho m took
    have failed : ¬ (s.inputs.at 0).ok = true := Bool.eq_false_iff.1 ho
    refine ⟨fun i hi => ⟨(s.inputs.at 0).ext, ?_⟩, ?_, fun hi => ?_⟩
    · have calls := didRead_transfers { s with ret := none } c a (s.inputs.at 0).ext
      rw [State.entry, ho] at calls
      have bit := fun f => unitOp_fatal (readModifyWrite_failed (s := { s with ret := none }) ha hf ho f)
      simp only [List.mem_cons, List.not_mem_nil, or_false] at hi
      rcases hi with rfl | rfl | rfl
      · refine stop ?_ calls
        rw [exec_read hs, regRead_failed (s := { s with ret := none }) ha hf ho]
        rfl
      · exact stop ((exec_setBits_readModifyWrite hs a m).trans (congrArg _ (bit _))) calls
      · exact stop ((exec_clearBits_readModifyWrite hs a m).trans (congrArg _ (bit _))) calls
    · have run := regWrite_alone (s := { s with ret := none }) ha hf none m
      refine stop ?_ (didWrite_transfers_of_failed (s := { s with ret := none }) c .gpio a g m ho)
      rw [exec_write hs, unitOp_fatal (run.trans (if_neg failed))]
    · have run := configureDirection_alone (s := { s with ret := none }) ha hf hp hi m
      refine stop ?_ (didWrite_transfers_of_failed (s := { s with ret := none }) c .dir a s.params.regDir m ho)
      rw [exec_configureDirection hs, unitOp_fatal (run.trans (if_neg failed))]
  · intro ho hf' ho' m took
    have failed : ¬ (s.inputs.at 1).ok = true := Bool.eq_false_iff.1 ho'
    have bit : ∀ (i : Instr) (f : Byte → Byte),
        exec i s = .next (unitOp (readModifyWrite a f) { s with ret := none }).finish →
        stops i (.write a (f v)) (kept took { s.chip c with out := f v }) took (halves (f v)) := by
      intro i f e
      have run := readModifyWrite_alone (s := { s with ret := none }) ha hf ho hf' f
      have calls := didReadWrite_transfers (s := { s with ret := none }) (a := a) (c := c) ho (f v)
      rw [ho'] at calls
      refine stop ?_ calls
      rw [e, unitOp_fatal (run.trans (if_neg failed))]
      rfl
    exact ⟨bit _ _ (exec_setBits_readModifyWrite hs a m), bit _ _ (exec_clearBits_readModifyWrite hs a m)⟩

end Sys2Proof.Machine

/-! The driver keeps the controller as the first Clear display left it (R521, R530, R912). -/

namespace Sys2Proof.Machine

open Sys2Proof

/-! ## Operations between which the controller is tidy -/

/-- Between two bytes of the driver after the first clear: a settled 4-bit interface, a tidy controller, and no call to
come that fails or is not Main's. -/
structure State.InOrder (s : State) : Prop extends s.Settled where
  fourBit : s.FourBit
  tidy : s.ctl.Tidy
  quiet : ∀ n, s.inputs.Quiet n

/-- Main has stopped, with the controller tidy and defined. -/
structure State.StoppedTidy (s : State) : Prop where
  stopped : s.stopped = true
  tidy : s.ctl.Tidy
  defined : s.ctl.undefined = false

/-- From `s` an operation of the driver goes to its end in order, or it stops and leaves the controller tidy. -/
abbrev Ran.Orderly (s : State) (r : Ran Unit) : Prop :=
  r.Goes (fun s t => s.LcdOnly t ∧ t.InOrder) (fun _ t => t.StoppedTidy) s

theorem Ran.Orderly.andThen {s : State} {r : Ran Unit} {f : Unit → State → Ran Unit} (hr : r.Orderly s)
    (hf : ∀ t, t.InOrder → (f () t).Orderly t) : (r.andThen f).Orderly s := by
  cases r with
  | stopped t => exact hr
  | done _ t =>
    obtain ⟨hst, ht⟩ := hr
    rw [Ran.done_andThen]
    have next := hf t ht
    cases hu : f () t with
    | done _ u => rw [hu] at next; exact ⟨hst.trans next.1, next.2⟩
    | stopped u => rw [hu] at next; exact next

section
variable {s : State} (h : s.InOrder)
include h

theorem sendAll_orderly {bs : List (Bool × Byte)} (tame : ∀ p ∈ bs, Tame p) (tidy : (runAll bs s.ctl).Tidy) :
    (sendAll bs s).Orderly s := by
  obtain ⟨t, run, frame, inputs, -, -, -, settled, fourBit, view⟩ :=
    sendAll_tame h.toSettled h.fourBit (h.quiet _) tame
  rw [run]
  exact ⟨frame, settled, fourBit, tidy.of_view view, fun n => inputs ▸ (h.quiet _).drop _ le_rfl⟩

theorem clearDisplayBody_orderly : (clearDisplayBody s).Orderly s := by
  obtain ⟨t, run, frame, inputs, -, -, -, settled, fourBit, view⟩ :=
    clearDisplayBody_settled h.toSettled h.fourBit (h.quiet _)
  rw [run]
  exact ⟨frame, settled, fourBit, (tidy_clear h.tidy).of_view view, fun n => inputs ▸ (h.quiet _).drop _ le_rfl⟩

end

/-- A text that fails `validate` stops the call with the controller as it was (R722, R908). -/
theorem validate_of_not_validText {text : List Char} (h : ¬ ValidText text) (s : State) :
    ∃ u, validate text s = .stopped u ∧ u.stopped = true ∧ u.ctl = s.ctl := by
  unfold validate
  split
  next seven =>
    split
    next newlines =>
      split
      next found =>
        refine absurd ⟨seven, newlines, fun g hg => ?_⟩ h
        simpa using List.find?_eq_none.1 found g hg
      next => exact ⟨_, rfl, rfl, rfl⟩
    next => exact ⟨_, rfl, rfl, rfl⟩
  next => exact ⟨_, rfl, by simp [State.stopped], rfl⟩

theorem writeStringBody_orderly {s : State} (h : s.InOrder) (text : List Char) :
    (writeStringBody text s).Orderly s := by
  by_cases valid : ValidText text
  · rw [writeStringBody_eq valid]
    exact sendAll_orderly h (charSend_tame text) (tidy_text h.tidy text)
  · obtain ⟨u, run, stopped, ctl⟩ := validate_of_not_validText valid s
    rw [writeStringBody, run]
    exact ⟨stopped, ctl ▸ h.tidy, ctl ▸ h.defined⟩

theorem writeDigits_orderly {s : State} (h : s.InOrder) (v k : Nat) :
    (writeDigits (decimalDigits v k) s).Orderly s := by
  have bytes : ((decimalDigits v k).map fun d => (true, BitVec.ofNat 8 (0x30 + d))) =
      ((decimalDigits v k).map fun d => BitVec.ofNat 8 (0x30 + d)).map fun b => (true, b) := by simp
  rw [writeDigits_eq (digit_lt v k), bytes]
  refine sendAll_orderly h (fun p hp => ?_) (runAll_data h.tidy _).2
  obtain ⟨b, -, rfl⟩ := List.mem_map.1 hp
  exact tame_data b

theorem shiftCursorBody_orderly {s : State} (h : s.InOrder) (dir : Direction) (count : Nat) :
    (shiftCursorBody dir count s).Orderly s := by
  rw [shiftCursorBody_eq]
  exact sendAll_orderly h (fun p hp => List.eq_of_mem_replicate hp ▸ tame_shift dir) (tidy_shifts h.tidy dir count)

theorem backspaceBody_orderly {s : State} (h : s.InOrder) (count : Nat) : (backspaceBody count s).Orderly s := by
  rw [backspaceBody_eq]
  exact sendAll_orderly h (tame_backspaces count) (runAll_backspaces h.tidy count).2

/-- One command is a sequence of one byte. -/
theorem sendCommand_eq_sendAll (b : Byte) (s : State) : sendCommand b s = sendAll [(false, b)] s := by
  simp only [sendAll, sendCommand]
  cases sendByte false b s <;> rfl

theorem display_orderly {s : State} (h : s.InOrder) (d : Bool) :
    (sendCommand (displayByte s.params d) s).Orderly s := by
  rw [sendCommand_eq_sendAll]
  exact sendAll_orderly h (by simpa using tame_display s.params d) (tidy_display h.tidy s.params d)

theorem greetingBody_orderly {s : State} (h : s.InOrder) : (greetingBody s).Orderly s :=
  (clearDisplayBody_orderly h).andThen fun _ ht => writeStringBody_orderly ht _

/-- A public LCD operation that stops returns nothing and leaves the state in which it stopped (R901, R910). -/
theorem lcdOp_stopped {s u : State} (ready : s.LcdReady) {op : PublicOp} {body : State → Ran Unit}
    (hb : body (s.entered (some op)) = .stopped u) : lcdOp op body s = .next u := by
  have run : body (State.hold op { s with ret := none }) = .stopped u := hb
  rw [lcdOp, complete_running ready.running, unitOp, whenLcdReady, if_pos (by exact ready.phase), holding, run]
  rfl

/-- A public LCD operation whose body is orderly keeps the invariant of R521, and leaves the driver ready or Main
stopped. -/
theorem lcdOp_orderly {s t : State} (ready : s.LcdReady) (cleared : s.Cleared) (quiet : ∀ n, s.inputs.Quiet n)
    {op : PublicOp} {body : State → Ran Unit} (hb : ∀ u : State, u.InOrder → (body u).Orderly u)
    (e : lcdOp op body s = .next t) :
    t.Cleared ∧ t.ctl.undefined = false ∧ (t.LcdReady ∨ t.stopped = true) := by
  have start : (s.entered (some op)).InOrder :=
    { ready.toSettled.congr rfl rfl rfl rfl with fourBit := ready.fourBit, tidy := cleared.tidy, quiet := quiet }
  have went := hb _ start
  cases run : body (s.entered (some op)) with
  | done _ u =>
    rw [run] at went
    obtain ⟨frame, order⟩ := went
    rw [lcdOp_done ready run] at e
    cases e
    refine ⟨Controller.Tidy.cleared (s := u.left) order.tidy, order.defined, .inl ?_⟩
    exact
      { order.toSettled.congr rfl rfl rfl rfl with
        running := ⟨frame.fatal.trans ready.running.1, frame.refused.trans ready.running.2⟩
        free := ⟨rfl, frame.scanning.trans ready.free.2⟩
        phase := frame.lcdPhase.trans ready.phase
        fourBit := order.fourBit }
  | stopped u =>
    rw [run] at went
    rw [lcdOp_stopped ready run] at e
    cases e
    exact ⟨went.tidy.cleared, went.defined, .inr went.stopped⟩

/-- Settles O43: each operation is a sequence of bytes that keep the controller tidy, or stops at its text. -/
theorem driverKeepsTheControllerCleared : Obligations.DriverKeepsTheControllerCleared := by
  unfold Obligations.DriverKeepsTheControllerCleared
  intro s t i ready cleared quiet hi e
  have op : ∀ {o body}, exec i s = lcdOp o body s → (∀ u : State, u.InOrder → (body u).Orderly u) →
      t.Cleared ∧ t.ctl.undefined = false ∧ (t.LcdReady ∨ t.stopped = true) := fun he hb =>
    lcdOp_orderly ready cleared quiet hb (he.symm.trans e)
  simp only [List.mem_cons, List.not_mem_nil, or_false] at hi
  rcases hi with (rfl | rfl | rfl | rfl) | ⟨x, rfl⟩ | ⟨v, rfl⟩ | ⟨v, rfl⟩ | ⟨k, rfl⟩ | ⟨d, k, rfl⟩
  · exact op rfl fun u hu => display_orderly hu true
  · exact op rfl fun u hu => display_orderly hu false
  · exact op rfl fun u hu => greetingBody_orderly hu
  · exact op rfl fun u hu => clearDisplayBody_orderly hu
  · exact op rfl fun u hu => writeStringBody_orderly hu x
  · exact op rfl fun u hu => writeDigits_orderly hu v.toNat 5
  · exact op rfl fun u hu => writeDigits_orderly hu v.toNat 3
  · exact op rfl fun u hu => backspaceBody_orderly hu k
  · exact op rfl fun u hu => shiftCursorBody_orderly hu d k

end Sys2Proof.Machine

/-! The controller's instructions (R509 to R520): what each writes, and which words set LCD_UNDEFINED. -/

namespace Sys2Proof.Machine

open Sys2Proof

/-! ## The address steps (R509) -/

theorem incAc_false_toNat (x : DdAddr) (h : legalAddr false x = true) :
    (incAc false x).toNat = (x.toNat + 1) % 0x50 := by
  revert x; decide

theorem legal_steps (n : Bool) (x : DdAddr) (h : legalAddr n x = true) :
    legalAddr n (incAc n x) = true ∧ legalAddr n (decAc n x) = true := by
  revert n x; decide

theorem steps_inverse (n : Bool) (x : DdAddr) (h : legalAddr n x = true) :
    decAc n (incAc n x) = x ∧ incAc n (decAc n x) = x := by
  revert n x; decide

/-- Settles O9: both functions are R509's text, and the rest is looked up over the 128 addresses. -/
theorem addressStepsAreInverse : Obligations.AddressStepsAreInverse := by
  unfold Obligations.AddressStepsAreInverse
  refine ⟨fun x => ⟨rfl, rfl⟩, fun x h => ⟨incAc_false_toNat x h, rfl⟩, fun n x h => ?_⟩
  obtain ⟨inc, dec⟩ := legal_steps n x h
  exact ⟨inc, dec, steps_inverse n x h⟩

/-! ## One instruction word as a step (R507, R520) -/

theorem exec_toInstr (c : Cmd) (s : State) : exec c.toInstr s = .next (s.command c) := by
  cases c <;> rfl

/-- A word that sets no mark has its effect, and then the busy time; nothing else of the state changes. -/
theorem exec_of_effect {s : State} {c : Cmd} {k : Controller} (effect : cmdEffect c s.ctl = k)
    (defined : k.undefined = false) : exec c.toInstr s =
      .next { s with ctl := { k with lcd := { k.lcd with busyUntil := s.now + execTime c } } } := by
  subst effect
  rw [exec_toInstr, State.command, Controller.settle_defined (by exact defined)]
  rfl

/-- A word that sets the mark stops nothing, and only the controller differs (R123, R912). -/
theorem exec_of_mark {s : State} {c : Cmd} (mark : (cmdEffect c s.ctl).undefined = true) :
    ∃ t, exec c.toInstr s = .next t ∧ t.ctl.undefined = true ∧ t = { s with ctl := t.ctl } :=
  ⟨_, exec_toInstr c s, (Controller.settle_undefined _).trans mark, rfl⟩

/-! ## The effects, case by case -/

theorem takesAddr_iff (n afterInit : Bool) (a : DdAddr) : takesAddr n afterInit a = true ↔
    legalAddr n a = true ∧ legalAddr true a = true ∧ (afterInit = true → a = 0x40) := by
  cases afterInit <;> simp [takesAddr, and_assoc]

theorem setDdramAddr_taken {k : Controller} {a : DdAddr} (h : takesAddr k.lcd.n k.afterInit a = true) :
    cmdEffect (.setDdramAddr a) k = { k with lcd := { k.lcd with ac := a } } :=
  if_pos h

theorem setDdramAddr_marks {k : Controller} {a : DdAddr} (h : ¬ takesAddr k.lcd.n k.afterInit a = true) :
    cmdEffect (.setDdramAddr a) k = k.undefine :=
  if_neg h

theorem functionSet_eight {k : Controller} (h : k.lcd.dl = .eight) (hi : k.afterInit = false) (l n f : Bool)
    (x : BitVec 2) : cmdEffect (.functionSet l n f x) k =
      { k with lcd := { k.lcd with dl := if l then .eight else .four, n := n, f := f, phase := .hi } } := by
  simp only [cmdEffect, cmdFunctionSet, hi, h]
  rfl

/-- After init every Function set sets the mark, and in 4-bit mode one with L = 1 always does (R515, R530). -/
theorem functionSet_marks {k : Controller} {l : Bool} (h : k.afterInit = true ∨ (k.lcd.dl = .four ∧ l = true))
    (n f : Bool) (x : BitVec 2) : (cmdEffect (.functionSet l n f x) k).undefined = true := by
  simp only [cmdEffect, cmdFunctionSet]
  rcases h with hi | ⟨hd, rfl⟩
  · rw [hi]; rfl
  · rw [hd]; split <;> rfl

theorem moveAc_legal {k : Controller} (h : legalAddr k.lcd.n k.lcd.ac = true) (forward : Bool) :
    k.moveAc forward = { k with lcd := { k.lcd with ac := stepAc k.lcd.n forward k.lcd.ac } } :=
  if_pos h

/-- A step of AC, from the map or off it, moves nothing but AC, and keeps the codes of the cells (R514). -/
theorem moveAc_frame (forward : Bool) (k : Controller) :
    (k.moveAc forward).lcd = { k.lcd with ac := (k.moveAc forward).lcd.ac } ∧ (k.moveAc forward).cells = k.cells := by
  unfold Controller.moveAc
  split <;> exact ⟨rfl, rfl⟩

theorem storeAtAc_lcd (d : Byte) (k : Controller) :
    (k.storeAtAc d).lcd = { k.lcd with ddram := (k.storeAtAc d).lcd.ddram } := by
  unfold Controller.storeAtAc
  split <;> rfl

theorem storeAtAc_legal {k : Controller} (h : legalAddr k.lcd.n k.lcd.ac = true) (d : Byte) :
    k.storeAtAc d = { k with lcd := { k.lcd with ddram := k.lcd.ddram.write k.lcd.ac.toNat d } } :=
  if_pos h

theorem writeData_undefined (d : Byte) (k : Controller) : (cmdEffect (.writeData d) k).undefined = k.undefined := by
  have kept := (moveAc_undefined k.lcd.id (k.storeAtAc d)).trans (storeAtAc_undefined d k)
  simp only [cmdEffect, cmdWriteData]
  split <;> exact kept

/-- Write data is the store, the step of AC and, when S = 1, the shift of the display (R518). -/
theorem writeData_lcd (d : Byte) (k : Controller) : (cmdEffect (.writeData d) k).lcd = { k.lcd with
    ddram := (k.storeAtAc d).lcd.ddram
    ac := ((k.storeAtAc d).moveAc k.lcd.id).lcd.ac
    shift := if k.lcd.s then (if k.lcd.id then shiftLeft k.lcd.shift else shiftRight k.lcd.shift) else k.lcd.shift } := by
  have moved := (moveAc_frame k.lcd.id (k.storeAtAc d)).1
  rw [storeAtAc_lcd] at moved
  simp only [cmdEffect, cmdWriteData]
  split
  · rw [moved]
  · exact moved

/-! ## The obligations on instruction words -/

/-- Settles O10: the fill reads as the blank on the cells of the map and as before elsewhere. -/
theorem clearDisplayBlanksAndHomes : Obligations.ClearDisplayBlanksAndHomes := by
  unfold Obligations.ClearDisplayBlanksAndHomes
  intro s hu
  refine ⟨_, exec_of_effect (c := .clearDisplay) rfl hu, fun a ha => ?_, fun a ha => ?_, rfl⟩
  · exact (clear_read s.ctl a).trans (if_pos ha)
  · exact (clear_read s.ctl a).trans (if_neg (Bool.eq_false_iff.1 ha))

/-- Settles O11: each word's effect is its equation. -/
theorem modeInstructionsWriteTheirFields : Obligations.ModeInstructionsWriteTheirFields := by
  unfold Obligations.ModeInstructionsWriteTheirFields
  intro s hu
  refine ⟨fun x => ?_, fun i sh => ?_, fun d c b => ?_, fun a hn h1 hi => ?_⟩
  · exact exec_of_effect (c := .returnHome x) rfl hu
  · exact exec_of_effect (c := .entryModeSet i sh) rfl hu
  · exact exec_of_effect (c := .displayControl d c b) rfl hu
  · exact exec_of_effect (setDdramAddr_taken ((takesAddr_iff _ _ _).2 ⟨hn, h1, hi⟩)) hu

/-- Settles O12: on the map the step is R509's, off it AC alone is free. -/
theorem cursorOrDisplayShiftMovesOne : Obligations.CursorOrDisplayShiftMovesOne := by
  unfold Obligations.CursorOrDisplayShiftMovesOne
  intro s r x hu
  have moves := exec_of_effect (c := .cursorDisplayShift false r x) rfl ((moveAc_undefined r s.ctl).trans hu)
  obtain ⟨lcd, cells⟩ := moveAc_frame r s.ctl
  refine ⟨fun legal => ?_, fun _ => ⟨_, moves, (moveAc_undefined r s.ctl).trans hu, fun a => ?_, ?_, rfl⟩, ?_⟩
  · exact exec_of_effect (c := .cursorDisplayShift false r x) (moveAc_legal legal r) hu
  · simp only [State.cellCode, cmdEffect, cmdCursorDisplayShift, Bool.false_eq_true, if_false, cells]
    rw [lcd]
  · exact congrArg (fun l : Lcd => { l with busyUntil := s.now + 37 }) lcd
  · refine ⟨_, exec_of_effect (c := .cursorDisplayShift true r x) rfl hu, ?_, rfl⟩
    cases r <;> rfl

/-- Settles O13: the three cases are those of `cmdFunctionSet`. -/
theorem functionSetSetsTheMode : Obligations.FunctionSetSetsTheMode := by
  unfold Obligations.FunctionSetSetsTheMode
  intro s l n f x hu
  refine ⟨fun hi h8 => ?_, fun hi h4 hl => ?_, fun h => ?_⟩
  · exact exec_of_effect (functionSet_eight h8 hi l n f x) hu
  · subst hl
    exact exec_of_effect (effect_functionSet h4 hi n f x) hu
  · exact exec_of_mark (functionSet_marks h n f x)

/-- Settles O14: the store and the step are both at AC, on the map or off it. -/
theorem writeDataStoresAtTheCursor : Obligations.WriteDataStoresAtTheCursor := by
  unfold Obligations.WriteDataStoresAtTheCursor
  intro s d hu
  have defined := (writeData_undefined d s.ctl).trans hu
  have lcd := writeData_lcd d s.ctl
  refine ⟨_, exec_of_effect (c := .writeData d) rfl defined, defined, ?_, ?_, rfl, fun legal => ?_⟩
  · simp only [lcd]
    cases s.ctl.lcd.s <;> cases s.ctl.lcd.id <;> rfl
  · simp only [lcd]; rfl
  · have store := storeAtAc_legal legal d
    simp only [lcd, store]
    refine ⟨Memory.read_write_same _ _ _, fun a ha => Memory.read_write_other _ ha, ?_⟩
    rw [moveAc_legal (by exact legal)]
    rfl

/-- Settles O15: the effect of each of these words is the mark. -/
theorem meaninglessWordsSetTheMark : Obligations.MeaninglessWordsSetTheMark := by
  unfold Obligations.MeaninglessWordsSetTheMark
  intro s
  refine ⟨exec_of_mark (c := .nopInvalid) rfl, fun a => exec_of_mark (c := .setCgramAddr a) rfl,
    fun x => exec_of_mark (c := .readBusyAddr x) rfl, fun x => exec_of_mark (c := .readData x) rfl, fun a ha => ?_⟩
  have refused : ¬ takesAddr s.ctl.lcd.n s.ctl.afterInit a = true := by
    rw [takesAddr_iff]
    rintro ⟨hn, h1, hi⟩
    rcases ha with h | h | ⟨h, ne⟩
    · rw [hn] at h; cases h
    · rw [h1] at h; cases h
    · exact ne (hi h)
  exact exec_of_mark (c := .setDdramAddr a) (by rw [setDdramAddr_marks refused]; rfl)

end Sys2Proof.Machine

/-! The Enable edges (R500 to R503, R505) and the transfers of a nibble write (R504 to R507). -/

namespace Sys2Proof.Machine

open Sys2Proof

/-! ## The timing bounds (R501, R502) -/

theorem riseViolates_iff (t : Nat) (l : Lcd) :
    riseViolates t l = true ↔ t < l.tLines + 40 ∨ ∃ tr, l.tRise = some tr ∧ t < tr + 500 := by
  show _ ↔ t < l.tLines + Config.T_AS ∨ ∃ tr, l.tRise = some tr ∧ t < tr + Config.T_CYC
  cases h : l.tRise <;> simp [riseViolates, h]

theorem fallViolates_iff {l : Lcd} {tr : Nat} (h : l.tRise = some tr) (t : Nat) :
    fallViolates t l = true ↔ t < tr + 230 ∨ tr < l.tLines ∨ t < l.busyUntil := by
  show _ ↔ t < tr + Config.T_PW ∨ tr < l.tLines ∨ t < l.busyUntil
  simp [fallViolates, h, or_assoc]

/-! ## What a sample makes of the lines (R500 to R503) -/

section
variable {k : Controller} {t : Nat} {lo : Nibble} {new : Lines}

theorem edge_level (he : k.lcd.en = new.en) : k.edge t lo new.en = k := by
  cases h : new.en <;> simp [Controller.edge, he, h]

/-- With EN unchanged a sample only sees the levels, and the instant of a change. -/
theorem sample_level (hu : k.undefined = false) (he : new.en = k.lcd.en) :
    k.sample t lo new = { k with lcd := { k.lcd with
      rs := new.rs, db := new.db
      tLines := if new.rs = k.lcd.rs ∧ new.db = k.lcd.db then k.lcd.tLines else t } } := by
  have still : decide (new.en ≠ k.lcd.en) = false := by simp [he]
  have times : (if (decide (new.rs ≠ k.lcd.rs) || decide (new.db ≠ k.lcd.db)) = true then t else k.lcd.tLines) =
      if new.rs = k.lcd.rs ∧ new.db = k.lcd.db then k.lcd.tLines else t := by
    by_cases hr : new.rs = k.lcd.rs <;> simp [hr]
  simp only [Controller.sample, still, times, Bool.and_false, Bool.or_false]
  rw [edge_level (by exact he.symm), Controller.settle_defined (by exact hu), he]

/-- EN changing with another line sets the mark (R503). -/
theorem sample_simultaneous (he : new.en ≠ k.lcd.en) (hl : new.rs ≠ k.lcd.rs ∨ new.db ≠ k.lcd.db) :
    (k.sample t lo new).undefined = true := by
  simp only [Controller.sample, Controller.settle_undefined]
  refine edge_sticky _ _ _ ?_
  simp [he, hl]

/-- With the other lines unchanged, the mark is what the edge makes of it (R500). -/
theorem sample_edge (hr : new.rs = k.lcd.rs) (hd : new.db = k.lcd.db) :
    (k.sample t lo new).undefined = (k.edge t lo new.en).undefined := by
  have still : (decide (new.rs ≠ k.lcd.rs) || decide (new.db ≠ k.lcd.db)) = false := by simp [hr, hd]
  simp only [Controller.sample, Controller.settle_undefined, still, Bool.false_and, Bool.or_false]
  rfl

/-- A rise alone sets the mark exactly when it violates R501. -/
theorem sample_rise_undefined (hu : k.undefined = false) (he : k.lcd.en = false) (hn : new.en = true)
    (hr : new.rs = k.lcd.rs) (hd : new.db = k.lcd.db) :
    (k.sample t lo new).undefined = riseViolates t k.lcd := by
  rw [sample_edge hr hd]
  simp [Controller.edge, Controller.rise, he, hn, hu]

/-- A fall alone that violates R502 sets the mark. -/
theorem sample_fall_marks (he : k.lcd.en = true) (hn : new.en = false) (hr : new.rs = k.lcd.rs)
    (hd : new.db = k.lcd.db) (hv : fallViolates t k.lcd = true) : (k.sample t lo new).undefined = true := by
  rw [sample_edge hr hd]
  simp only [Controller.edge, Controller.fall, he, hn, hv]
  exact transfer_sticky _ _ _ _ (Bool.or_true _)

/-- A fall alone that meets R502 keeps a high nibble in 4-bit mode (R505). -/
theorem sample_fall_hi (hu : k.undefined = false) (he : k.lcd.en = true) (hn : new.en = false)
    (hr : new.rs = k.lcd.rs) (hd : new.db = k.lcd.db) (hv : fallViolates t k.lcd = false) (h4 : k.lcd.dl = .four)
    (hp : k.lcd.phase = .hi) : k.sample t lo new =
      { k with lcd := { k.lcd with en := false, phase := .lo, pendHi := k.lcd.db, pendRs := k.lcd.rs } } := by
  rw [sample_fall hu he lo hn hr hd hv, transfer_hi h4 hp]
  exact Controller.settle_defined hu

end

/-- The data lines of the controller, bit by bit (R120, R204). -/
theorem lcdLines_db (p : Params) (chip : Chip) (d : Draw) (en : Bool) :
    let db := (lcdLines p chip d en).db
    db.getLsbD 0 = lineLevel chip p.pinD4 (d.ext.getLsbD p.pinD4) ∧
    db.getLsbD 1 = lineLevel chip p.pinD5 (d.ext.getLsbD p.pinD5) ∧
    db.getLsbD 2 = lineLevel chip p.pinD6 (d.ext.getLsbD p.pinD6) ∧
    db.getLsbD 3 = lineLevel chip p.pinD7 (d.ext.getLsbD p.pinD7) := by
  have bits : ∀ b0 b1 b2 b3 : Bool,
      let n := BitVec.ofBool b3 ++ BitVec.ofBool b2 ++ BitVec.ofBool b1 ++ BitVec.ofBool b0
      n.getLsbD 0 = b0 ∧ n.getLsbD 1 = b1 ∧ n.getLsbD 2 = b2 ∧ n.getLsbD 3 = b3 := by decide
  exact bits _ _ _ _

/-! ## A completed write to the LCD chip -/

/-- The lines the controller sees once the register `r` of the LCD chip has taken `v` under the next draw. -/
def State.linesAfter (s : State) (r : ChipReg) (v : Byte) : Lines :=
  lcdLines s.params (s.lcdChip.set r v) (s.inputs.at 0) s.ctl.lcd.en

/-- A completed BusWrite to the LCD chip shows a defined controller the new lines, and raises nothing (R409, R500). -/
theorem exec_busWrite_lcd {s : State} {reg : Byte} {r : ChipReg} (hs : s.Running) (hr : regAt s.params reg = some r)
    (hq : s.inputs.Quiet 1) (hu : s.ctl.undefined = false) (v : Byte) :
    ∃ t, exec (.busWrite s.params.lcdAddr reg v) s = .next t ∧ t.lcdChip = s.lcdChip.set r v ∧ t.fatal = none ∧
      t.ctl = s.ctl.sample t.now (s.inputs.at 0).lo (s.linesAfter r v) := by
  obtain ⟨ho, hf⟩ := hq 0 (by omega)
  have call := didWrite_transfers_of_ok (s := { s with ret := none }) .lcd r s.params.lcdAddr reg v ho
  have ctl := didWrite_lcd_ctl (s := { s with ret := none }) ho hu r s.params.lcdAddr reg v
  have chip : (State.didWrite .lcd r s.params.lcdAddr reg v { s with ret := none }).lcdChip = s.lcdChip.set r v :=
    call.chip
  rw [chip] at ctl
  refine ⟨_, exec_busWrite hs _ reg v, ?_⟩
  rw [busWriteCall_alone (s := { s with ret := none }) (chipAt_lcd _) hf hr, Ran.done_andThen, Ran.finish_done]
  exact ⟨chip, (call.lcd rfl).fatal.trans hs.1, ctl⟩

/-- Settles O20: the controller's sample sets the mark before it looks at the edge. -/
theorem simultaneousChangeSetsTheMark : Obligations.SimultaneousChangeSetsTheMark := by
  unfold Obligations.SimultaneousChangeSetsTheMark
  intro s reg v r hs hr hq hu ⟨he, hl⟩
  obtain ⟨t, run, -, fatal, ctl⟩ := exec_busWrite_lcd hs hr hq hu v
  refine ⟨t, run, ?_, fatal⟩
  rw [ctl]
  exact sample_simultaneous he hl

/-- Settles O21: the write is one sample of the lines, which makes no edge, a rise or a fall. -/
theorem enableEdgesAreTimed : Obligations.EnableEdgesAreTimed := by
  unfold Obligations.EnableEdgesAreTimed
  intro s reg v r hs hr hq hu chip d level en rs l
  obtain ⟨t, run, lcdChip, -, ctl⟩ := exec_busWrite_lcd hs hr hq hu v
  obtain ⟨db0, db1, db2, db3⟩ := lcdLines_db s.params chip d l.en
  refine ⟨t, (s.linesAfter r v).db, run, lcdChip, db0, db1, db2, db3, ?_, ?_, ?_⟩
  · intro same
    rw [ctl]
    exact sample_level hu same
  · intro hrs hdb low high
    rw [ctl]
    have mark := sample_rise_undefined (t := t.now) (lo := d.lo) (new := s.linesAfter r v) hu low high hrs hdb
    rw [mark, riseViolates_iff]
    refine ⟨Iff.rfl, fun met => ?_⟩
    exact sample_rise hu low d.lo high hrs hdb met
  · intro tr hrs hdb high low rise
    rw [ctl]
    refine ⟨fun hv => ?_, fun pulse stable busy h4 hp => ?_⟩
    · exact sample_fall_marks high low hrs hdb ((fallViolates_iff rise _).2 hv)
    · exact sample_fall_hi hu high low hrs hdb (fallViolates_eq_false rise pulse stable busy) h4 hp

/-! ## The latch of a nibble write (R504 to R507) -/

/-- A low nibble under the other RS sets the mark (R506). -/
theorem transfer_lo_marks {k : Controller} (h4 : k.lcd.dl = .four) (hp : k.lcd.phase = .lo) {r : Bool}
    (hr : r ≠ k.lcd.pendRs) (t : Nat) (lo n : Nibble) : (k.transfer t lo r n).undefined = true := by
  simp only [Controller.transfer, h4, hp, hr, if_false]
  rfl

/-- In 8-bit mode a nibble executes the word it makes with the drawn low bits (R504). -/
theorem transfer_eight {k : Controller} (h8 : k.lcd.dl = .eight) (t : Nat) (lo : Nibble) (r : Bool) (n : Nibble) :
    k.transfer t lo r n = k.run t (decodeCmd (busWord r (nibblePair n lo))) := by
  simp only [Controller.transfer, h8]
  rfl

/-- Up to the latch the controller has only seen its lines (R500). -/
theorem pulsed_view (s : State) (rs : Bool) (n : Nibble) : (pulsed s rs n).view = s.ctl.view := by
  simp only [Controller.view, Lcd.screen, pulsed, presented, Lcd.see]

theorem nibbleState_undefined (s : State) (rs : Bool) (n : Nibble) : (nibbleState s rs n).ctl.undefined =
    ((pulsed s rs n).transfer (fallAt s) (s.inputs.at 9).lo rs n).undefined := by
  simp only [nibbleState, Controller.settle_undefined, latched, relined]

section
variable {s : State} (rs : Bool) (n : Nibble)

/-- The latch of a high nibble leaves the busy time alone (R505). -/
theorem nibble_hi_busy (hu : s.ctl.undefined = false) (hf : s.FourBit) :
    (nibbleState s rs n).ctl.lcd.busyUntil = s.ctl.lcd.busyUntil := by
  have kept := transfer_hi (k := pulsed s rs n) hf.1 hf.2 (fallAt s) (s.inputs.at 9).lo rs n
  have defined : (latched s rs n).undefined = false := by rw [latched, kept]; exact hu
  rw [nibbleState_ctl rs n defined, latched, kept]
  rfl

theorem nibble_lo_marks (h4 : s.ctl.lcd.dl = .four) (hp : s.ctl.lcd.phase = .lo) (hr : rs ≠ s.ctl.lcd.pendRs) :
    (nibbleState s rs n).ctl.undefined = true := by
  rw [nibbleState_undefined]
  exact transfer_lo_marks (k := pulsed s rs n) h4 hp hr _ _ n

/-- A nibble in 8-bit mode: the word is executed. -/
theorem nibble_eight (h8 : s.ctl.lcd.dl = .eight) {c : Cmd}
    (hc : decodeCmd (busWord rs (nibblePair n (s.inputs.at 9).lo)) = c) :
    (nibbleState s rs n).ctl.undefined = (cmdEffect c s.ctl).undefined ∧
      ((cmdEffect c s.ctl).undefined = false → (nibbleState s rs n).ctl.view = (cmdEffect c s.ctl).view) := by
  have run := transfer_eight (k := pulsed s rs n) h8 (fallAt s) (s.inputs.at 9).lo rs n
  have view : (latched s rs n).view = (cmdEffect c s.ctl).view := by
    rw [latched, run, hc, relined_view, run_view, cmdEffect_view (pulsed_view s rs n)]
  have mark := undefined_of_view view
  refine ⟨(nibbleState_undefined s rs n).trans mark, fun hd => ?_⟩
  rw [nibbleState_ctl rs n (mark.trans hd), view]

end

theorem command_undefined (s : State) (c : Cmd) : (s.command c).ctl.undefined = (cmdEffect c s.ctl).undefined :=
  Controller.settle_undefined _

theorem command_view {s : State} {c : Cmd} (h : (s.command c).ctl.undefined = false) :
    (s.command c).ctl.view = (cmdEffect c s.ctl).view := by
  rw [command_undefined] at h
  rw [State.command_ctl, Controller.settle_defined (by exact h), run_view]

/-- What the instruction `write_nibble` leaves, from a settled interface. -/
theorem exec_writeNibble_settled {s : State} (hr : s.Running) (hp : s.lcdPhase ≠ .unpowered) (hs : s.Settled)
    (hq : s.inputs.Quiet 11) (rs : Bool) (n : Nibble) :
    exec (.writeNibble rs n) s = .next { nibbleState s rs n with ret := some .unit } := by
  have run := writeNibble_settled (hs.congr (t := { s with ret := none }) rfl rfl rfl rfl) rs n hq
  have legal : whenPinsOutputs (writeNibble rs n) { s with ret := none } = writeNibble rs n { s with ret := none } :=
    if_neg hp
  rw [exec_writeNibble hr, unitOp_done (legal.trans run)]
  rfl

/-- Settles O28: the nibble is kept, executed or marked as its transfer says, and a step of the word does the same. -/
theorem nibbleIsLatchedOnce : Obligations.NibbleIsLatchedOnce := by
  unfold Obligations.NibbleIsLatchedOnce
  intro s rs n hr hp hs hq
  refine ⟨_, exec_writeNibble_settled hr hp hs hq rs n, fun hf => ?_, nibble_lo_marks rs n, fun h4 hlo hrs => ?_,
    fun h8 => ?_⟩
  · obtain ⟨settled, view, -, phase, pendHi, pendRs⟩ := nibble_hi hs rs n hf
    exact ⟨settled.congr rfl rfl rfl rfl, screen_of_view view, nibble_hi_busy rs n hs.defined hf, phase, pendHi, pendRs⟩
  · obtain ⟨mark, executed⟩ := nibble_lo hs rs n h4 hlo hrs.symm rfl
    refine ⟨_, exec_toInstr _ s, mark.trans (command_undefined s _).symm, fun hd => ?_⟩
    obtain ⟨-, view, fourBit, -⟩ := executed ((command_undefined s _).symm.trans hd)
    exact ⟨screen_of_view (view.trans (command_view hd).symm), fourBit.2⟩
  · obtain ⟨mark, executed⟩ := nibble_eight rs n h8 rfl
    refine ⟨_, exec_toInstr _ s, mark.trans (command_undefined s _).symm, fun hd => ?_⟩
    exact screen_of_view ((executed ((command_undefined s _).symm.trans hd)).trans (command_view hd).symm)

end Sys2Proof.Machine

/-! The timed primitives of the LCD driver (R600 to R611): the eight calls of a nibble write whatever the controller makes
of them, and the byte whose word is executed once. -/

namespace Sys2Proof.Machine

open Sys2Proof

/-! ## The driver's primitives on a chip whose pins are all outputs (R606) -/

/-- The driver's first `k` primitives lead from `s` to `t`: `v` stands in the LCD chip's register, all of whose pins are
outputs, `new` was added to TRACE, and the draws took their time beyond `base`, the start and the delays so far.
Everything else is as it was, the controller aside. -/
structure State.Drives (s t : State) (base k : Nat) (v : Byte) (new : List TraceEntry) : Prop where
  frame : s.LcdOnly t
  chip : t.lcdChip = { out := v, dir := 0 }
  trace : t.trace = s.trace ++ new
  now : t.now = base + s.inputs.spent k
  inputs : t.inputs = s.inputs.drop k

/-- The two entries of a completed read-modify-write of `v` to `w`, after `k` primitives. -/
def State.rmwEntries (s : State) (base k : Nat) (v w : Byte) : List TraceEntry :=
  [{ call := .wr s.params.lcdAddr [s.params.regGpio] [v], err := false, time := base + s.inputs.spent (k + 1) },
   { call := .w s.params.lcdAddr [s.params.regGpio, w], err := false, time := base + s.inputs.spent (k + 2) }]

theorem State.Drives.start {s : State} (hd : s.lcdChip.dir = 0) : s.Drives s s.now 0 s.lcdChip.out [] where
  frame := rfl
  chip := by rw [← hd]
  trace := (List.append_nil _).symm
  now := rfl
  inputs := rfl

section
variable {s t : State} {base k : Nat} {v : Byte} {new : List TraceEntry} (h : s.Drives t base k v new)
include h

/-- One more read-modify-write adds its two calls and puts its value into the register (R406, R407). -/
theorem State.Drives.readModifyWrite (hq : s.inputs.Quiet (k + 2)) (f : Byte → Byte) :
    ∃ u, readModifyWrite s.params.lcdAddr f t = .done () u ∧
      s.Drives u base (k + 2) (f v) (new ++ s.rmwEntries base k v (f v)) := by
  have quiet : t.inputs.Quiet 2 := by rw [h.inputs]; exact hq.drop k (by omega)
  obtain ⟨u, run, frame, chip, inputs, now, trace⟩ := lcdRmw_frame quiet (by rw [h.chip]) f
  have time (j : Nat) : t.now + t.inputs.spent j = base + s.inputs.spent (k + j) := by
    rw [h.now, h.inputs, Inputs.spent_add, Nat.add_assoc]
  rw [h.frame.params, h.chip, time, time, h.trace, List.append_assoc] at trace
  rw [h.frame.params] at run
  rw [h.chip] at chip
  exact ⟨u, run, h.frame.trans frame, chip, trace, now.trans (time 2), by rw [inputs, h.inputs, Inputs.drop_drop]⟩

theorem State.Drives.setBits (hq : s.inputs.Quiet (k + 2)) (m : Byte) :
    ∃ u, setBits s.params.lcdAddr m t = .done () u ∧
      s.Drives u base (k + 2) (v ||| m) (new ++ s.rmwEntries base k v (v ||| m)) :=
  h.readModifyWrite hq (· ||| m)

theorem State.Drives.clearBits (hq : s.inputs.Quiet (k + 2)) (m : Byte) :
    ∃ u, clearBits s.params.lcdAddr m t = .done () u ∧
      s.Drives u base (k + 2) (v &&& ~~~m) (new ++ s.rmwEntries base k v (v &&& ~~~m)) :=
  h.readModifyWrite hq (· &&& ~~~m)

/-- One more delay only lets time pass (R941). -/
theorem State.Drives.delayUs (hq : s.inputs.Quiet (k + 1)) (d : Nat) :
    ∃ u, delayUs d t = .done () u ∧ s.Drives u (base + d) (k + 1) v new := by
  have alone : (t.inputs.at 0).foreign = none := by
    rw [h.inputs, Inputs.drop_at]; exact (hq k (by omega)).2
  refine ⟨_, delayUs_alone alone d, h.frame.trans rfl, h.chip, h.trace, ?_, ?_⟩
  · rw [State.tick_spent, h.now, h.inputs, Inputs.spent_add]; omega
  · rw [State.tick_inputs, h.inputs, Inputs.rest_eq_drop, Inputs.drop_drop]

end

/-! ## `write_nibble` (R600, R601) -/

/-- The instant a nibble write is over at the earliest (R611): what its draws add comes on top. -/
def nibbleBase (s : State) : Nat := s.now + Config.T_AS + Config.T_PW + Config.T_REC

section
variable {s : State} (hp : s.params.distinct) (hd : s.lcdChip.dir = 0) (hq : s.inputs.Quiet 11) (rs : Bool) (n : Nibble)
include hp hd hq

/-- A nibble write makes the calls of R606 whatever the controller makes of them. -/
theorem writeNibble_drives : ∃ t, writeNibble rs n s = .done () t ∧
    s.Drives t (nibbleBase s) 11 (asserted s rs n) (nibbleTrace s rs n) := by
  obtain ⟨s1, run1, d1⟩ := (State.Drives.start hd).clearBits (hq.mono (by omega)) (lcdAllMask s.params)
  obtain ⟨s2, run2, d2⟩ := d1.setBits (hq.mono (by omega)) (assertMask s.params rs n)
  obtain ⟨s3, run3, d3⟩ := d2.delayUs (hq.mono (by omega)) Config.T_AS
  obtain ⟨s4, run4, d4⟩ := d3.setBits (hq.mono (by omega)) (pinMask s.params.pinEN)
  obtain ⟨s5, run5, d5⟩ := d4.delayUs (hq.mono (by omega)) Config.T_PW
  obtain ⟨s6, run6, d6⟩ := d5.clearBits (hq.mono (by omega)) (pinMask s.params.pinEN)
  obtain ⟨t, run7, d7⟩ := d6.delayUs hq Config.T_REC
  rw [raise_then_lower _ _ (asserted_en hp _ rs n)] at d7
  refine ⟨t, ?_, d7⟩
  simp only [writeNibble, pulseEnable, Ran.done_andThen, d1.frame.params, d3.frame.params, d5.frame.params,
    run1, run2, run3, run4, run5, run6, run7]

end

/-- The delays between the last calls of a nibble write, and after them (R602). -/
theorem nibbleTrace_spaced (s : State) :
    s.now + s.inputs.spent 4 + Config.T_AS ≤ riseAt s ∧ riseAt s + Config.T_PW ≤ fallAt s ∧
      fallAt s + Config.T_REC ≤ nibbleBase s + s.inputs.spent 11 := by
  have h4 := spent_mono s.inputs (show 4 ≤ 7 by omega)
  have h7 := spent_mono s.inputs (show 7 ≤ 10 by omega)
  have h10 := spent_mono s.inputs (show 10 ≤ 11 by omega)
  simp only [riseAt, fallAt, nibbleBase]
  omega

/-! ## The instructions -/

/-- The value an operation returns is no part of what its transfers change. -/
theorem State.LcdOnly.setRet {s t : State} (h : s.LcdOnly t) (v : Option RetVal) :
    ({ s with ret := v } : State).LcdOnly { t with ret := v } :=
  (congrArg (fun x : State => { x with ret := v }) h :)

/-- Once the LCD pins are outputs, a primitive that completes returns (R600). -/
theorem whenPinsOutputs_done {op : State → Ran Unit} {s t : State} (hp : s.lcdPhase ≠ .unpowered)
    (h : op { s with ret := none } = .done () t) :
    (unitOp (whenPinsOutputs op) { s with ret := none }).finish = { t with ret := some .unit } :=
  unitOp_done ((if_neg hp).trans h)

/-- While Unpowered every primitive is refused (R600, R911; log entry 20). -/
theorem whenPinsOutputs_refused (op : State → Ran Unit) {s : State} (hp : s.lcdPhase = .unpowered) :
    (unitOp (whenPinsOutputs op) { s with ret := none }).finish = ({ s with ret := none } : State).refuse .notReady :=
  unitOp_refused (if_pos hp)

/-- Settles O27: the seven steps of a nibble write, each a read-modify-write or a delay, make its eight calls. -/
theorem nibbleWriteIsEightCalls : Obligations.NibbleWriteIsEightCalls := by
  unfold Obligations.NibbleWriteIsEightCalls
  intro s rs n hr hph hp hd hq g l u w e
  obtain ⟨t, run, drives⟩ := writeNibble_drives (s := { s with ret := none }) hp hd hq rs n
  obtain ⟨rise, fall, recovery⟩ := nibbleTrace_spaced s
  refine ⟨{ t with ret := some .unit }, nibbleTrace s rs n, ?_, drives.trace, rfl,
    fun x hx => (nibbleTrace_issued s rs n x hx).1, ⟨_, _, _, rfl, rfl, rfl, rise, fall, ?_⟩, drives.chip, drives.inputs,
    drives.frame.setRet _⟩
  · rw [exec_writeNibble hr, whenPinsOutputs_done hph run]
  · exact recovery.trans drives.now.ge

/-! ## `send_byte`, `send_command`, `send_data` (R603 to R605) -/

theorem nibbleState_issued (s : State) (rs : Bool) (n : Nibble) : s.Issued (nibbleState s rs n) s.params.lcdAddr 8 :=
  ⟨nibbleTrace s rs n, rfl, rfl, nibbleTrace_issued s rs n⟩

/-- The two nibbles of a byte are 16 transport calls (R603). -/
theorem issued_of_nibbleTraces {s t : State} {rs : Bool} {hi lo : Nibble} (h : t.trace = s.trace ++
    (nibbleTrace s rs hi ++ nibbleTrace (nibbleState s rs hi) rs lo)) : s.Issued t s.params.lcdAddr 16 :=
  ((nibbleState_issued s rs hi).trans (nibbleState_issued (nibbleState s rs hi) rs lo)).congr rfl
    (h.trans (List.append_assoc _ _ _).symm)

/-- `send_command` and `send_data` are `send_byte` with their RS (R604, R605). -/
theorem exec_sendData_or_sendCommand {s : State} (hr : s.Running) (rs : Bool) (b : Byte) :
    exec (if rs then .sendData b else .sendCommand b) s = exec (.sendByte rs b) s := by
  cases rs with
  | false => exact (exec_sendCommand hr b).trans (exec_sendByte hr false b).symm
  | true => exact (exec_sendData hr b).trans (exec_sendByte hr true b).symm

/-- Settles O29: the second nibble's latch executes the byte's word, and a step of the word does the same. -/
theorem sendByteExecutesItsWordOnce : Obligations.SendByteExecutesItsWordOnce := by
  unfold Obligations.SendByteExecutesItsWordOnce
  intro s rs b hr
  refine ⟨fun hph i hi => ?_, fun hph hs hf hq => ?_⟩
  · simp only [List.mem_cons, List.not_mem_nil, or_false] at hi
    obtain rfl | rfl | rfl | rfl := hi
    · rw [exec_writeNibble hr, whenPinsOutputs_refused _ hph]; rfl
    · rw [exec_sendByte hr, whenPinsOutputs_refused _ hph]; rfl
    · rw [exec_sendCommand hr, whenPinsOutputs_refused _ hph]; rfl
    · rw [exec_sendData hr, whenPinsOutputs_refused _ hph]; rfl
  · obtain ⟨t, run, frame, inputs, now, chip, trace, mark, executed⟩ :=
      sendByte_settled (hs.congr (t := { s with ret := none }) rfl rfl rfl rfl) hf hq rs b rfl
    have sent : exec (.sendByte rs b) s = .next { t with ret := some .unit } := by
      rw [exec_sendByte hr, whenPinsOutputs_done hph run]
    refine ⟨_, _, sent, (exec_sendData_or_sendCommand hr rs b).trans sent, exec_toInstr _ s,
      mark.trans (command_undefined s _).symm, fun hd => ?_, congrArg Chip.out chip, issued_of_nibbleTraces trace, ?_,
      inputs, frame.setRet _⟩
    · obtain ⟨wired, view, fourBit, -⟩ := executed ((command_undefined s _).symm.trans hd)
      exact ⟨screen_of_view (view.trans (command_view hd).symm), fourBit, wired.congr rfl rfl rfl rfl⟩
    · exact (Nat.le_add_right _ _).trans now.ge

end Sys2Proof.Machine

/-! The LCD operations (R700 to R752): what refuses them, the initialisation, what each leaves of the controller's view,
and the texts that stop before the bus. -/

namespace Sys2Proof.Machine

open Sys2Proof

/-! ## Legality (R700) -/

/-- Outside Ready an LCD operation is refused before it begins (R700, R911). -/
theorem whenLcdReady_refused {s : State} (running : s.Running) (phase : s.lcdPhase ≠ .ready) (op : State → Ran Unit) :
    complete (unitOp (whenLcdReady op)) s =
      .next { s with ret := none, refused := true, refusedReason := some .notReady } := by
  have refused : whenLcdReady op { s with ret := none } = refuse .notReady { s with ret := none } := if_neg phase
  rw [complete_running running, unitOp_refused refused]
  rfl

/-- Settles O32: every operation asks for its phase before anything else. -/
theorem lcdOperationsNeedTheirPhase : Obligations.LcdOperationsNeedTheirPhase := by
  unfold Obligations.LcdOperationsNeedTheirPhase
  intro s running
  refine ⟨fun phase i hi => ?_, fun phase => ?_⟩
  · have refused := whenLcdReady_refused running phase
    simp only [List.mem_cons, List.not_mem_nil, or_false] at hi
    rcases hi with (rfl | rfl | rfl | rfl) | ⟨x, rfl⟩ | ⟨v, rfl⟩ | ⟨v, rfl⟩ | ⟨k, rfl⟩ | ⟨d, k, rfl⟩ <;> exact refused _
  · rw [exec_lcdInit running, unitOp_refused (if_neg phase)]
    rfl

/-! ## Initialisation (R701 to R706) -/

/-- Settles O30: in PinsConfigured the call is init's step 2. -/
theorem initNibbleEntersFourBitMode : Obligations.InitNibbleEntersFourBitMode := by
  unfold Obligations.InitNibbleEntersFourBitMode
  intro s running
  refine ⟨fun phase unmarked settled eightBit quiet => ?_, fun phase => ?_, fun configured unpowered => ?_⟩
  · obtain ⟨t, run, frame, inputs, -, -, issued, settled', fourBit, view⟩ :=
      initStep2_settled (settled.congr (t := { s with ret := none }) rfl rfl rfl rfl) eightBit unmarked quiet
    refine ⟨{ t with ret := some .unit }, ?_, frame.lcdPhase, settled'.congr rfl rfl rfl rfl, fourBit,
      congrArg Controller.lcd view, issued, inputs, frame.setRet _⟩
    rw [exec_initNibble8bit running, unitOp_done ((if_pos phase).trans run)]
  · rw [exec_initNibble8bit running, unitOp_refused ((if_neg (by simp [phase])).trans (if_pos phase))]
    rfl
  · rw [exec_initNibble8bit running, unitOp_refused ((if_neg configured).trans (if_neg unpowered))]
    rfl

/-- Settles O31: the five steps run under `lcd.init`'s hold, which is then released. -/
theorem initBringsTheLcdUp : Obligations.InitBringsTheLcdUp := by
  unfold Obligations.InitBringsTheLcdUp
  intro s cold quiet
  have entered : (s.entered (some .lcdInit)).ColdInterface := { cold.toColdInterface with }
  obtain ⟨t, run, frame, inputs, now, chip, issued, settled, fourBit, screen⟩ := lcdInitBody_cold entered rfl quiet
  have held : holding .lcdInit lcdInitBody { s with ret := none } = .done () t.release :=
    congrArg (fun r : Ran Unit => r.andThen fun v u => .done v u.release) run
  refine ⟨t.left, ?_, ?_, screen, chip, issued, now, inputs, ?_⟩
  · rw [exec_lcdInit cold.running, unitOp_done ((if_pos cold.phase).trans held)]
    rfl
  · exact
      { settled.congr rfl rfl rfl rfl with
        running := ⟨frame.fatal.trans cold.running.1, frame.refused.trans cold.running.2⟩
        free := ⟨rfl, frame.scanning.trans cold.free.2⟩
        phase := frame.lcdPhase
        fourBit := fourBit }
  · -- No operation held the bus before the call, so releasing it gives BUS_OWNER back (R931).
    have free : ({ s with busOwner := none } : State) = s := by rw [← cold.free.1]
    have released := congrArg State.left frame
    rw [State.LcdOnly, released]
    conv_rhs => rw [← free]
    rfl

/-! ## What a written text leaves -/

/-- From `k` to `k'` the codes `bs` were stored at `x` and the cells after it, AC stands behind the last one, and nothing
else of the controller's view changed (R724). -/
structure Controller.Wrote (k : Controller) (x : DdAddr) (bs : List Byte) (k' : Controller) : Prop where
  codes : ∀ i b, bs[i]? = some b → k'.lcd.ddram.read ((incAc true)^[i] x).toNat = some b
  others : ∀ a, (∀ i < bs.length, ((incAc true)^[i] x).toNat ≠ a) → k'.lcd.ddram.read a = k.lcd.ddram.read a
  screen : k'.lcd.screen = { k.lcd.screen with ddram := k'.lcd.ddram, ac := (incAc true)^[bs.length] x }

theorem Controller.Wrote.ac {k k' : Controller} {x : DdAddr} {bs : List Byte} (h : k.Wrote x bs k') :
    k'.lcd.ac = (incAc true)^[bs.length] x := (congrArg Lcd.ac h.screen :)

/-- Codes written to the start of a line stand at its cells by number. -/
theorem Controller.Wrote.onLine {k k' : Controller} {x : DdAddr} {bs : List Byte} {n : Nat} (h : k.Wrote x bs k')
    (short : bs.length ≤ 16) (cells : ∀ i ≤ 16, ((incAc true)^[i] x).toNat = n + i) :
    (∀ i b, bs[i]? = some b → k'.lcd.ddram.read (n + i) = some b) ∧
      ∀ a, a < n ∨ n + bs.length ≤ a → k'.lcd.ddram.read a = k.lcd.ddram.read a := by
  refine ⟨fun i b hb => ?_, fun a ha => h.others a fun i hi => ?_⟩
  · obtain ⟨hi, -⟩ := List.getElem?_eq_some_iff.1 hb
    rw [← cells i (by omega)]
    exact h.codes i b hb
  · rw [cells i (by omega)]
    omega

/-- A record that differs in DDRAM and AC alone differs in its own DDRAM, the form in which the statements give it. -/
theorem Lcd.screen_ddram {l l' : Lcd} {m : Memory} {a : DdAddr} (h : l'.screen = { l.screen with ddram := m, ac := a }) :
    l'.ddram = m ∧ l'.screen = { l.screen with ddram := l'.ddram, ac := a } := by
  have ddram : l'.ddram = m := (congrArg Lcd.ddram h :)
  exact ⟨ddram, ddram ▸ h⟩

/-- At most 80 data bytes, the cells of the map, are written one after the other. -/
theorem Controller.Tidy.wrote {k k' : Controller} (h : k.Tidy) {bs : List Byte} (short : bs.length ≤ 80)
    (view : k'.view = (runAll (bs.map fun b => (true, b)) k).view) : k.Wrote k.lcd.ac bs k' := by
  rw [(runAll_data h bs).1] at view
  obtain ⟨ddram, screen⟩ := Lcd.screen_ddram (screen_of_view view)
  exact
    { codes := fun i b hb => ddram ▸ writeRun_same h.legal short hb
      others := fun a ha => ddram ▸ writeRun_other ha
      screen := screen }

/-- The newline's address is taken in every mode (R517, R712). -/
theorem cmdEffect_newline (k : Controller) : cmdEffect (decodeCmd (busWord false newlineByte)) k =
    { k with lcd := { k.lcd with ac := 0x40 } } := by
  simp [decode_newline, cmdEffect, cmdSetDdramAddr]

/-- AC on line 2 by number. -/
theorem line2_ac {k : Nat} (h : k ≤ 16) : (incAc true)^[k] 0x40#7 = BitVec.ofNat 7 (0x40 + k) := by
  rw [← line2_cell h, BitVec.ofNat_toNat, BitVec.setWidth_eq]

/-- From `k` over `m` to `k'` the codes `first` were written from AC on, and then `second` from 0x40 on (R712, R724). -/
structure Controller.WroteLines (k m k' : Controller) (first second : List Byte) : Prop where
  line1 : k.Wrote k.lcd.ac first m
  line2 : ∀ i b, second[i]? = some b → k'.lcd.ddram.read (0x40 + i) = some b
  others : ∀ a, a < 0x40 ∨ 0x40 + second.length ≤ a → k'.lcd.ddram.read a = m.lcd.ddram.read a
  screen : k'.lcd.screen = { k.lcd.screen with ddram := k'.lcd.ddram, ac := BitVec.ofNat 7 (0x40 + second.length) }

/-- The bytes of two lines are two runs of data, the second from the newline's address on. -/
theorem Controller.Tidy.wroteLines {k k' : Controller} (h : k.Tidy) {first second : List Byte}
    (short1 : first.length ≤ 16) (short2 : second.length ≤ 16)
    (view : k'.view = (runAll ((first.map fun b => (true, b)) ++ (false, newlineByte) ::
      (second.map fun b => (true, b))) k).view) :
    ∃ m, k.WroteLines m k' first second := by
  rw [runAll_append, runAll_cons, cmdEffect_newline] at view
  have line1 := h.wrote (by omega) (rfl : (runAll (first.map fun b => (true, b)) k).view = _)
  obtain ⟨-, tidy⟩ := runAll_data h first
  generalize runAll (first.map fun b => (true, b)) k = m at *
  have wrote : m.Wrote 0x40#7 second k' :=
    have home : ({ m with lcd := { m.lcd with ac := 0x40 } } : Controller).Tidy := { tidy with legal := rfl }
    have line2 := home.wrote (by omega) view
    ⟨line2.codes, line2.others, line2.screen⟩
  obtain ⟨line2, others⟩ := wrote.onLine short2 fun i hi => line2_cell hi
  exact ⟨m, line1, line2, others, by rw [wrote.screen, line1.screen, line2_ac short2]⟩

/-! ## Texts as codes (R309) -/

/-- The byte of a text's character is its code. -/
theorem charByte_getElem? {text : List Char} {i : Nat} {c : Char} (h : text[i]? = some c) :
    (text.map charByte)[i]? = some (BitVec.ofNat 8 c.toNat) := by
  rw [List.getElem?_map, h]
  rfl

/-! ## Commands (R710 to R713, R750, R751) -/

/-- Settles O33: the command and its wait, from a ready driver. -/
theorem clearDisplayOperation : Obligations.ClearDisplayOperation := by
  unfold Obligations.ClearDisplayOperation
  intro s ready quiet
  obtain ⟨t, run, frame, inputs, now, lowered, issued, settled, fourBit, view⟩ :=
    clearDisplayBody_settled (ready.toSettled.congr (t := s.entered (some .lcdClearDisplay)) rfl rfl rfl rfl)
      ready.fourBit quiet
  have screen := screen_of_view view
  have ddram : t.ctl.lcd.ddram = (cmdClearDisplay s.ctl).lcd.ddram := Lcd.ddram_of_screen screen
  refine ⟨t.left, lcdOp_done ready run, lcdDone_of ready frame inputs now lowered issued settled fourBit,
    fun a legal => ?_, fun a illegal => ?_, ?_⟩
  · show t.ctl.lcd.ddram.read a.toNat = _
    rw [ddram, clear_read, if_pos legal]
  · show t.ctl.lcd.ddram.read a.toNat = _
    rw [ddram, clear_read, if_neg (by simp [illegal])]
  · show t.ctl.lcd.screen = { s.ctl.lcd.screen with ddram := t.ctl.lcd.ddram, ac := 0x00, shift := 0, id := true }
    rw [screen, ddram]
    rfl

/-- `power_on` and `power_off` are one display control (R750, R751). -/
theorem lcdOp_display {s : State} (ready : s.LcdReady) (quiet : s.inputs.Quiet 22) (op : PublicOp) (d : Bool) :
    ∃ t, lcdOp op (fun s => sendCommand (displayByte s.params d) s) s = .next t ∧ s.LcdDone t 1 0 1080 ∧
      t.ctl.view = (cmdDisplayControl d s.params.cursorOn s.params.blinkOn s.ctl).view := by
  obtain ⟨t, run, -, done, view⟩ :=
    sends_ready ready (some op) (bs := [(false, displayByte s.params d)]) quiet (by simpa using tame_display s.params d)
  rw [← sendCommand_eq_sendAll] at run
  rw [runAll_cons, decode_display] at view
  exact ⟨t.left, lcdOp_done ready run, done, view⟩

/-- The places of the display (R3). -/
theorem onScreen_iff {line j : Nat} : onScreen line j = true ↔ line < 2 ∧ j < 16 := by
  simp only [onScreen, Bool.and_eq_true, decide_eq_true_eq]
  rfl

theorem State.shown_on {s : State} (on : s.ctl.lcd.d = true) (line j : Nat) :
    s.shown line j = if line < 2 ∧ j < 16 then some (s.cellCode (s.shownAddr line j)) else none := by
  simp only [State.shown, on, Bool.true_and, onScreen_iff]

theorem State.cursorShown_iff (s : State) (line j : Nat) : s.cursorShown line j = true ↔
    s.ctl.lcd.d = true ∧ s.ctl.lcd.c = true ∧ line < 2 ∧ j < 16 ∧ s.ctl.lcd.ac.toNat = s.shownAddr line j := by
  simp only [State.cursorShown, Bool.and_eq_true, decide_eq_true_eq, onScreen_iff, and_assoc]

/-- What is shown depends on the controller's view alone (R121). -/
theorem State.shown_of_view {s t : State} (h : t.ctl.view = s.ctl.view) (line j : Nat) :
    t.shown line j = s.shown line j ∧ t.cursorShown line j = s.cursorShown line j := by
  have shown (u : State) : u.shown line j = { s with ctl := u.ctl.view }.shown line j := rfl
  have cursor (u : State) : u.cursorShown line j = { s with ctl := u.ctl.view }.cursorShown line j := rfl
  rw [shown t, shown s, cursor t, cursor s, h]
  exact ⟨rfl, rfl⟩

/-- Settles O34: the display control sets D and the cursor bits, and what is shown follows from the view. -/
theorem powerBlanksAndRestores : Obligations.PowerBlanksAndRestores := by
  unfold Obligations.PowerBlanksAndRestores
  intro s ready quiet
  obtain ⟨on, runOn, doneOn, viewOn⟩ := lcdOp_display ready quiet .lcdPowerOn true
  obtain ⟨off, runOff, doneOff, viewOff⟩ := lcdOp_display ready quiet .lcdPowerOff false
  refine ⟨⟨on, runOn, doneOn, screen_of_view viewOn, fun line j => ?_⟩,
    off, runOff, doneOff, screen_of_view viewOff, fun line j => ?_⟩
  · obtain ⟨shown, cursor⟩ := State.shown_of_view
      (s := { s with ctl := cmdDisplayControl true s.params.cursorOn s.params.blinkOn s.ctl }) viewOn line j
    rw [shown, cursor]
    exact ⟨State.shown_on rfl line j, (State.cursorShown_iff ..).trans ⟨And.right, fun h => ⟨rfl, h⟩⟩⟩
  · obtain ⟨shown, cursor⟩ := State.shown_of_view
      (s := { s with ctl := cmdDisplayControl false s.params.cursorOn s.params.blinkOn s.ctl }) viewOff line j
    rw [shown, cursor]
    exact ⟨rfl, rfl⟩

/-- Settles O35: the bytes move AC alone, `runAll_shifts`. -/
theorem shiftCursorSteps : Obligations.ShiftCursorSteps := by
  unfold Obligations.ShiftCursorSteps
  intro s dir count ready quiet
  obtain ⟨t, run, done, view⟩ := lcdOp_sends ready .lcdShiftCursor (bs := List.replicate count (false, shiftByte dir))
    (by rwa [List.length_replicate]) fun p hp => List.eq_of_mem_replicate hp ▸ tame_shift dir
  rw [List.length_replicate] at done
  rw [← shiftCursorBody_eq] at run
  obtain ⟨lcd, cells, steps⟩ := runAll_shifts (k := s.ctl) dir count
  generalize runAll (List.replicate count (false, shiftByte dir)) s.ctl = k at *
  have screen := screen_of_view view
  refine ⟨t, run, done, ?_, fun a => ?_, fun legal => ?_⟩
  · rw [Lcd.ac_of_screen screen, screen]
    exact congrArg Lcd.screen lcd
  · have ddram : t.ctl.lcd.ddram = s.ctl.lcd.ddram := (Lcd.ddram_of_screen screen).trans (congrArg Lcd.ddram lcd :)
    have cells' : t.ctl.cells = s.ctl.cells := (congrArg Controller.cells view).trans cells
    rw [State.cellCode, ddram, cells']
    rfl
  · rw [Lcd.ac_of_screen screen, steps legal]
    cases dir <;> rfl

/-! ## Data: characters, texts and digits (R713, R723, R740) -/

/-- A public LCD operation that sends data. -/
theorem lcdOp_data {s : State} (ready : s.LcdReady) (op : PublicOp) {body : State → Ran Unit} {bs : List Byte}
    (body_eq : body = sendAll (bs.map fun b => (true, b))) (quiet : s.inputs.Quiet (22 * bs.length))
    (short : bs.length ≤ 80) :
    ∃ t, lcdOp op body s = .next t ∧ s.LcdDone t bs.length 0 (1080 * bs.length) ∧
      (s.Cleared → s.ctl.Wrote s.ctl.lcd.ac bs t.ctl) := by
  obtain ⟨t, run, done, view⟩ := lcdOp_sends ready op (bs := bs.map fun b => (true, b)) (by rwa [List.length_map])
    (by simp [tame_data])
  rw [List.length_map] at done
  exact ⟨t, body_eq ▸ run, done, fun cleared => cleared.tidy.wrote short view⟩

/-- Settles O36: each is one byte, the newline's address or the character's code. -/
theorem newlineAndWriteChar : Obligations.NewlineAndWriteChar := by
  unfold Obligations.NewlineAndWriteChar
  intro s
  refine ⟨fun running phase i hi => ?_, fun ready quiet => ⟨?_, fun c => ?_⟩⟩
  · rcases hi with rfl | ⟨c, rfl⟩ <;> exact whenLcdReady_refused running phase _
  · obtain ⟨t, run, done, view⟩ := bareOp_sends ready quiet tame_newline
    rw [cmdEffect_newline] at view
    exact ⟨t, run, done, screen_of_view view⟩
  · obtain ⟨t, run, done, view⟩ := bareOp_sends ready quiet (tame_data (charByte c))
    refine ⟨t, run, done, fun cleared => ?_⟩
    obtain ⟨codes, others, screen⟩ := cleared.tidy.wrote (bs := [charByte c]) (by simp) view
    exact ⟨codes 0 _ rfl, fun a ha => others a (by simpa using ha.symm), screen⟩

/-- Settles O37: the codes of the text are one run of data. -/
theorem writeStringOnOneLine : Obligations.WriteStringOnOneLine := by
  unfold Obligations.WriteStringOnOneLine
  intro s text ready valid line quiet
  obtain ⟨t, run, done, wrote⟩ := lcdOp_data ready .lcdWriteString (bs := text.map charByte)
    ((writeStringBody_eq valid).trans (congrArg sendAll (charSend_line line))) (by rwa [List.length_map])
    (by rw [List.length_map]; have := valid.length_le line; omega)
  rw [List.length_map] at done
  refine ⟨t, run, done, fun cleared => ?_⟩
  obtain ⟨codes, others, screen⟩ := wrote cleared
  rw [List.length_map] at others screen
  exact ⟨fun i c hc => codes i _ (charByte_getElem? hc), others, screen⟩

/-- Settles O38: the codes of the two lines are two runs of data, with the newline's address between them. -/
theorem writeStringOnTwoLines : Obligations.WriteStringOnTwoLines := by
  unfold Obligations.WriteStringOnTwoLines
  intro s first second ready valid quiet
  obtain ⟨line1, line2, short1, short2⟩ := valid.lines
  have length : ((first ++ newlineChar :: second).map charSend).length = first.length + 1 + second.length := by
    simp; omega
  obtain ⟨t, run, done, view⟩ := lcdOp_sends ready .lcdWriteString (by rwa [length]) (charSend_tame _)
  rw [length] at done
  rw [← writeStringBody_eq valid] at run
  refine ⟨t, run, done, fun cleared => ?_⟩
  rw [charSend_lines line1 line2] at view
  obtain ⟨m, wrote, codes2, others, screen⟩ := cleared.tidy.wroteLines (by simpa) (by simpa) view
  rw [List.length_map] at others screen
  refine ⟨fun i c hc => codes2 i _ (charByte_getElem? hc), fun i c hc => ?_, fun a h1 ha => ?_, screen⟩
  · intro a ha
    exact (others a ha).trans (wrote.codes i _ (charByte_getElem? hc))
  · exact (others a ha).trans (wrote.others a (by rwa [List.length_map]))

/-- `write_u32` and `write_u8` are runs of digits (R740 to R742). -/
theorem lcdOp_digits {s : State} (ready : s.LcdReady) (op : PublicOp) (v : Nat) {k : Nat} (short : k ≤ 80)
    (quiet : s.inputs.Quiet (22 * k)) :
    ∃ t, lcdOp op (writeDigits (decimalDigits v k)) s = .next t ∧ s.LcdDone t k 0 (1080 * k) ∧
      (s.Cleared →
        (∀ i < k, t.ctl.lcd.ddram.read ((incAc true)^[i] s.ctl.lcd.ac).toNat =
          some (BitVec.ofNat 8 (0x30 + v / 10 ^ (k - 1 - i) % 10))) ∧
        (∀ a, (∀ i < k, ((incAc true)^[i] s.ctl.lcd.ac).toNat ≠ a) → t.ctl.lcd.ddram.read a = s.ctl.lcd.ddram.read a) ∧
        t.ctl.lcd.screen =
          { s.ctl.lcd.screen with ddram := t.ctl.lcd.ddram, ac := (incAc true)^[k] s.ctl.lcd.ac }) := by
  have length : ((decimalDigits v k).map fun d => BitVec.ofNat 8 (0x30 + d)).length = k := by
    rw [List.length_map, decimalDigits_length]
  obtain ⟨t, run, done, wrote⟩ := lcdOp_data ready op ((writeDigits_eq (digit_lt v k)).trans (by rw [List.map_map]; rfl))
    (by rwa [length]) (by rwa [length])
  rw [length] at done
  refine ⟨t, run, done, fun cleared => ?_⟩
  obtain ⟨codes, others, screen⟩ := wrote cleared
  rw [length] at others screen
  exact ⟨fun i hi => codes i _ (by rw [List.getElem?_map, decimalDigits_get hi]; rfl), others, screen⟩

/-- Settles O41: five digits and three. -/
theorem numbersAreWrittenInDecimal : Obligations.NumbersAreWrittenInDecimal := by
  unfold Obligations.NumbersAreWrittenInDecimal
  exact fun s ready => ⟨fun v quiet => lcdOp_digits ready .lcdWriteU32 v.toNat (by omega) quiet,
    fun v quiet => lcdOp_digits ready .lcdWriteU8 v.toNat (by omega) quiet⟩

/-! ## `backspace` (R730) -/

/-- Settles O40: the bytes blank the cells before AC, `runAll_backspaces`. -/
theorem backspaceErases : Obligations.BackspaceErases := by
  unfold Obligations.BackspaceErases
  intro s count ready quiet
  have length := backspacesSend_length count
  obtain ⟨t, run, done, view⟩ := lcdOp_sends ready .lcdBackspace (bs := backspacesSend count)
    (by rw [length]; exact quiet.mono (by omega)) (tame_backspaces count)
  rw [length] at done
  rw [← backspaceBody_eq] at run
  refine ⟨t, run, (by omega : 1080 * (3 * count) = 3240 * count) ▸ done, fun cleared => ?_⟩
  rw [(runAll_backspaces cleared.tidy count).1] at view
  obtain ⟨ddram, screen⟩ := Lcd.screen_ddram (screen_of_view view)
  exact ⟨fun i hi => ddram ▸ eraseRun_same hi, fun a ha => ddram ▸ eraseRun_other ha, screen⟩

/-! ## Bad texts (R720 to R722, R908) -/

/-- The first segment over 16 is the one reported (R722). -/
theorem find?_overlong {before after : List (List Char)} {g : List Char} (short : ∀ x ∈ before, x.length ≤ Config.COLS)
    (long : Config.COLS < g.length) :
    (before ++ g :: after).find? (fun g => decide (Config.COLS < g.length)) = some g := by
  have passed : before.find? (fun g => decide (Config.COLS < g.length)) = none :=
    List.find?_eq_none.2 fun x hx => by simpa using short x hx
  rw [List.find?_append, passed, Option.none_or]
  exact List.find?_cons_of_pos (decide_eq_true long)

/-- Settles O39: `validate` is the first thing under the hold, and stops at the first failing check. -/
theorem badTextsStopBeforeTheBus : Obligations.BadTextsStopBeforeTheBus := by
  unfold Obligations.BadTextsStopBeforeTheBus
  intro s text ready
  have stops {u : State} (h : validate text (s.entered (some .lcdWriteString)) = .stopped u) :
      exec (.lcdWriteString text) s = .next u :=
    lcdOp_stopped ready (by rw [writeStringBody, h, Ran.stopped_andThen])
  refine ⟨fun wide => stops ?_, fun seven newlines => stops ?_,
    fun seven newlines before g after parts short long => stops ?_⟩
  · rw [validate, if_neg (by simp [wide])]
    rfl
  · rw [validate, if_pos seven, if_neg (by simp only [Config.MAX_NEWLINES]; omega)]
    rfl
  · rw [validate, if_pos seven, if_pos (by exact newlines), parts, find?_overlong short long]
    rfl

/-! ## The greeting (R752) -/

/-- The clear and the text, from a settled interface. -/
theorem greetingBody_settled {s : State} (settled : s.Settled) (fourBit : s.FourBit) (valid : ValidText s.params.greeting)
    (quiet : s.inputs.Quiet (23 + 22 * s.params.greeting.length)) :
    ∃ t, greetingBody s = .done () t ∧ s.LcdOnly t ∧ t.inputs = s.inputs.drop (23 + 22 * s.params.greeting.length) ∧
      s.now + (3080 + 1080 * s.params.greeting.length) ≤ t.now ∧ lowered t = lowered s ∧
      s.Issued t s.params.lcdAddr (16 + 16 * s.params.greeting.length) ∧ t.Settled ∧ t.FourBit ∧
      t.ctl.view = (runAll (s.params.greeting.map charSend) (cmdClearDisplay s.ctl)).view := by
  obtain ⟨u, runC, frameC, inputsC, nowC, loweredC, issuedC, settledC, fourBitC, viewC⟩ :=
    clearDisplayBody_settled settled fourBit (quiet.mono (by omega))
  obtain ⟨t, runT, frameT, inputsT, nowT, loweredT, issuedT, settledT, fourBitT, viewT⟩ :=
    sendAll_tame settledC fourBitC (bs := s.params.greeting.map charSend)
      (by rw [List.length_map, inputsC]; exact quiet.drop 23 le_rfl) (charSend_tame _)
  rw [List.length_map] at inputsT nowT issuedT
  rw [frameC.params] at issuedT
  refine ⟨t, ?_, frameC.trans frameT, ?_, by omega, loweredT.trans loweredC, issuedC.trans issuedT, settledT, fourBitT,
    viewT.trans (runAll_view viewC _)⟩
  · rw [greetingBody, runC, Ran.done_andThen, frameC.params, writeStringBody_eq valid, runT]
  · rw [inputsT, inputsC, Inputs.drop_drop]

/-- In the two-line mode without display shift, the clear establishes R521's invariant. -/
theorem tidy_of_clear {k : Controller} (twoLines : k.lcd.n = true) (noShift : k.lcd.s = false) :
    (cmdClearDisplay k).Tidy := ⟨rfl, rfl, noShift, twoLines, rfl⟩

/-- After a clear, line 1's first code goes to cell 0. -/
theorem Controller.Wrote.onLine1 {k k' : Controller} {bs : List Byte} (h : (cmdClearDisplay k).Wrote 0x00#7 bs k')
    (twoLines : k.lcd.n = true) (short : bs.length ≤ 16) :
    (∀ i b, bs[i]? = some b → k'.lcd.ddram.read i = some b) ∧
      ∀ a : DdAddr, legalAddr true a = true → bs.length ≤ a.toNat → k'.lcd.ddram.read a.toNat = some 0x20 := by
  obtain ⟨codes, others⟩ := h.onLine short fun i hi => (line1_cell hi).trans (Nat.zero_add i).symm
  refine ⟨fun i b hb => ?_, fun a legal ha => ?_⟩
  · rw [← codes i b hb, Nat.zero_add]
  · rw [others a.toNat (.inr (by omega)), clear_read, twoLines, if_pos legal]

section
variable {k k' : Controller} (twoLines : k.lcd.n = true) (noShift : k.lcd.s = false)
include twoLines noShift

/-- After a clear, a text of one line stands from cell 0 on, among blanks. -/
theorem clear_then_line {text : List Char} (valid : ValidText text) (line : newlineChar ∉ text)
    (view : k'.view = (runAll (text.map charSend) (cmdClearDisplay k)).view) :
    (∀ i c, text[i]? = some c → k'.lcd.ddram.read i = some (BitVec.ofNat 8 c.toNat)) ∧
      (∀ a : DdAddr, legalAddr true a = true → text.length ≤ a.toNat → k'.lcd.ddram.read a.toNat = some 0x20) ∧
      k'.lcd.ac.toNat = text.length := by
  rw [charSend_line line] at view
  have short := valid.length_le line
  rw [← List.length_map charByte] at short ⊢
  have wrote : (cmdClearDisplay k).Wrote 0x00#7 (text.map charByte) k' :=
    (tidy_of_clear twoLines noShift).wrote (by omega) view
  obtain ⟨codes, blanks⟩ := wrote.onLine1 twoLines short
  exact ⟨fun i c hc => codes i _ (charByte_getElem? hc), blanks, by rw [wrote.ac, line1_cell short]⟩

/-- After a clear, a text of two lines stands from cell 0 and from cell 0x40 on, among blanks. -/
theorem clear_then_lines {first second : List Char} (valid : ValidText (first ++ newlineChar :: second))
    (view : k'.view = (runAll ((first ++ newlineChar :: second).map charSend) (cmdClearDisplay k)).view) :
    (∀ i c, first[i]? = some c → k'.lcd.ddram.read i = some (BitVec.ofNat 8 c.toNat)) ∧
      (∀ i c, second[i]? = some c → k'.lcd.ddram.read (0x40 + i) = some (BitVec.ofNat 8 c.toNat)) ∧
      (∀ a : DdAddr, legalAddr true a = true → first.length ≤ a.toNat →
        (a.toNat < 0x40 ∨ 0x40 + second.length ≤ a.toNat) → k'.lcd.ddram.read a.toNat = some 0x20) ∧
      k'.lcd.ac.toNat = 0x40 + second.length := by
  obtain ⟨line1, line2, short1, short2⟩ := valid.lines
  rw [charSend_lines line1 line2] at view
  obtain ⟨m, wrote, codes2, others, screen⟩ :=
    (tidy_of_clear twoLines noShift).wroteLines (by simpa) (by simpa) view
  obtain ⟨codes1, blanks⟩ := Controller.Wrote.onLine1 (k := k) wrote twoLines (by simpa)
  rw [List.length_map] at others screen blanks
  refine ⟨fun i c hc => ?_, fun i c hc => codes2 i _ (charByte_getElem? hc),
    fun a legal h1 ha => (others _ ha).trans (blanks a legal h1), ?_⟩
  · obtain ⟨hi, -⟩ := List.getElem?_eq_some_iff.1 hc
    exact (others i (.inl (by omega))).trans (codes1 i _ (charByte_getElem? hc))
  · have ac : k'.lcd.ac = BitVec.ofNat 7 (0x40 + second.length) := (congrArg Lcd.ac screen :)
    rw [ac, BitVec.toNat_ofNat]
    omega

end

/-- Settles O42: the greeting's text is written by a controller the clear has left tidy, with AC at 0. -/
theorem greetingIsClearThenText : Obligations.GreetingIsClearThenText := by
  unfold Obligations.GreetingIsClearThenText
  intro s ready wf quiet
  obtain ⟨-, valid⟩ := wf
  obtain ⟨t, run, frame, inputs, now, lowered, issued, settled, fourBit, view⟩ :=
    greetingBody_settled (s := s.entered (some .lcdDisplayGreeting)) (ready.toSettled.congr rfl rfl rfl rfl)
      ready.fourBit valid quiet
  have draws : 23 + 22 * s.params.greeting.length = 22 * (1 + s.params.greeting.length) + 1 := by omega
  have calls : 16 + 16 * s.params.greeting.length = 16 * (1 + s.params.greeting.length) := by omega
  refine ⟨t.left, lcdOp_done ready run,
    lcdDone_of ready frame (draws ▸ inputs) now lowered (calls ▸ issued) settled fourBit,
    fun twoLines noShift => ⟨?_, fun line => clear_then_line twoLines noShift valid line view,
      fun first second lines => ?_⟩⟩
  · exact Controller.Tidy.cleared (s := t.left) ((tidy_text (tidy_of_clear twoLines noShift) _).of_view view)
  · rw [State.entered, lines] at view
    exact clear_then_lines twoLines noShift (lines ▸ valid) view

end Sys2Proof.Machine

/-! The keypad (44_keypad): its map, its phases, the columns and rows, what a pass finds under each column drive, and
the scans made of passes. -/

namespace Sys2Proof.Machine

open Sys2Proof

/-! ## The key map (R801) -/

/-- The crossing a key stands at: R801's table read the other way. -/
def keyPlace : Key → Column × Row
  | .k1 => (.c1, .r1)
  | .k2 => (.c2, .r1)
  | .k3 => (.c3, .r1)
  | .k4 => (.c1, .r2)
  | .k5 => (.c2, .r2)
  | .k6 => (.c3, .r2)
  | .k7 => (.c1, .r3)
  | .k8 => (.c2, .r3)
  | .k9 => (.c3, .r3)
  | .star => (.c1, .r4)
  | .k0 => (.c2, .r4)
  | .pound => (.c3, .r4)

theorem keyPlace_keyAt (c : Column) (r : Row) : keyPlace (keyAt c r) = (c, r) := by
  cases c <;> cases r <;> rfl

/-- Settles O6: `keyPlace` takes each key back to its crossing. -/
theorem keyMapIsABijection : Obligations.KeyMapIsABijection := by
  unfold Obligations.KeyMapIsABijection
  refine ⟨by decide, fun c c' r r' same => ?_, keyAt_surjective⟩
  have place := congrArg keyPlace same
  rwa [keyPlace_keyAt, keyPlace_keyAt, Prod.mk.injEq] at place

/-! ## Main's marks around transfers to the keypad chip -/

/-- Main's marks are no part of what transfers to the keypad chip change. -/
theorem State.KeypadOnly.marked {s t : State} (h : s.KeypadOnly t) (o : Option PublicOp) (m : Option Key)
    (x : Option RetVal) : (s.marked o m x).KeypadOnly (t.marked o m x) :=
  ⟨congrArg (State.marked o m x) h.frame, h.mark, h.ctl⟩

theorem Pad.marked {s t : State} {n calls least : Nat} (h : Pad s t n calls least) (o : Option PublicOp)
    (m : Option Key) (x : Option RetVal) : Pad (s.marked o m x) (t.marked o m x) n calls least :=
  ⟨h.frame.marked o m x, h.inputs, h.issued.congr rfl rfl, h.time⟩

/-- Transfers to the keypad chip leave Main's marks. -/
theorem State.KeypadOnly.marked_self {s t : State} (h : s.KeypadOnly t) :
    t.marked s.busOwner s.scanning s.ret = t := by
  rw [← h.busOwner, ← h.scanning, ← h.ret]
  rfl

/-- What a call leaves that made its transfers to the keypad chip and returns `v`. -/
theorem Pad.keypadDone {s t : State} {waits transports least : Nat}
    (h : Pad { s with ret := none } t (waits + transports) transports least) (v : RetVal) :
    s.KeypadDone { t with ret := some v } v transports waits where
  frame := ⟨congrArg (fun x : State => { x with ret := some v }) h.frame.frame, h.frame.mark, h.frame.ctl⟩
  inputs := h.inputs.trans (by rw [Nat.add_comm])
  issued := h.issued.congr rfl rfl

/-- The same without a delay. -/
theorem Pad.keypadDone_of_transfers {s t : State} {transports least : Nat}
    (h : Pad { s with ret := none } t transports transports least) (v : RetVal) :
    s.KeypadDone { t with ret := some v } v transports 0 :=
  Pad.keypadDone (waits := 0) (by rwa [Nat.zero_add]) v

/-! ## A pass (R806) -/

/-- A completed pass leads from `s` to `t` and finds `ks`, and it runs so whatever Main's marks are. -/
structure State.Pass (s t : State) (ks : List Key) : Prop where
  run : ∀ o m x, rawScan (s.marked o m x) = .done ks (t.marked o m x)
  pad : Pad s t (passCalls s.params) (passCalls s.params) 0
  chip : t.kpChip = s.passChip .c3
  keys : s.kpChip.dir = rowsMask s.params → ks = keysSeen s.params s.passChip s.passDraw

theorem exists_pass {s : State} (hw : s.params.distinct) (hq : s.inputs.Quiet (passCalls s.params)) :
    ∃ t ks, s.Pass t ks := by
  obtain ⟨t, ks, run, pad, chip, keys⟩ := rawScan_pass hw hq
  exact ⟨t, ks, fun o m x => rawScan_marked o m x hw hq run, pad, chip, keys⟩

section
variable {s t : State} {ks : List Key} (h : s.Pass t ks)
include h

theorem State.Pass.rawScan : Machine.rawScan s = .done ks t := by
  have marked := h.run s.busOwner s.scanning s.ret
  rwa [h.pad.frame.marked_self] at marked

theorem State.Pass.marked (o : Option PublicOp) (m : Option Key) (x : Option RetVal) :
    (s.marked o m x).Pass (t.marked o m x) ks where
  run := h.run
  pad := h.pad.marked o m x
  chip := h.chip
  keys := h.keys

/-- `raw_scan` as a call is a pass and returns its keys. -/
theorem State.Pass.exec (running : s.Running) :
    Machine.exec .keypadRawScan s = .next (t.marked s.busOwner s.scanning (some (.keys ks))) := by
  have pass : Machine.rawScan { s with ret := none } = .done ks (t.marked s.busOwner s.scanning none) := h.run _ _ _
  rw [exec_keypadRawScan running, pass]
  rfl

theorem State.Pass.keypadDone :
    s.KeypadDone (t.marked s.busOwner s.scanning (some (.keys ks))) (.keys ks) (passCalls s.params) 0 :=
  (h.pad.marked s.busOwner s.scanning none).keypadDone_of_transfers (.keys ks)

variable (dir : s.kpChip.dir = rowsMask s.params)
include dir

theorem State.Pass.none_held (held : ∀ j < passCalls s.params, (s.inputs.at j).held = []) : ks = [] :=
  (h.keys dir).trans (passKeys_none held)

/-- The lone-key property, which `latched` does not have (R806, R814). -/
theorem State.Pass.lone_held (params : s.params.distinct) (exclusive : s.params.columnDrive = .exclusive) (k : Key)
    (lone : ∀ j < 6, LoneKey (s.inputs.at j) k) : ks = [k] :=
  (h.keys dir).trans (passKeys_lone params exclusive dir lone)

end

/-! ## The debounce loop (R808, R810) -/

theorem afterPass_found {s : State} {k : Key} {ks : List Key} (loop : s.scanning = some k) (found : ks ≠ []) :
    afterPass ks s = s := by
  obtain ⟨x, xs, rfl⟩ := List.exists_cons_of_ne_nil found
  simp only [afterPass, loop]

theorem afterPass_released {s : State} {k : Key} (loop : s.scanning = some k) :
    afterPass [] s = { s with ret := some (.optKey (some k)), busOwner := none, scanning := none } := by
  simp only [afterPass, loop, State.release]

/-- A round of the loop is its delay and a pass from the state the delay leaves. -/
theorem rescan_pass {s : State} (hw : s.params.distinct) (hq : s.inputs.Quiet (1 + passCalls s.params)) :
    ∃ t ks, (s.tick Config.T_DEBOUNCE).Pass t ks ∧ rescan s = afterPass ks t ∧
      Pad s t (1 + passCalls s.params) (passCalls s.params) Config.T_DEBOUNCE := by
  have alone := (hq 0 (by omega)).2
  obtain ⟨w, waits, wait, -⟩ := delayUs_pad alone Config.T_DEBOUNCE
  obtain rfl : s.tick Config.T_DEBOUNCE = w := by rw [delayUs_alone alone] at waits; cases waits; rfl
  obtain ⟨t, ks, pass⟩ := exists_pass (s := s.tick Config.T_DEBOUNCE) hw (wait.inputs ▸ hq.drop 1 le_rfl)
  have round := wait.trans pass.pad
  rw [Nat.zero_add] at round
  refine ⟨t, ks, pass, ?_, round⟩
  rw [rescan, waits, Ran.done_andThen, pass.rawScan]
  rfl

/-- The draws of a round's pass are those after the delay's. -/
theorem tick_inputs_at (s : State) (d k : Nat) : (s.tick d).inputs.at k = s.inputs.at (1 + k) := by
  rw [Nat.add_comm]
  exact Inputs.rest_at _ k

/-- A run is a step and the run after it. -/
theorem run_succ {M : Host.Core} {s u : M.State} (h : M.step s = .next u) (n : Nat) : M.run (n + 1) s = M.run n u := by
  simp only [Host.Core.run, h]

/-- A debounced scan for `k` loops, its pins configured, while the key `held` is held at every draw and every call
completes. -/
structure State.HeldLoop (s : State) (k held : Key) : Prop where
  running : s.Running
  params : s.params.distinct
  dir : s.kpChip.dir = rowsMask s.params
  loop : s.scanning = some k
  unreturned : s.ret = none
  draws : ∀ j, (s.inputs.at j).ok = true ∧ (s.inputs.at j).foreign = none ∧ LoneKey (s.inputs.at j) held

/-- A round finds the held key, so the loop goes on (R810). -/
theorem State.HeldLoop.round {s : State} {k held : Key} (h : s.HeldLoop k held) :
    ∃ t, step s = .next t ∧ t.HeldLoop k held ∧
      Pad s t (1 + passCalls s.params) (passCalls s.params) Config.T_DEBOUNCE := by
  obtain ⟨t, ks, pass, round, pad⟩ := rescan_pass h.params fun j _ => ⟨(h.draws j).1, (h.draws j).2.1⟩
  have found : ks ≠ [] := by
    rw [pass.keys h.dir]
    exact passKeys_lone_ne (s := s.tick Config.T_DEBOUNCE) h.params h.dir fun j _ => by
      rw [tick_inputs_at]; exact (h.draws _).2.2
  have loop := pad.frame.scanning.trans h.loop
  refine ⟨t, ?_, ?_, pad⟩
  · rw [step_scanning h.running (by simp [h.loop]), round, afterPass_found loop found]
  · exact
      { running := ⟨pad.frame.fatal.trans h.running.1, pad.frame.refused.trans h.running.2⟩
        params := pad.frame.params ▸ h.params
        dir := by rw [pass.chip, State.passChip_dir, pad.frame.params]; exact h.dir
        loop := loop
        unreturned := pad.frame.ret.trans h.unreturned
        draws := fun j => by rw [pad.inputs, Inputs.drop_at]; exact h.draws _ }

/-- So the loop goes on for every number of rounds. -/
theorem State.HeldLoop.rounds {s : State} {k held : Key} (h : s.HeldLoop k held) (n : Nat) :
    ∃ t : State, core.run n s = .next t ∧ t.HeldLoop k held ∧
      Pad s t ((1 + passCalls s.params) * n) (passCalls s.params * n) (Config.T_DEBOUNCE * n) := by
  induction n generalizing s with
  | zero => exact ⟨s, rfl, h, .refl s⟩
  | succ n ih =>
    obtain ⟨u, stepped, loop, first⟩ := h.round
    obtain ⟨t, run, loop', rest⟩ := ih loop
    refine ⟨t, ?_, loop', ?_⟩
    · exact (run_succ (M := core) stepped n).trans run
    · rw [first.frame.params] at rest
      simpa only [Nat.mul_succ, Nat.add_comm] using first.trans rest

/-- Settles O53: the loop with a held key is an invariant of the rounds. -/
theorem scanNeverReturnsWhileHeld : Obligations.ScanNeverReturnsWhileHeld := by
  unfold Obligations.ScanNeverReturnsWhileHeld
  intro s k held running params dir loop unreturned draws n
  obtain ⟨t, run, going, pad⟩ :=
    State.HeldLoop.rounds { running := running, params := params, dir := dir, loop, unreturned, draws } n
  exact ⟨t, run, going.loop, going.unreturned, going.running, pad.frame.busOwner, pad.issued, pad.time⟩

/-! ## Phases (R802, R811) -/

/-- Inside `keypad.init` the keypad's pins are configured by one write of M_ROWS to DIR (R408, R802). -/
theorem configureDirection_keypad {s : State} (params : s.params.distinct) (quiet : s.inputs.Quiet 1)
    (held : s.busOwner = some .keypadInit) :
    ∃ t, configureDirection s.params.kpAddr (rowsMask s.params) s = .done () t ∧
      s.Transfers t .kp 1 { s.kpChip with dir := rowsMask s.params } true
        [{ call := .w s.params.kpAddr [s.params.regDir, rowsMask s.params], err := false
           time := s.now + s.inputs.spent 1 }] := by
  obtain ⟨ok, alone⟩ := quiet 0 (by omega)
  have run := configureDirection_alone (chipAt_kp params) alone params (.inr held) (rowsMask s.params)
  exact ⟨_, run.trans (if_pos ok), didWrite_transfers_of_ok .kp .dir _ _ _ ok⟩

/-- An operation that completes under its hold releases the bus (R931). -/
theorem holding_done {α : Type} {op : PublicOp} {body : State → Ran α} {s t : State} {v : α}
    (run : body (s.hold op) = .done v t) : holding op body s = .done v t.release := by
  rw [holding, run, Ran.done_andThen]

/-- Settles O44: under `keypad.init`'s hold the pins are configured, and then `kp_phase` is Ready. -/
theorem keypadInitConfiguresThePins : Obligations.KeypadInitConfiguresThePins := by
  unfold Obligations.KeypadInitConfiguresThePins
  intro s running free params uninit quiet
  obtain ⟨owner, scanning⟩ := free
  obtain ⟨t, run, call⟩ :=
    configureDirection_keypad (s := ({ s with ret := none } : State).hold .keypadInit) params quiet rfl
  have frame := call.kp rfl
  have chip : t.kpChip = { s.kpChip with dir := rowsMask s.params } := call.chip
  have body : keypadInitBody (({ s with ret := none } : State).hold .keypadInit) =
      .done () { t with kpPhase := .ready } := by
    rw [keypadInitBody, run, Ran.done_andThen]
  refine ⟨{ t with kpPhase := .ready, busOwner := none, ret := some .unit }, ?_, ?_, chip, ?_, call.inputs, ?_⟩
  · rw [exec_keypadInit running, unitOp_done ((if_pos uninit).trans (holding_done body))]
    rfl
  · exact
      { params := frame.params ▸ params
        running := ⟨frame.fatal.trans running.1, frame.refused.trans running.2⟩
        free := ⟨rfl, frame.scanning.trans scanning⟩
        phase := rfl
        dir := by rw [chip, frame.params]; rfl }
  · rw [call.now]
    exact call.trace
  · -- No operation held the bus before the call, so releasing it gives BUS_OWNER back (R931).
    have released : ({ s with busOwner := none } : State) = s := by rw [← owner]
    have done :=
      congrArg (fun x : State => { x with kpPhase := .ready, busOwner := none, ret := some .unit }) frame.frame
    refine ⟨?_, frame.mark, frame.ctl⟩
    rw [← released]
    exact done

/-- Settles O45: each operation asks for its phase before anything else. -/
theorem keypadOperationsNeedTheirPhase : Obligations.KeypadOperationsNeedTheirPhase := by
  unfold Obligations.KeypadOperationsNeedTheirPhase
  intro s running
  refine ⟨fun phase => ?_, fun phase i hi => ?_⟩
  · rw [exec_keypadInit running, unitOp_refused (if_neg phase)]
    rfl
  · simp only [List.mem_cons, List.not_mem_nil, or_false] at hi
    rcases hi with rfl | rfl
    · rw [exec_keypadScan running, if_neg phase]
      rfl
    · rw [exec_keypadScanSet running]
      exact congrArg (fun r : Ran RetVal => Host.Outcome.next r.finish) (if_neg phase)

/-! ## Columns and rows (R803 to R805) -/

/-- Settles O46: exclusive is one write, latched a read and a write. -/
theorem driveColumnRaisesTheColumn : Obligations.DriveColumnRaisesTheColumn := by
  unfold Obligations.DriveColumnRaisesTheColumn
  intro s c running params
  have completes : ∀ {t : State} {n : Nat}, driveColumn c { s with ret := none } = .done () t →
      Pad { s with ret := none } t n n 0 →
      exec (.keypadDriveColumn c) s = .next { t with ret := some .unit } ∧
        s.KeypadDone { t with ret := some .unit } .unit n 0 :=
    fun run pad => ⟨by rw [exec_keypadDriveColumn running, unitOp_done run], pad.keypadDone_of_transfers .unit⟩
  refine ⟨fun exclusive quiet => ?_, fun latched quiet => ?_⟩
  · obtain ⟨t, run, pad, chip⟩ := driveColumn_exclusive (s := { s with ret := none }) params exclusive quiet c
    obtain ⟨e, done⟩ := completes run pad
    exact ⟨_, e, done, chip⟩
  · obtain ⟨t, run, pad, chip⟩ := driveColumn_latched (s := { s with ret := none }) params latched quiet c
    obtain ⟨e, done⟩ := completes run pad
    exact ⟨_, e, done, chip⟩

/-- The rows whose bit of PINS is 1: what `read_rows` returns (R804). -/
def State.highRows (s : State) (d : Draw) : List Row := rows.filter fun r => (s.pins d .kp).getLsbD (rowPin s.params r)

/-- A row reads by its level while its pin is an input, and by its OUT bit while it is an output (R103, R805). -/
theorem mem_highRows {s : State} (params : s.params.distinct) (d : Draw) (r : Row) :
    r ∈ s.highRows d ↔ (if s.kpChip.dir.getLsbD (rowPin s.params r) then rowLevel s.params s.kpChip d r
      else s.kpChip.out.getLsbD (rowPin s.params r)) = true := by
  have bit := pins_getLsbD s d .kp (rowPin s.params r)
  rw [State.ext, kpExt_row params s.kpChip d r] at bit
  rw [State.highRows, List.mem_filter, and_iff_right (mem_rows r), bit]
  rfl

/-- Settles O47: the rows are those high in PINS, where an input's bit is its level. -/
theorem readRowsReturnsTheHighRows : Obligations.ReadRowsReturnsTheHighRows := by
  unfold Obligations.ReadRowsReturnsTheHighRows
  intro s running params quiet d
  obtain ⟨t, run, pad, chip⟩ := readRows_pad (s := { s with ret := none }) params quiet
  refine ⟨{ t with ret := some (.rows (s.highRows d)) }, s.highRows d, ?_, pad.keypadDone_of_transfers _, chip,
    fun r => ?_⟩
  · rw [exec_keypadReadRows running, run]
    rfl
  have found := mem_highRows params d r
  obtain ⟨high, low, contention⟩ := rowLevel_spec s.params s.kpChip d r
  refine ⟨fun output => ?_, fun input => ?_⟩
  · rwa [output] at found
  · rw [input, if_pos rfl] at found
    refine ⟨fun h1 h0 => found.2 (high h1 h0), fun h1 => ?_, fun h1 h0 => ?_⟩
    · rw [found, low h1]
      decide
    · rw [found, contention h1 h0]

/-! ## Passes under each column drive (R803, R806) -/

theorem keysSeen_congr {p : Params} {chip chip' : Column → Chip} {draw draw' : Column → Draw}
    (chips : ∀ c, chip c = chip' c) (draws : ∀ c, draw c = draw' c) : keysSeen p chip draw = keysSeen p chip' draw' := by
  rw [funext chips, funext draws]

theorem passChip_exclusive {s : State} (exclusive : s.params.columnDrive = .exclusive) (c : Column) :
    s.passChip c = { s.kpChip with out := pinMask (columnPin s.params c) } := by
  cases c <;> simp [State.passChip, State.drive, State.driven, exclusive]

/-- Settles O48: at each column's read its mask alone is in OUT. -/
theorem rawScanFindsTheLoneKey : Obligations.RawScanFindsTheLoneKey := by
  unfold Obligations.RawScanFindsTheLoneKey
  intro s running params exclusive quiet
  have six : passCalls s.params = 6 := by simp [passCalls, exclusive]
  have two : columnCalls s.params = 2 := by simp [columnCalls, exclusive]
  obtain ⟨t, ks, pass⟩ := exists_pass params (six ▸ quiet)
  refine ⟨_, ks, pass.exec running, six ▸ pass.keypadDone, pass.chip.trans (passChip_exclusive exclusive .c3),
    fun dir => ⟨(pass.keys dir).trans (keysSeen_congr (passChip_exclusive exclusive) fun c => ?_),
      pass.lone_held dir params exclusive, fun held => pass.none_held dir (six ▸ held)⟩⟩
  cases c <;> simp only [State.passDraw, two]

section
variable {s : State} (latched : s.params.columnDrive = .latched)
include latched

theorem driven_latched (c : Column) (d : Draw) : s.driven c d = (s.latchColumn c d).kpChip := by
  simp only [State.driven, latched]

theorem drive_latched (c : Column) (d : Draw) : s.drive c d = s.latchColumn c d := by
  rw [State.drive, driven_latched latched]
  rfl

/-- Each drive of a pass adds its column's bit to what the pins read. -/
theorem passChip_latched :
    let s1 := s.latchColumn .c1 (s.inputs.at 0)
    let s2 := s1.latchColumn .c2 (s.inputs.at 3)
    s.passChip .c1 = s1.kpChip ∧ s.passChip .c2 = s2.kpChip ∧
      s.passChip .c3 = (s2.latchColumn .c3 (s.inputs.at 6)).kpChip := by
  intro s1 s2
  have three : columnCalls s.params = 3 := by simp [columnCalls, latched]
  have drive1 := drive_latched latched .c1 (s.inputs.at 0)
  have drive2 := drive_latched (s := s1) latched .c2 (s.inputs.at 3)
  refine ⟨driven_latched latched _ _, ?_, ?_⟩
  · rw [State.passChip, drive1, three]
    exact driven_latched (s := s1) latched _ _
  · rw [State.passChip, drive1, three, drive2]
    exact driven_latched (s := s2) latched _ _

variable (params : s.params.distinct) (dir : s.kpChip.dir = rowsMask s.params) {x : Column}
  (high : s.kpChip.out.getLsbD (columnPin s.params x) = true)
include params dir high

/-- A column that is high stays so when another is driven: the columns are outputs, so PINS shows their OUT bits (R406). -/
theorem driven_keeps_high (c : Column) (d : Draw) : (s.driven c d).out.getLsbD (columnPin s.params x) = true := by
  have output : (s.chip .kp).dir.getLsbD (columnPin s.params x) = false := by
    rw [State.chip, dir]
    exact rowsMask_column params x
  rw [driven_latched latched, State.latchColumn, BitVec.getLsbD_or, pins_getLsbD, output, State.chip, high]
  rfl

theorem passChip_keeps_high (c : Column) : (s.passChip c).out.getLsbD (columnPin s.params x) = true := by
  have high1 := driven_keeps_high latched params dir high .c1 (s.inputs.at 0)
  have dir1 := (s.driven_dir .c1 (s.inputs.at 0)).trans dir
  have high2 := driven_keeps_high (s := s.drive .c1 (s.inputs.at 0)) latched params dir1 high1 .c2
    (s.inputs.at (columnCalls s.params))
  have dir2 := ((s.drive .c1 (s.inputs.at 0)).driven_dir .c2 (s.inputs.at (columnCalls s.params))).trans dir1
  cases c with
  | c1 => exact high1
  | c2 => exact high2
  | c3 => exact driven_keeps_high (s := (s.drive .c1 _).drive .c2 _) latched params dir2 high2 .c3 _

end

/-- With its column high at every read, a lone key is reported at every column (R814). -/
theorem passKeys_lone_high {s : State} (params : s.params.distinct) (dir : s.kpChip.dir = rowsMask s.params)
    {c : Column} {r : Row} (high : ∀ x, (s.passChip x).out.getLsbD (columnPin s.params c) = true)
    (lone : ∀ j < passCalls s.params, LoneKey (s.inputs.at j) (keyAt c r)) :
    keysSeen s.params s.passChip s.passDraw = [keyAt .c1 r, keyAt .c2 r, keyAt .c3 r] := by
  have loneRead : ∀ x, LoneKey (s.passDraw x) (keyAt c r) := fun x => by
    obtain ⟨j, hj, draw⟩ := s.passDraw_mem x
    rw [draw]
    exact lone j hj
  rw [keysSeen_lone params (fun x => (s.passChip_dir x).trans dir) loneRead, List.filter_eq_self.2 fun x _ => high x]
  rfl

/-- Settles O49: what `passChip_latched` says of the chips at the reads. -/
theorem latchedPassReportsEveryColumn : Obligations.LatchedPassReportsEveryColumn := by
  unfold Obligations.LatchedPassReportsEveryColumn
  intro s running params latched quiet s1 s2 s3
  have nine : passCalls s.params = 9 := by simp [passCalls, latched]
  have three : columnCalls s.params = 3 := by simp [columnCalls, latched]
  obtain ⟨chip1, chip2, chip3⟩ := passChip_latched latched
  obtain ⟨t, ks, pass⟩ := exists_pass params (nine ▸ quiet)
  refine ⟨_, ks, pass.exec running, nine ▸ pass.keypadDone, pass.chip.trans chip3,
    fun dir => ⟨(pass.keys dir).trans (keysSeen_congr (fun c => ?_) fun c => ?_), fun allHigh c r lone => ?_,
      fun held => pass.none_held dir (nine ▸ held)⟩⟩
  · cases c
    exacts [chip1, chip2, chip3]
  · cases c <;> simp only [State.passDraw, three]
  · have high := passChip_keeps_high latched params dir (allHigh c)
    exact (pass.keys dir).trans (passKeys_lone_high params dir high (nine ▸ lone))

/-! ## The scans (R807, R808) -/

/-- Settles O50: the pass runs under `scan_set`'s hold, which is then released. -/
theorem scanSetIsOnePass : Obligations.ScanSetIsOnePass := by
  unfold Obligations.ScanSetIsOnePass
  intro s ready quiet
  obtain ⟨owner, -⟩ := ready.free
  obtain ⟨t, ks, pass⟩ := exists_pass ready.params quiet
  refine ⟨_, ks, pass.exec ready.running, pass.keypadDone, ?_, pass.none_held ready.dir,
    pass.lone_held ready.dir ready.params⟩
  have body : scanSetBody (({ s with ret := none } : State).hold .keypadScanSet) =
      .done (.optKeySet (if ks = [] then none else some ks)) (t.marked (some .keypadScanSet) s.scanning none) :=
    congrArg (Ran.andThen · _) (pass.run (some .keypadScanSet) s.scanning none)
  rw [exec_keypadScanSet ready.running, owner]
  exact congrArg (fun r : Ran RetVal => Host.Outcome.next r.finish) ((if_pos ready.phase).trans (holding_done body))

/-- From a ready scanner `scan` is a pass under its hold, and what follows from it. -/
theorem State.Pass.exec_keypadScan {s t : State} {ks : List Key} (h : s.Pass t ks) (ready : s.KeypadReady) :
    Machine.exec .keypadScan s = .next (afterPass ks (t.marked (some .keypadScan) none none)) := by
  rw [Machine.exec_keypadScan ready.running, if_pos ready.phase]
  exact congrArg (fun r => Host.Outcome.next (passState r)) (h.run (some .keypadScan) none none)

/-- Settles O51: the first pass finds no key or begins the loop. -/
theorem scanStartsTheDebounceLoop : Obligations.ScanStartsTheDebounceLoop := by
  unfold Obligations.ScanStartsTheDebounceLoop
  intro s ready quiet
  obtain ⟨owner, scanning⟩ := ready.free
  obtain ⟨t, ks, pass⟩ := exists_pass ready.params quiet
  have scan := pass.exec_keypadScan ready
  refine ⟨_, ks, pass.exec ready.running, pass.keypadDone, ?_, ?_, pass.none_held ready.dir,
    pass.lone_held ready.dir ready.params⟩
  · rintro rfl
    rw [scan, owner, scanning]
    rfl
  · rintro k rest rfl
    exact scan

/-- Settles O52: the round's pass goes on from the state its delay leaves. -/
theorem scanReturnsTheFirstKeyAtRelease : Obligations.ScanReturnsTheFirstKeyAtRelease := by
  unfold Obligations.ScanReturnsTheFirstKeyAtRelease
  intro s k running params loop quiet
  obtain ⟨t, ks, pass, round, pad⟩ := rescan_pass params quiet
  have waited := pass.marked s.busOwner s.scanning (some .unit)
  have stepped : step s = .next (afterPass ks t) := by rw [step_scanning running (by simp [loop]), round]
  have loop' := pad.frame.scanning.trans loop
  refine ⟨_, _, ks, exec_delay_alone running (quiet 0 (by omega)).2 .us 250, waited.exec running, ?_,
    (pad.marked s.busOwner s.scanning none).keypadDone (.keys ks), ?_, ?_, fun dir held => ?_⟩
  · exact (Nat.le_add_right _ _).trans (State.tick_spent 250 s).ge
  · rintro rfl
    rw [stepped, afterPass_released loop']
    rfl
  · intro found
    rw [stepped, afterPass_found loop' found, ← pad.frame.marked_self]
    rfl
  · refine pass.none_held dir fun j hj => ?_
    rw [tick_inputs_at]
    exact held _ (Nat.add_lt_add_left hj 1)

end Sys2Proof.Machine

/-! One step of the machine, case by case (R900, R901, R910, R921, R930), and the steps that run no operation. -/

namespace Sys2Proof.Machine

open Sys2Proof

/-! ## The steps of a running Main (R930) -/

section
variable {s : State} (running : s.Running)
include running

theorem step_idle (between : s.scanning = none) (none_left : s.calls = []) : step s = .next (idleStep s) := by
  obtain ⟨fatal, refused⟩ := running
  simp [step, State.fetch, fatal, refused, between, none_left]

theorem step_call {r : Request} {rest : List Request} {i : Instr} (between : s.scanning = none)
    (next : s.calls = r :: rest) (decoded : decode r = .ok i) : step s = exec i { s with calls := rest } := by
  obtain ⟨fatal, refused⟩ := running
  simp [step, State.fetch, fatal, refused, between, next, decoded]

theorem step_undecodable {r : Request} {rest : List Request} {e : DecodeError} (between : s.scanning = none)
    (next : s.calls = r :: rest) (refusal : decode r = .error e) : step s = .refused (.undecodable e) := by
  obtain ⟨fatal, refused⟩ := running
  simp [step, State.fetch, fatal, refused, between, next, refusal]

/-- What a step of a running Main that goes on is: a round of a debounced scan, an idle step, or a call. -/
theorem step_running_cases {t : State} (e : step s = .next t) :
    (s.scanning ≠ none ∧ t = rescan s) ∨ (s.scanning = none ∧ t = idleStep s) ∨
    ∃ r rest i, s.scanning = none ∧ s.calls = r :: rest ∧ decode r = .ok i ∧
      exec i { s with calls := rest } = .next t := by
  by_cases between : s.scanning = none
  · cases next : s.calls with
    | nil =>
      rw [step_idle running between next] at e
      cases e
      exact .inr (.inl ⟨between, rfl⟩)
    | cons r rest =>
      cases decoded : decode r with
      | error err =>
        rw [step_undecodable running between next decoded] at e
        cases e
      | ok i =>
        rw [step_call running between next decoded] at e
        exact .inr (.inr ⟨r, rest, i, between, rfl, decoded, e⟩)
  · rw [step_scanning running between] at e
    cases e
    exact .inl ⟨between, rfl⟩

end

/-! ## The steps after a stop (R901, R910) -/

section
variable {s : State}

theorem step_refused (refused : s.refused = true) : step s = .refused (.runRefused s.refusedReason) := by
  simp [step, refused]

variable {code : FaultCode} (refused : s.refused = false) (fatal : s.fatal = some code)
include refused fatal

theorem step_fatal : step s = panicStep code s := by simp [step, refused, fatal]

theorem step_restart (panic : s.params.panic = .reset) : step s = .next s.restart := by
  rw [step_fatal refused fatal, panicStep, panic]

theorem step_halted (panic : s.params.panic = .halt) (beat : (s.inputs.at 0).beat = none) :
    step s = .fault (.halted code) := by
  rw [step_fatal refused fatal, panicStep, panic, beat]

theorem step_heartbeat (panic : s.params.panic = .halt) {e : Nat} (beat : (s.inputs.at 0).beat = some e) :
    step s = .next s.heartbeat := by
  rw [step_fatal refused fatal, panicStep, panic, beat]

/-- A step after a fatal condition that goes on is the restart or the heartbeat. -/
theorem step_fatal_cases {t : State} (e : step s = .next t) : t = s.restart ∨ t = s.heartbeat := by
  cases panic : s.params.panic with
  | reset =>
    rw [step_restart refused fatal panic] at e
    cases e
    exact .inl rfl
  | halt =>
    cases beat : (s.inputs.at 0).beat with
    | none =>
      rw [step_halted refused fatal panic beat] at e
      cases e
    | some d =>
      rw [step_heartbeat refused fatal panic beat] at e
      cases e
      exact .inr rfl

end

/-- A step that goes on is the step of a running Main, or follows a fatal condition. -/
theorem step_next_cases {s t : State} (e : step s = .next t) :
    s.Running ∨ s.stopped = true ∧ (t = s.restart ∨ t = s.heartbeat) := by
  cases refused : s.refused with
  | true =>
    rw [step_refused refused] at e
    cases e
  | false =>
    cases fatal : s.fatal with
    | none => exact .inl ⟨fatal, refused⟩
    | some code => exact .inr ⟨by simp [State.stopped, fatal], step_fatal_cases refused fatal e⟩

/-! ## Time that passes without an operation (R921) -/

/-- The heartbeat leaves a defined controller as it was. -/
theorem State.heartbeat_defined {s : State} (defined : s.ctl.undefined = false) :
    s.heartbeat = { s with now := s.now + (s.inputs.at 0).beat.getD 0, inputs := s.inputs.rest } := by
  rw [State.heartbeat, Controller.settle_defined defined]

theorem idleStep_alone {s : State} (alone : (s.inputs.at 0).foreign = none) : idleStep s = s.heartbeat := by
  rw [idleStep, alone]

/-- Settles O54: each of these steps is the heartbeat, the restart, or no step at all. -/
theorem stepsThatRunNoOperation : Obligations.StepsThatRunNoOperation := by
  unfold Obligations.StepsThatRunNoOperation
  refine fun s => ⟨fun code refused fatal => ⟨step_halted refused fatal, fun halt defined e beat => ?_,
    step_restart refused fatal⟩, step_refused, fun running between none_left defined alone => ?_⟩
  · rw [step_heartbeat refused fatal halt beat, State.heartbeat_defined defined, beat, Option.getD_some]
  · rw [step_idle running between none_left, idleStep_alone alone, State.heartbeat_defined defined]

/-! ## The call a step runs (R930) -/

theorem decode_of_decodeTableWord {nbits w : Nat} {i : Instr} (h : decodeTableWord nbits w = some i) :
    decode (tableRequest nbits w) = .ok i := by
  unfold decodeTableWord at h
  split at h
  next decoded => rw [decoded, Option.some.inj h]
  next => cases h

/-- Settles O1: the next call is the one at the head of the list, where a placed word stands alone. -/
theorem stepRunsTheDecodedCall : Obligations.StepRunsTheDecodedCall := by
  unfold Obligations.StepRunsTheDecodedCall
  refine ⟨fun s r rest i running => step_call running, fun s nbits w i running between decoded => ?_⟩
  exact step_call (s := s.withFetchWord nbits w) running between rfl (decode_of_decodeTableWord decoded)

end Sys2Proof.Machine

/-! A second bus user inside a hold, or between the halves of a read-modify-write, raises F_RACE (R413, R913, R931). -/

namespace Sys2Proof.Machine

open Sys2Proof

/-! ## A call inside a hold -/

/-- A second bus user's call `f` falls just before primitive `k` of the next `n`, and those before it are quiet. -/
structure Intruded (i : Inputs) (n k : Nat) (f : ForeignCall) : Prop where
  within : k < n
  quiet : i.Quiet k
  call : (i.at k).foreign = some f

/-- The call `f` before primitive `k` of the inputs `i`, while `op` held the bus, has led to `t`: F_RACE names both, the
bus stays held, and the draw is used up (R913, R931; log entry 22). -/
def RacedTo (i : Inputs) (op : PublicOp) (k : Nat) (f : ForeignCall) (t : State) : Prop :=
  t.fatal = some .race ∧ t.fatalInfo = some (.race (some op) f) ∧ t.busOwner = some op ∧ t.inputs = i.drop (k + 1)

section
variable {s : State} {op : PublicOp} {n k : Nat} {f : ForeignCall} {P : State → Prop}

theorem Counted.raced {α : Type} {r : Ran α} (counted : Counted op s n r) (h : Intruded s.inputs n k f) :
    ∃ t, r = .stopped t ∧ RacedTo s.inputs op k f t :=
  counted.2 k f h.within h.quiet h.call

/-- A body of `n` primitives that stops under its hold stops the operation there: the bus is not released. -/
theorem holding_raced {α : Type} {body : State → Ran α}
    (counted : Counted op (s.entered (some op)) n (body (s.entered (some op)))) (h : Intruded s.inputs n k f) :
    ∃ t, holding op body { s with ret := none } = .stopped t ∧ RacedTo s.inputs op k f t := by
  obtain ⟨t, run, raced⟩ := counted.raced (s := s.entered (some op)) h
  have held : body (({ s with ret := none } : State).hold op) = .stopped t := run
  exact ⟨t, by rw [holding, held, Ran.stopped_andThen], raced⟩

theorem unitOp_stopped {body : State → Ran Unit} (stop : ∃ t, body s = .stopped t ∧ P t) :
    ∃ t, unitOp body s = .stopped t ∧ P t := by
  obtain ⟨t, run, ht⟩ := stop
  exact ⟨t, by rw [unitOp, run, Ran.stopped_andThen], ht⟩

theorem complete_stopped (running : s.Running) {body : State → Ran RetVal}
    (stop : ∃ t, body { s with ret := none } = .stopped t ∧ P t) : ∃ t, complete body s = .next t ∧ P t := by
  obtain ⟨t, run, ht⟩ := stop
  exact ⟨t, by rw [complete_running running, run, Ran.finish_stopped], ht⟩

/-- A stop in a scan's pass ends the pass (R808). -/
theorem passState_stopped {r : Ran (List Key)} (stop : ∃ t, r = .stopped t ∧ P t) : P (passState r) := by
  obtain ⟨t, rfl, ht⟩ := stop
  exact ht

/-- A number's digits, each a byte (R740, R741). -/
theorem counted_number (owner : s.busOwner = some op) (v digits : Nat) :
    Counted op s (22 * digits) (writeDigits (decimalDigits v digits) s) :=
  (counted_writeDigits owner (decimalDigits_lt v digits)).of_eq (by rw [decimalDigits_length])

variable (running : s.Running)
include running

/-- A public LCD operation whose body makes `n` primitives under its hold. -/
theorem lcdOp_raced (phase : s.lcdPhase = .ready) {body : State → Ran Unit}
    (counted : Counted op (s.entered (some op)) n (body (s.entered (some op)))) (h : Intruded s.inputs n k f) :
    ∃ t, lcdOp op body s = .next t ∧ RacedTo s.inputs op k f t := by
  have legal : whenLcdReady (holding op body) { s with ret := none } = holding op body { s with ret := none } :=
    if_pos phase
  exact complete_stopped running (unitOp_stopped (legal ▸ holding_raced counted h))

theorem lcdInit_raced (params : s.params.distinct) (phase : s.lcdPhase = .unpowered) (h : Intruded s.inputs 79 k f) :
    ∃ t, exec .lcdInit s = .next t ∧ RacedTo s.inputs .lcdInit k f t := by
  have body := holding_raced (counted_lcdInit (s := s.entered (some .lcdInit)) rfl params) h
  exact complete_stopped running (unitOp_stopped (by rwa [if_pos phase]))

theorem keypadInit_raced (params : s.params.distinct) (phase : s.kpPhase = .uninit) (h : Intruded s.inputs 1 k f) :
    ∃ t, exec .keypadInit s = .next t ∧ RacedTo s.inputs .keypadInit k f t := by
  have body := holding_raced (body := keypadInitBody) ((counted_configureDirection
    (s := s.entered (some .keypadInit)) rfl (.inr rfl) params (chipAt_kp params) _).andThen (n := 0)
    fun _ _ owner _ => .done _ rfl owner rfl) h
  exact complete_stopped running (unitOp_stopped (by rwa [if_pos phase]))

theorem keypadScanSet_raced (params : s.params.distinct) (phase : s.kpPhase = .ready)
    (h : Intruded s.inputs (passCalls s.params) k f) :
    ∃ t, exec .keypadScanSet s = .next t ∧ RacedTo s.inputs .keypadScanSet k f t := by
  obtain ⟨t, run, raced⟩ := holding_raced (body := scanSetBody) ((counted_rawScan
    (s := s.entered (some .keypadScanSet)) rfl params).andThen (n := 0) fun _ _ owner _ => .done _ rfl owner rfl) h
  refine ⟨t, ?_, raced⟩
  rw [exec_keypadScanSet running]
  exact congrArg (fun r => Host.Outcome.next (Ran.finish r)) ((if_pos phase).trans run)

/-- The first pass of a scan, under its hold (R808, R931). -/
theorem keypadScan_raced (params : s.params.distinct) (phase : s.kpPhase = .ready)
    (h : Intruded s.inputs (passCalls s.params) k f) :
    ∃ t, exec .keypadScan s = .next t ∧ RacedTo s.inputs .keypadScan k f t := by
  rw [exec_keypadScan running, if_pos phase]
  exact ⟨_, rfl, passState_stopped ((counted_rawScan (s := State.hold .keypadScan
    { s with ret := none, scanning := none }) rfl params).raced h)⟩

/-- A public operation races with any call before one of its primitives. -/
theorem State.PublicCall.raced (params : s.params.distinct) {i : Instr} (call : s.PublicCall i op n)
    (h : Intruded s.inputs n k f) : ∃ t, exec i s = .next t ∧ RacedTo s.inputs op k f t := by
  cases call with
  | lcdInit phase => exact lcdInit_raced running params phase h
  | powerOn phase => exact lcdOp_raced running phase (counted_sendByte rfl _ _) h
  | powerOff phase => exact lcdOp_raced running phase (counted_sendByte rfl _ _) h
  | greeting phase valid =>
    refine lcdOp_raced running phase ((counted_clearDisplay rfl).andThen fun _ t owner same => ?_) h
    have same : t.params = s.params := same
    rw [same]
    exact counted_writeString owner valid
  | writeString phase valid => exact lcdOp_raced running phase (counted_writeString rfl valid) h
  | writeU32 phase => exact lcdOp_raced running phase (counted_number rfl _ 5) h
  | writeU8 phase => exact lcdOp_raced running phase (counted_number rfl _ 3) h
  | backspace phase =>
    refine lcdOp_raced running phase (counted_repeat (n := 22 + (22 + 22)) (fun t owner => ?_) rfl _) h
    exact (counted_sendByte owner _ _).andThen fun _ _ owner _ => (counted_sendByte owner _ _).andThen
      fun _ _ owner _ => counted_sendByte owner _ _
  | clearDisplay phase => exact lcdOp_raced running phase (counted_clearDisplay rfl) h
  | shiftCursor phase =>
    exact lcdOp_raced running phase (counted_repeat (fun t owner => counted_sendByte owner _ _) rfl _) h
  | keypadInit phase => exact keypadInit_raced running params phase h
  | scan phase => exact keypadScan_raced running params phase h
  | scanSet phase => exact keypadScanSet_raced running params phase h

end

/-- A round of a debounced scan is a delay and a pass under the scan's hold (R808). -/
theorem rescan_raced {s : State} {k : Nat} {f : ForeignCall} (params : s.params.distinct)
    (owner : s.busOwner = some .keypadScan) (h : Intruded s.inputs (1 + passCalls s.params) k f) :
    RacedTo s.inputs .keypadScan k f (rescan s) := by
  refine passState_stopped (Counted.raced (n := 1 + passCalls s.params) ?_ h)
  refine (counted_delayUs owner _).andThen fun _ t owner same => ?_
  rw [← same]
  exact counted_rawScan owner (same ▸ params)

/-! ## A write between the halves of a read-modify-write -/

/-- The second half stops before its write, with the foreign value in the latch (R913). -/
theorem regWrite_broken {s : State} {a : BusAddr} {c : ChipId} {v : Byte} (chip : chipAt s.params a = some c)
    (write : (s.inputs.at 0).foreign = some (.write a s.params.regGpio v)) (w : Byte) :
    regWrite (chipAt s.params a) a w s = fatal .race (.race s.busOwner (.write a s.params.regGpio v))
      (s.chipWrite c .gpio v (s.inputs.at 0)).dropDraw := by
  simp [regWrite, busWriteCall, primitive, chip, write, breaksRmw, fatal, State.foreignCall]

theorem readModifyWrite_broken {s : State} {a : BusAddr} {c : ChipId} {v : Byte} (free : s.busOwner = none)
    (chip : chipAt s.params a = some c) (quiet : s.inputs.Quiet 1)
    (write : (s.inputs.at 1).foreign = some (.write a s.params.regGpio v)) (f : Byte → Byte) :
    readModifyWrite a f s = fatal .race (.race none (.write a s.params.regGpio v))
      ((s.didRead a (s.pins (s.inputs.at 0) c)).chipWrite c .gpio v (s.inputs.at 1)).dropDraw := by
  obtain ⟨ok, alone⟩ := quiet 0 (by omega)
  have broken := regWrite_broken (s := s.didRead a (s.pins (s.inputs.at 0) c)) chip (by rwa [didRead_at])
    (f (s.pins (s.inputs.at 0) c))
  rw [didRead_at] at broken
  rw [readModifyWrite, regRead_done chip alone ok, Ran.done_andThen, broken, ← free]
  rfl

/-! ## Main alone on the bus -/

/-- From `s` to `t`, while Main is alone on the bus, it stays so and raises no F_RACE; the parameters stay in any
case. -/
structure RaceFree (s t : State) : Prop where
  params : t.params = s.params
  alone : s.inputs.Alone → t.inputs.Alone ∧ (t.fatal = some .race → s.fatal = some .race)

section
variable {s t u : State}

theorem RaceFree.trans (h1 : RaceFree s t) (h2 : RaceFree t u) : RaceFree s u where
  params := h2.params.trans h1.params
  alone ha := by
    obtain ⟨hat, ht⟩ := h1.alone ha
    obtain ⟨hau, hu⟩ := h2.alone hat
    exact ⟨hau, ht ∘ hu⟩

/-- An update that uses up no draw and raises no F_RACE. -/
theorem RaceFree.of_same (params : t.params = s.params) (inputs : t.inputs = s.inputs)
    (fatal : t.fatal = some .race → s.fatal = some .race) : RaceFree s t :=
  ⟨params, fun ha => ⟨inputs ▸ ha, fatal⟩⟩

/-- A primitive uses up its draw. -/
theorem RaceFree.of_rest (params : t.params = s.params) (inputs : t.inputs = s.inputs.rest)
    (fatal : t.fatal = some .race → s.fatal = some .race) : RaceFree s t :=
  ⟨params, fun ha => ⟨inputs ▸ ha.rest, fatal⟩⟩

/-- Alone on the bus, Main meets no foreign call. -/
theorem RaceFree.of_foreign {f : ForeignCall} (call : (s.inputs.at 0).foreign = some f)
    (params : t.params = s.params) : RaceFree s t :=
  ⟨params, fun ha => by rw [ha.at 0] at call; cases call⟩

end

theorem raceFree_closedStep : ClosedStep RaceFree where
  refl _ := .of_same rfl rfl id
  trans := RaceFree.trans
  transS := RaceFree.trans
  params h := h.params
  delay _ _ := .of_rest rfl rfl id
  foreign _ _ call := .of_foreign call (by simp)
  race _ _ _ call := .of_foreign call (by simp)
  wrote _ _ _ _ _ _ := .of_rest (by simp) (by simp) (by simp [State.tick])
  writeFailed _ _ _ := .of_rest rfl rfl nofun
  writeTook _ _ _ _ _ _ _ := .of_rest (by simp) (by simp) nofun
  didRead _ _ := .of_rest rfl rfl id
  readFailed _ _ _ := .of_rest rfl rfl nofun
  newlines _ _ := .of_same rfl rfl nofun
  lineLen _ _ := .of_same rfl rfl nofun
  refused _ _ := .of_same rfl rfl id
  raw _ _ _ := .of_rest rfl rfl id
  rawWrote _ _ _ _ _ _ := .of_rest (by simp) (by simp) (by simp [State.tick])
  marks _ _ _ _ := .of_same rfl rfl id
  command _ _ := .of_same rfl rfl id
  lcdPhase _ _ := .of_same rfl rfl id
  kpPhase _ _ := .of_same rfl rfl id
  calls _ _ := .of_same rfl rfl id
  beat _ := .of_rest rfl rfl id
  restart _ := .of_same rfl rfl nofun

/-- A bit operation broken between its halves: F_RACE names no holder, the foreign value is in the latch, and TRACE
shows the read alone (R913). -/
theorem exec_broken {s : State} {a : BusAddr} {c : ChipId} {v : Byte} {i : Instr} {f : Byte → Byte}
    (run : exec i s = .next (unitOp (readModifyWrite a f) { s with ret := none }).finish) (free : s.busOwner = none)
    (chip : chipAt s.params a = some c) (quiet : s.inputs.Quiet 1)
    (write : (s.inputs.at 1).foreign = some (.write a s.params.regGpio v)) :
    ∃ t, exec i s = .next t ∧ t.fatal = some .race ∧
      t.fatalInfo = some (.race none (.write a s.params.regGpio v)) ∧ t.chip c = { s.chip c with out := v } ∧
      t.trace = s.trace ++ [{ call := .wr a [s.params.regGpio] [s.pins (s.inputs.at 0) c], err := false
                              time := s.now + s.inputs.spent 1 }] := by
  let u : State := { s with ret := none }
  have broken := readModifyWrite_broken (s := u) free chip quiet write f
  have read := didRead_transfers u c a (u.pins (s.inputs.at 0) c)
  have calls := read.trans (chipWrite_transfers _ c .gpio v (s.inputs.at 1))
  rw [run, unitOp_fatal broken]
  refine ⟨_, rfl, rfl, rfl, ?_, ?_⟩
  · exact calls.chip.trans (congrArg (·.set .gpio v) read.chip)
  · have ok : (u.inputs.at 0).ok = true := (quiet 0 (by omega)).1
    have trace := calls.trace
    rw [State.entry, ok] at trace
    exact trace

/-- Settles O58: a call inside a hold stops the operation at the primitive it falls before, a write between two halves
stops the second, and alone on the bus no primitive meets such a call. -/
theorem racesAreFaults : Obligations.RacesAreFaults := by
  unfold Obligations.RacesAreFaults
  refine ⟨fun s i op n k f running _ params call within quiet foreign => ?_,
    fun s key k f running params loop owner within quiet foreign => ?_,
    fun s a c m v running free chip quiet write i hi => ?_, fun s t alone e => ?_⟩
  · exact call.raced running params ⟨within, quiet, foreign⟩
  · exact ⟨_, step_scanning running (by simp [loop]), rescan_raced params owner ⟨within, quiet, foreign⟩⟩
  · simp only [List.mem_cons, List.not_mem_nil, or_false] at hi
    rcases hi with rfl | rfl
    · exact exec_broken (exec_setBits_readModifyWrite running a m) free chip quiet write
    · exact exec_broken (exec_clearBits_readModifyWrite running a m) free chip quiet write
  · exact ((step_closed raceFree_closedStep e).alone alone).2

end Sys2Proof.Machine

/-! Bus faults are precise (R902, R904, R907): of the transport calls a step makes only the last can fail, and it is the
fault. -/

namespace Sys2Proof.Machine

open Sys2Proof

/-! ## What the calls of an operation leave in TRACE and FATAL -/

/-- From `s` to `t` transport calls were made, and every one completed. -/
def State.CallsCompleted (s t : State) : Prop := ∃ new, t.trace = s.trace ++ new ∧ ∀ e ∈ new, e.err = false

/-- What is done of an operation: its calls completed, and it raised no fault. -/
structure State.WentWell (s t : State) : Prop where
  params : t.params = s.params
  calls : s.CallsCompleted t
  fatal : t.fatal = s.fatal

/-- How a step's calls went: all completed and none raised F_BUS, or the last failed, which is F_BUS unless it is a
`bare` transport call (R902; log entry 18). -/
inductive State.Precise (bare : Prop) (s t : State) : Prop where
  | completed (calls : s.CallsCompleted t) (fatal : t.fatal = some .bus → s.fatal = some .bus)
  | failed {u : State} {e : TraceEntry} (calls : s.CallsCompleted u) (last : t.trace = u.trace ++ [e])
      (err : e.err = true) (fatal : t.fatal = some .bus ∨ bare)

section
variable {s t u : State} {bare : Prop}

theorem State.CallsCompleted.of_same (trace : t.trace = s.trace) : s.CallsCompleted t :=
  ⟨[], by rw [trace, List.append_nil], nofun⟩

theorem State.CallsCompleted.trans (h1 : s.CallsCompleted t) (h2 : t.CallsCompleted u) : s.CallsCompleted u := by
  obtain ⟨new, trace, ok⟩ := h1
  obtain ⟨new', trace', ok'⟩ := h2
  refine ⟨new ++ new', by rw [trace', trace, List.append_assoc], fun e he => ?_⟩
  rcases List.mem_append.1 he with he | he
  · exact ok e he
  · exact ok' e he

theorem State.CallsCompleted.of_call {e : TraceEntry} (trace : t.trace = s.trace ++ [e]) (ok : e.err = false) :
    s.CallsCompleted t :=
  ⟨[e], trace, by simpa using ok⟩

/-- An update that leaves TRACE and FATAL. -/
theorem State.WentWell.of_same (params : t.params = s.params) (trace : t.trace = s.trace) (fatal : t.fatal = s.fatal) :
    s.WentWell t :=
  ⟨params, .of_same trace, fatal⟩

theorem State.WentWell.trans (h1 : s.WentWell t) (h2 : t.WentWell u) : s.WentWell u :=
  ⟨h2.params.trans h1.params, h1.calls.trans h2.calls, h2.fatal.trans h1.fatal⟩

theorem State.WentWell.precise (h : s.WentWell t) : s.Precise bare t :=
  .completed h.calls fun bus => h.fatal ▸ bus

/-- A stop without F_BUS that adds nothing to TRACE. -/
theorem State.Precise.of_same (trace : t.trace = s.trace) (fatal : t.fatal = some .bus → s.fatal = some .bus) :
    s.Precise bare t :=
  .completed (.of_same trace) fatal

/-- A call that failed. -/
theorem State.Precise.of_failed {e : TraceEntry} (trace : t.trace = s.trace ++ [e]) (err : e.err = true)
    (fatal : t.fatal = some .bus ∨ bare) : s.Precise bare t :=
  .failed (.of_same rfl) trace err fatal

/-- What went well before the calls keeps them precise. -/
theorem State.WentWell.transPrecise (h1 : s.WentWell t) (h2 : t.Precise bare u) : s.Precise bare u := by
  cases h2 with
  | completed calls fatal => exact .completed (h1.calls.trans calls) fun bus => h1.fatal ▸ fatal bus
  | failed calls last err fatal => exact .failed (h1.calls.trans calls) last err fatal

/-- Only TRACE and FATAL of the state left matter. -/
theorem State.Precise.congr (h : s.Precise bare t) (trace : u.trace = t.trace) (fatal : u.fatal = t.fatal) :
    s.Precise bare u := by
  cases h with
  | completed calls h => exact .completed (calls.trans (.of_same trace)) (fatal ▸ h)
  | failed calls last err h => exact .failed calls (trace.trans last) err (fatal ▸ h)

/-- One call, completed or failed, that raises nothing. -/
theorem State.Precise.of_bareCall {e : TraceEntry} (trace : t.trace = s.trace ++ [e]) (fatal : t.fatal = s.fatal) :
    s.Precise True t := by
  cases err : e.err with
  | false => exact .completed (.of_call trace err) fun bus => fatal ▸ bus
  | true => exact .of_failed trace err (.inr trivial)

theorem State.Precise.weaken {bare' : Prop} (h : s.Precise bare t) (imp : bare → bare') : s.Precise bare' t := by
  cases h with
  | completed calls fatal => exact .completed calls fatal
  | failed calls last err fatal => exact .failed calls last err (fatal.imp_right imp)

end

/-! ## Every operation is precise -/

theorem closed_precise {bare : Prop} : Closed (fun _ => True) State.WentWell (State.Precise bare) where
  refl _ := .of_same rfl rfl rfl
  trans := State.WentWell.trans
  transS := State.WentWell.transPrecise
  params h := h.params
  delay _ _ := .of_same rfl rfl rfl
  foreign _ _ _ := .of_same (by simp) (by simp) (by simp)
  race _ _ _ _ := .of_same (by simp) nofun
  wrote _ _ _ _ _ _ := ⟨by simp, .of_call (State.chipWrite_trace ..) rfl, by simp⟩
  writeFailed _ _ _ := .of_failed rfl rfl (.inl rfl)
  writeTook _ _ _ _ _ _ _ := .of_failed (State.chipWrite_trace ..) rfl (.inl rfl)
  didRead _ _ := ⟨rfl, .of_call rfl rfl, rfl⟩
  readFailed _ _ _ := .of_failed rfl rfl (.inl rfl)
  newlines _ _ := .of_same rfl nofun
  lineLen _ _ := .of_same rfl nofun
  refused _ _ := .of_same rfl id

theorem afterPass_wentWell (ks : List Key) (s : State) : s.WentWell (afterPass ks s) := by
  unfold afterPass
  split <;> exact .of_same rfl rfl rfl

/-- Main's marks are no part of how the calls went. -/
theorem wentWell_marked (s : State) (o : Option PublicOp) (m : Option Key) (x : Option RetVal) :
    s.WentWell (s.marked o m x) :=
  .of_same rfl rfl rfl

theorem closedExec_precise {bare : Prop} :
    ClosedExec (fun _ => True) State.WentWell (State.Precise bare) (State.Precise bare) where
  toClosed := closed_precise
  clear _ := .of_same rfl rfl rfl
  ret _ _ := .of_same rfl rfl rfl
  held _ h := ⟨h.params, h.calls, h.fatal⟩
  heldStop {s _} op h := (wentWell_marked s (some op) s.scanning s.ret).transPrecise h
  done h := h.precise
  stop h := h
  scanned {s t} ks h :=
    (wentWell_marked s (some .keypadScan) none none).transPrecise (h.trans (afterPass_wentWell ks t)).precise
  scanStopped {s _} h := (wentWell_marked s (some .keypadScan) none none).transPrecise h

theorem rescan_precise (s : State) : s.Precise False (rescan s) :=
  closed_precise.rescan (fun _ _ => trivial) (fun ks _ h => (h.trans (afterPass_wentWell ks _)).precise) fun _ h => h

/-! ## The bare transport calls (log entry 18) -/

/-- A primitive stops in a race, or acts after what went well: the call before it. -/
theorem primitive_precise {α : Type} {bare : Prop} (act : Draw → State → Ran α) (s : State)
    (acts : ∀ u : State, u.Precise bare (act (s.inputs.at 0) (u.tick 0)).state) :
    s.Precise bare (primitive none 0 act s).state := by
  unfold primitive
  dsimp only
  split
  · exact acts s
  · next f call =>
    split
    · exact closed_precise.race s f _ call
    · exact (closed_precise (bare := bare).foreign s f call).transPrecise (acts _)

theorem busWriteCall_precise (a : BusAddr) (reg v : Byte) (s : State) :
    s.Precise True (busWriteCall none a reg v s).state := by
  unfold busWriteCall
  split
  · refine primitive_precise _ s fun u => ?_
    dsimp only [Ran.done_state]
    split
    · exact .of_bareCall (State.chipWrite_trace ..) (State.chipWrite_fatal ..)
    · exact .of_bareCall rfl rfl
  · exact closed_precise.refused s _

theorem busReadCall_precise (a : BusAddr) (reg : Byte) (s : State) :
    s.Precise True (busReadCall a reg s).state := by
  unfold busReadCall
  split
  · exact primitive_precise _ s fun u => .of_bareCall rfl rfl
  · exact closed_precise.refused s _

/-- The value returned is no part of how the calls went. -/
theorem State.Precise.finish {α : Type} {bare : Prop} {s : State} {r : Ran α} (h : s.Precise bare r.state)
    (value : α → RetVal) : s.Precise bare (r.andThen fun v t => .done (value v) t).finish := by
  cases r <;> exact h.congr rfl rfl

/-! ## Every instruction and every step -/

/-- A bare transport call: the check of its Result is the caller's (R400, R401, R902; log entry 18). -/
def BareCall (i : Instr) : Prop := (∃ a reg v, i = .busWrite a reg v) ∨ ∃ a reg, i = .busWriteRead a reg

theorem exec_bare_precise {s t : State} {i : Instr} (running : s.Running) (bare : BareCall i)
    (e : exec i s = .next t) : s.Precise (BareCall i) t := by
  have cleared : s.WentWell { s with ret := none } := .of_same rfl rfl rfl
  rcases bare with ⟨a, reg, v, rfl⟩ | ⟨a, reg, rfl⟩
  · rw [exec_busWrite running] at e
    cases e
    have call := (busWriteCall_precise a reg v { s with ret := none }).finish .transport
    exact cleared.transPrecise (call.weaken fun _ => .inl ⟨_, _, _, rfl⟩)
  · rw [exec_busWriteRead running] at e
    cases e
    have call := (busReadCall_precise a reg { s with ret := none }).finish .transportRead
    exact cleared.transPrecise (call.weaken fun _ => .inr ⟨_, _, rfl⟩)

theorem exec_precise {s t : State} {i : Instr} (running : s.Running) (e : exec i s = .next t) :
    s.Precise (BareCall i) t :=
  exec_closed closedExec_precise (fun bare => exec_bare_precise running bare e) (fun _ => .of_same rfl id)
    (fun _ _ _ => .of_same rfl rfl rfl) (fun _ _ _ => .of_same rfl rfl rfl) e

theorem idleStep_precise (s : State) : s.Precise False (idleStep s) := by
  unfold idleStep
  split
  · exact .of_same rfl id
  · exact .of_same (by simp) (by simp)

/-- The step's call is a bare transport call. -/
def State.CallsBare (s : State) : Prop :=
  s.scanning = none ∧ ∃ r rest i, s.calls = r :: rest ∧ decode r = .ok i ∧ BareCall i

theorem step_precise {s t : State} (running : s.Running) (e : step s = .next t) : s.Precise s.CallsBare t := by
  rcases step_running_cases running e with ⟨-, rfl⟩ | ⟨-, rfl⟩ | ⟨r, rest, i, between, next, decoded, run⟩
  · exact (rescan_precise s).weaken False.elim
  · exact (idleStep_precise s).weaken False.elim
  · have taken : s.WentWell { s with calls := rest } := .of_same rfl rfl rfl
    exact taken.transPrecise ((exec_precise (s := { s with calls := rest }) running run).weaken
      fun bare => ⟨between, r, rest, i, next, decoded, bare⟩)

/-- A precise fault, read off the entries added to TRACE. -/
theorem State.Precise.entries {bare : Prop} {s t : State} (h : s.Precise bare t) (running : s.Running) :
    ∃ new, t.trace = s.trace ++ new ∧ (∀ e ∈ new.dropLast, e.err = false) ∧
      ((∃ e, new.getLast? = some e ∧ e.err = true) → t.fatal = some .bus ∨ bare) ∧
      (t.fatal = some .bus → ∃ e, new.getLast? = some e ∧ e.err = true) := by
  cases h with
  | completed calls fatal =>
    obtain ⟨new, trace, ok⟩ := calls
    refine ⟨new, trace, fun e he => ok e (List.mem_of_mem_dropLast he), fun ⟨e, last, err⟩ => ?_, fun bus => ?_⟩
    · rw [ok e (List.mem_of_getLast? last)] at err
      cases err
    · have raised := fatal bus
      rw [running.1] at raised
      cases raised
  | @failed u e calls last err fatal =>
    obtain ⟨new, trace, ok⟩ := calls
    refine ⟨new ++ [e], by rw [last, trace, List.append_assoc], ?_, fun _ => fatal, fun _ => ⟨e, ?_, err⟩⟩
    · rwa [List.dropLast_concat]
    · rw [List.getLast?_concat]

/-- Settles O55: an operation's primitives add completed calls until the last, which is F_BUS when it fails. -/
theorem busFaultsArePrecise : Obligations.BusFaultsArePrecise := by
  unfold Obligations.BusFaultsArePrecise
  exact ⟨fun s t i running e => (exec_precise running e).entries running,
    fun s t running e => (step_precise running e).entries running⟩

end Sys2Proof.Machine

/-! Between steps the bus is held only by a looping scan or by an operation that stopped (R153, R931). -/

namespace Sys2Proof.Machine

open Sys2Proof

/-- BUS_OWNER is set only when Main has stopped or a debounced scan loops (R931; log entry 21). -/
def State.HoldAccounted (s : State) : Prop :=
  s.busOwner ≠ none → s.stopped = true ∨ (s.busOwner = some .keypadScan ∧ s.scanning ≠ none)

/-- No operation has taken the bus from `s` to `t`, and a scan's key is as it was. -/
structure NoNewHold (s t : State) : Prop where
  params : t.params = s.params
  owner : ∀ o, t.busOwner = some o → s.busOwner = some o
  scanning : t.scanning = s.scanning

section
variable {s t u : State}

theorem NoNewHold.of_same (params : t.params = s.params) (owner : t.busOwner = s.busOwner)
    (scanning : t.scanning = s.scanning) : NoNewHold s t :=
  ⟨params, fun _ h => owner ▸ h, scanning⟩

theorem NoNewHold.trans (h1 : NoNewHold s t) (h2 : NoNewHold t u) : NoNewHold s u :=
  ⟨h2.params.trans h1.params, fun o h => h1.owner o (h2.owner o h), h2.scanning.trans h1.scanning⟩

/-- What was free stays free. -/
theorem NoNewHold.free (h : NoNewHold s t) (free : s.busOwner = none) : t.busOwner = none := by
  refine Option.eq_none_iff_forall_ne_some.2 fun o ho => ?_
  have held := h.owner o ho
  rw [free] at held
  cases held

theorem State.HoldAccounted.of_free (free : s.busOwner = none) : s.HoldAccounted := fun held => absurd free held

theorem State.HoldAccounted.of_stopped (stopped : s.stopped = true) : s.HoldAccounted := fun _ => .inl stopped

theorem stopped_raiseFatal (s : State) (code : FaultCode) (info : FaultInfo) :
    (s.raiseFatal code info).stopped = true := rfl

theorem stopped_refuse (s : State) (reason : RefusalReason) : (s.refuse reason).stopped = true :=
  Bool.or_true _

end

/-- An operation's primitives take no hold, and whatever ends one early stops Main (R901, R910). -/
theorem closed_noNewHold : Closed (fun _ => True) NoNewHold fun _ t => t.stopped = true where
  refl _ := .of_same rfl rfl rfl
  trans := NoNewHold.trans
  transS _ h := h
  params h := h.params
  delay _ _ := .of_same rfl rfl rfl
  foreign _ _ _ := .of_same (by simp) (by simp) (by simp)
  race _ _ _ _ := stopped_raiseFatal ..
  wrote _ _ _ _ _ _ := .of_same (by simp) (by simp) (by simp)
  writeFailed _ _ _ := stopped_raiseFatal ..
  writeTook _ _ _ _ _ _ _ := stopped_raiseFatal ..
  didRead _ _ := .of_same rfl rfl rfl
  readFailed _ _ _ := stopped_raiseFatal ..
  newlines _ _ := stopped_raiseFatal ..
  lineLen _ _ := stopped_raiseFatal ..
  refused _ _ := stopped_refuse ..

/-- A pass under a scan's hold, or none, releases it or leaves the scan looping (R808, R931). -/
theorem afterPass_holdAccounted {s : State} (owner : ∀ o, s.busOwner = some o → o = .keypadScan) (ks : List Key) :
    (afterPass ks s).HoldAccounted := by
  have scanHold : s.busOwner ≠ none → s.busOwner = some .keypadScan := fun held => by
    obtain ⟨o, ho⟩ := Option.ne_none_iff_exists'.1 held
    rw [ho, owner o ho]
  unfold afterPass
  split
  · exact .of_free rfl
  · exact fun held => .inr ⟨scanHold held, nofun⟩
  · exact .of_free rfl
  · next loop => exact fun held => .inr ⟨scanHold held, by simp [loop]⟩

theorem closedExec_holdAccounted : ClosedExec (fun _ => True) NoNewHold (fun _ t => t.stopped = true)
    fun s t => s.busOwner = none → t.HoldAccounted where
  toClosed := closed_noNewHold
  clear _ := .of_same rfl rfl rfl
  ret _ _ := .of_same rfl rfl rfl
  held _ h := ⟨h.params, nofun, h.scanning⟩
  heldStop _ h := h
  done h free := .of_free (h.free free)
  stop h _ := .of_stopped h
  scanned ks h _ := afterPass_holdAccounted (fun _ ho => (Option.some.inj (h.owner _ ho)).symm) ks
  scanStopped h _ := .of_stopped h

/-- A call made while the bus is free leaves it so, or leaves a scan looping or Main stopped. -/
theorem exec_holdAccounted {s t : State} {i : Instr} (free : s.busOwner = none) (e : exec i s = .next t) :
    t.HoldAccounted := by
  refine exec_closed closedExec_holdAccounted (fun bare => ?_) (fun _ free => .of_free free)
    (fun _ _ _ => .of_same rfl rfl rfl) (fun _ _ _ => .of_same rfl rfl rfl) e free
  exact closedExec_holdAccounted.transport (fun _ => trivial) (fun _ _ _ => .of_same rfl rfl rfl)
    (fun _ _ _ _ _ _ _ => .of_same (by simp) (by simp) (by simp)) bare e

theorem rescan_holdAccounted {s : State} (owner : ∀ o, s.busOwner = some o → o = .keypadScan) :
    (rescan s).HoldAccounted :=
  closed_noNewHold.rescan (E := fun _ t => t.HoldAccounted) (fun _ _ => trivial)
    (fun ks _ h => afterPass_holdAccounted (fun o ho => owner o (h.owner o ho)) ks) fun _ h => .of_stopped h

theorem idleStep_noNewHold (s : State) : NoNewHold s (idleStep s) := by
  unfold idleStep
  split
  · exact .of_same rfl rfl rfl
  · exact .of_same (by simp) (by simp) (by simp)

/-- A running Main's hold is a looping scan's. -/
theorem State.HoldAccounted.owner_of_running {s : State} (h : s.HoldAccounted) (running : s.Running) {o : PublicOp}
    (held : s.busOwner = some o) : o = .keypadScan ∧ s.scanning ≠ none := by
  rcases h (by simp [held]) with stopped | ⟨owner, loop⟩
  · rw [running_stopped running] at stopped
    cases stopped
  · exact ⟨Option.some.inj (held.symm.trans owner), loop⟩

theorem State.HoldAccounted.free_of_running {s : State} (h : s.HoldAccounted) (running : s.Running)
    (between : s.scanning = none) : s.busOwner = none :=
  Option.eq_none_iff_forall_ne_some.2 fun _ held => (h.owner_of_running running held).2 between

/-- Settles O59: a round of the loop keeps or ends the scan's hold, every other step of a running Main starts with the
bus free, and a restart frees it. -/
theorem busHoldEndsWithItsOperation : Obligations.BusHoldEndsWithItsOperation := by
  unfold Obligations.BusHoldEndsWithItsOperation
  intro Inv s t (accounted : s.HoldAccounted) e
  show t.HoldAccounted
  rcases step_next_cases e with running | ⟨stopped, rfl | rfl⟩
  · rcases step_running_cases running e with ⟨-, rfl⟩ | ⟨between, rfl⟩ | ⟨r, rest, i, between, -, -, run⟩
    · exact rescan_holdAccounted fun o held => (accounted.owner_of_running running held).1
    · exact .of_free ((idleStep_noNewHold s).free (accounted.free_of_running running between))
    · exact exec_holdAccounted (s := { s with calls := rest }) (accounted.free_of_running running between) run
  · exact .of_free rfl
  · exact .of_stopped stopped

end Sys2Proof.Machine

/-! The power-on state (R1000): the values the table states, the invariants of every step, and the premises of `lcd.init`
(R1003). -/

namespace Sys2Proof.Machine

open Sys2Proof

/-! ## The reference parameters (R12, R13; log entry 5) -/

theorem ref_distinct : Params.ref.distinct := by decide

/-- V102's greeting is one short line of letters (R722). -/
theorem ref_greeting_valid : ValidText Params.ref.greeting := by
  refine ⟨by decide, by decide, ?_⟩
  have oneLine : segments Params.ref.greeting = [Params.ref.greeting] := by decide
  intro line member
  obtain rfl : line = Params.ref.greeting := by rwa [oneLine, List.mem_singleton] at member
  decide

theorem ref_wf : Params.ref.wf := ⟨ref_distinct, ref_greeting_valid⟩

/-! ## The power-on state, for every parameters and inputs -/

/-- No cell of DDRAM has been written (R1000; log entry 3). -/
theorem resetWith_ddramWf (p : Params) (i : Inputs) : (State.resetWith p i).DdramWf := List.Pairwise.nil

theorem resetWith_busFree (p : Params) (i : Inputs) : (State.resetWith p i).BusFree := ⟨rfl, rfl⟩

theorem resetWith_running (p : Params) (i : Inputs) : (State.resetWith p i).Running := ⟨rfl, rfl⟩

theorem resetWith_initMarked (p : Params) (i : Inputs) : (State.resetWith p i).InitMarked := .inl rfl

/-- Power-on leaves the LCD interface cold: no Enable edge is on record, and the controller is ready when the power-rise
settle ends (R119, R1002). Only EN's level depends on the expander's reset latch (R1003). -/
theorem resetWith_coldInterface {p : Params} (i : Inputs) (distinct : p.distinct)
    (enLow : p.expResetOut.getLsbD p.pinEN = false) : (State.resetWith p i).ColdInterface where
  params := distinct
  phase := rfl
  eightBit := rfl
  enableLow := enLow
  viewEn := rfl
  lines := le_rfl
  cycle _ rise := nomatch rise
  busy := (Nat.zero_add Config.T_POWER).ge
  defined := rfl

theorem resetWith_cold {p : Params} (i : Inputs) (distinct : p.distinct)
    (enLow : p.expResetOut.getLsbD p.pinEN = false) : (State.resetWith p i).Cold :=
  { resetWith_coldInterface i distinct enLow with
    running := resetWith_running p i
    free := resetWith_busFree p i }

/-! ## The obligations -/

/-- Settles O7: the rows of R1000's table, in the statement's groups: the chips, the controller's modes, its view of the
lines, the driver with TRACE and time, and the marks of a stop. -/
theorem resetIsThePowerOnState : Obligations.ResetIsThePowerOnState := by
  unfold Obligations.ResetIsThePowerOnState
  intro p i s
  have chips : s.lcdChip = { out := p.expResetOut, dir := p.expResetDir } ∧
      s.kpChip = { out := p.expResetOut, dir := p.expResetDir } := ⟨rfl, rfl⟩
  have settle : s.ctl.lcd.busyUntil = 10000 := (by decide : Config.T_POWER = 10000)
  obtain ⟨running, accepted⟩ := resetWith_running p i
  exact ⟨chips, ⟨rfl, rfl, rfl, rfl, rfl, settle⟩, ⟨rfl, rfl, rfl, rfl, rfl, rfl⟩, ⟨rfl, rfl, rfl, rfl⟩,
    running, accepted, (resetWith_busFree p i).1⟩

/-- Settles O8: each invariant holds of every power-on state, and the machine's own reset is one, with the reference
parameters. -/
theorem resetMeetsTheInvariants : Obligations.ResetMeetsTheInvariants := by
  unfold Obligations.ResetMeetsTheInvariants
  exact ⟨resetWith_ddramWf _ _, ref_wf, fun p i =>
    ⟨resetWith_ddramWf p i, resetWith_busFree p i, resetWith_initMarked p i, resetWith_cold i⟩⟩

end Sys2Proof.Machine
